-- ==== Sys2Proof/Word.lean ====
section
/-! DEFINITION. The types of the values the machine works on: bytes, words, byte strings, coefficients, ring elements. -/

namespace Sys2Proof

/-- One byte of `BMEM` (`10_state.md` R40). -/
abbrev Byte := BitVec 8

/-- The content of a scalar register (`10_state.md` R20). -/
abbrev Half := BitVec 16

/-- A host word, a control register, a command word (`20_memory.md` R60, `30_encoding.md` R90). -/
abbrev Word := BitVec 32

/-- A finite byte string (`00_scope.md` section 6). -/
abbrev Bytes := List Byte

/-- A coefficient: a number in [0, q), q = 3329. `10_state.md` R37 allows a model to type it so (log entry 8, DEDUCED, safe). -/
abbrev Coeff := Fin 3329

/-- A ring element: 256 coefficients (`10_state.md` R36). -/
abbrev RingElt := Vector Coeff 256

/-- The number of a scalar register or of a polynomial register, a 4-bit field (`30_encoding.md` R91). -/
abbrev RegNum := Fin 16

end Sys2Proof
end

