-- ==== Sys2Proof/Syntax.lean ====
section
/-! DEFINITION. The command set, one constructor per row of the opcode table (`30_encoding.md` R94, R100). -/

namespace Sys2Proof

/-- The 27 commands. A register field names a scalar register `X` or a polynomial register `P` as R94 fixes per opcode;
`d`, `eta`, `j`, `i` are 4-bit fields used as they stand (R92). -/
inductive Instr where
  | nop
  | zeroize
  /-- `LI xd, imm16` -/
  | li (rd : RegNum) (imm16 : Half)
  /-- `MONTMUL xd, xa, xb` -/
  | montmul (rd ra rb : RegNum)
  /-- `MODADD xd, xa, xb` -/
  | modadd (rd ra rb : RegNum)
  /-- `MODSUB xd, xa, xb` -/
  | modsub (rd ra rb : RegNum)
  /-- `MODNEG xd, xa` -/
  | modneg (rd ra : RegNum)
  /-- `PADD pd, pa, pb` -/
  | padd (rd ra rb : RegNum)
  /-- `PSUB pd, pa, pb` -/
  | psub (rd ra rb : RegNum)
  /-- `PNEG pd, pa` -/
  | pneg (rd ra : RegNum)
  /-- `PMOV pd, pa` -/
  | pmov (rd ra : RegNum)
  /-- `NTT pd, pa` -/
  | ntt (rd ra : RegNum)
  /-- `INTT pd, pa` -/
  | intt (rd ra : RegNum)
  /-- `BASEMUL pd, pa, pb` -/
  | basemul (rd ra rb : RegNum)
  /-- `SAMPLENTT pd, (xa), j, i`: column `j` (field rb), row `i` (field fn) -/
  | samplentt (rd ra : RegNum) (j i : Fin 16)
  /-- `CBD pd, (xa), eta` -/
  | cbd (rd ra : RegNum) (eta : Fin 16)
  /-- `PRFCBD pd, (xa), eta, n` -/
  | prfcbd (rd ra : RegNum) (eta : Fin 16) (n : Byte)
  /-- `COMPRESS pd, pa, d` -/
  | compress (rd ra : RegNum) (d : Fin 16)
  /-- `DECOMPRESS pd, pa, d` -/
  | decompress (rd ra : RegNum) (d : Fin 16)
  /-- `ENCODE (xd), pa, d` -/
  | encode (rd ra : RegNum) (d : Fin 16)
  /-- `DECODE pd, (xa), xb, d` -/
  | decode (rd ra rb : RegNum) (d : Fin 16)
  | kpkeKeygen
  | kpkeEnc
  | kpkeDec
  | mlkemKeygen
  | mlkemEncaps
  | mlkemDecaps
  deriving DecidableEq, Repr

end Sys2Proof
end

