-- ==== Sys2Proof/WellFormed.lean ====
section
/-! DEFINITION. Which terms of `Instr` are commands: the field constraints of `30_encoding.md` R94 (column "constraint"),
the only ones the types of the fields do not already say. -/

namespace Sys2Proof

/-- η of `CBD` and `PRFCBD`: legal 2 and 3 (`30_encoding.md` R92). -/
def legalEta (eta : Fin 16) : Bool := eta.val == 2 || eta.val == 3

/-- The bit width `d`: legal 1 to `hi` (`30_encoding.md` R92). -/
def legalWidth (hi : Nat) (d : Fin 16) : Bool := decide (1 ≤ d.val) && decide (d.val ≤ hi)

/-- The field constraint of a command's row in `30_encoding.md` R94. -/
def Instr.wf : Instr → Bool
  | .nop => true
  | .zeroize => true
  | .li _ _ => true
  | .montmul _ _ _ => true
  | .modadd _ _ _ => true
  | .modsub _ _ _ => true
  | .modneg _ _ => true
  | .padd _ _ _ => true
  | .psub _ _ _ => true
  | .pneg _ _ => true
  | .pmov _ _ => true
  | .ntt _ _ => true
  | .intt _ _ => true
  | .basemul _ _ _ => true
  | .samplentt _ _ _ _ => true
  | .cbd _ _ eta => legalEta eta
  | .prfcbd _ _ eta _ => legalEta eta
  | .compress _ _ d => legalWidth 11 d
  | .decompress _ _ d => legalWidth 11 d
  | .encode _ _ d => legalWidth 12 d
  | .decode _ _ _ d => legalWidth 12 d
  | .kpkeKeygen => true
  | .kpkeEnc => true
  | .kpkeDec => true
  | .mlkemKeygen => true
  | .mlkemEncaps => true
  | .mlkemDecaps => true

end Sys2Proof
end

