-- ==== Sys2Proof/Decode.lean ====
section
/-! DEFINITION. Command words: the decoder (`30_encoding.md` R90 to R97), the encoder, and the opcode table as the spec
prints it (R94). -/

namespace Sys2Proof

/-- Why a word is no command: the three cases of `30_encoding.md` R97. -/
inductive Illegal where
  /-- (a) the opcode is none of the 27 -/
  | unknownOpcode
  /-- (b) a bit of a must-be-zero field is 1 -/
  | nonzeroField
  /-- (c) `fn` is outside the command's range -/
  | fnOutOfRange
  deriving DecidableEq, Repr

/-- The 4-bit field of `w` whose lowest bit is `lo`. -/
def field4 (w : Word) (lo : Nat) : Fin 16 := (w.extractLsb' lo 4).toFin

/-- Are the `len` bits of `w` from bit `lo` on all 0? -/
def zeroField (w : Word) (lo len : Nat) : Bool := w.extractLsb' lo len == 0#len

/-- A word whose opcode is known: it is command `i` iff its must-be-zero fields are 0 and `i` meets its row's constraint
(`30_encoding.md` R95). -/
def legalIf (zeros : Bool) (i : Instr) : Except Illegal Instr :=
  if zeros then if i.wf then .ok i else .error .fnOutOfRange else .error .nonzeroField

/-- Format N: bits 23:0 are 0 (`30_encoding.md` R91). -/
def formatN (w : Word) (i : Instr) : Except Illegal Instr := legalIf (zeroField w 0 24) i

/-- Format R3: `rd`, `ra`, `rb`, bits 11:0 are 0 (`30_encoding.md` R91). -/
def formatR3 (w : Word) (mk : RegNum → RegNum → RegNum → Instr) : Except Illegal Instr :=
  legalIf (zeroField w 0 12) (mk (field4 w 20) (field4 w 16) (field4 w 12))

/-- Format R2: `rd`, `ra`, bits 15:0 are 0 (`30_encoding.md` R91). -/
def formatR2 (w : Word) (mk : RegNum → RegNum → Instr) : Except Illegal Instr :=
  legalIf (zeroField w 0 16) (mk (field4 w 20) (field4 w 16))

/-- Format S where the row demands `rb` = 0 and `imm8` = 0 (`30_encoding.md` R91, R94). -/
def formatSfn (w : Word) (mk : RegNum → RegNum → Fin 16 → Instr) : Except Illegal Instr :=
  legalIf (zeroField w 12 4 && zeroField w 0 8) (mk (field4 w 20) (field4 w 16) (field4 w 8))

/-- The decoder: total on all words, `op` = bits 31:24 selects the row (`30_encoding.md` R95). -/
def decode (w : Word) : Except Illegal Instr :=
  match (w.extractLsb' 24 8).toNat with
  | 0x00 => formatN w .nop
  | 0x01 => formatN w .zeroize
  | 0x10 => legalIf (zeroField w 16 4) (.li (field4 w 20) (w.extractLsb' 0 16))
  | 0x11 => formatR3 w .montmul
  | 0x12 => formatR3 w .modadd
  | 0x13 => formatR3 w .modsub
  | 0x14 => formatR2 w .modneg
  | 0x20 => formatR3 w .padd
  | 0x21 => formatR3 w .psub
  | 0x22 => formatR2 w .pneg
  | 0x23 => formatR2 w .pmov
  | 0x24 => formatR2 w .ntt
  | 0x25 => formatR2 w .intt
  | 0x26 => formatR3 w .basemul
  | 0x30 => legalIf (zeroField w 0 8) (.samplentt (field4 w 20) (field4 w 16) (field4 w 12) (field4 w 8))
  | 0x31 => formatSfn w .cbd
  | 0x32 => legalIf (zeroField w 12 4) (.prfcbd (field4 w 20) (field4 w 16) (field4 w 8) (w.extractLsb' 0 8))
  | 0x40 => formatSfn w .compress
  | 0x41 => formatSfn w .decompress
  | 0x42 => formatSfn w .encode
  | 0x43 => legalIf (zeroField w 0 8) (.decode (field4 w 20) (field4 w 16) (field4 w 12) (field4 w 8))
  | 0x50 => formatN w .kpkeKeygen
  | 0x51 => formatN w .kpkeEnc
  | 0x52 => formatN w .kpkeDec
  | 0x60 => formatN w .mlkemKeygen
  | 0x61 => formatN w .mlkemEncaps
  | 0x62 => formatN w .mlkemDecaps
  | _ => .error .unknownOpcode

/-- A word from its fields: opcode, `rd`, `ra`, `rb`, `fn`, `imm8` (`30_encoding.md` R91, format S; the other formats leave
the later fields 0). -/
def wordOf (op : BitVec 8) (rd ra rb fn : Fin 16) (imm8 : Byte) : Word :=
  op ++ BitVec.ofFin (w := 4) rd ++ BitVec.ofFin (w := 4) ra ++ BitVec.ofFin (w := 4) rb ++ BitVec.ofFin (w := 4) fn ++ imm8

/-- The encoder: the word that spells a command (`30_encoding.md` R91, R94, R100). -/
def encode : Instr → Word
  | .nop => wordOf 0x00 0 0 0 0 0
  | .zeroize => wordOf 0x01 0 0 0 0 0
  | .li rd imm16 => 0x10#8 ++ BitVec.ofFin (w := 4) rd ++ 0#4 ++ imm16
  | .montmul rd ra rb => wordOf 0x11 rd ra rb 0 0
  | .modadd rd ra rb => wordOf 0x12 rd ra rb 0 0
  | .modsub rd ra rb => wordOf 0x13 rd ra rb 0 0
  | .modneg rd ra => wordOf 0x14 rd ra 0 0 0
  | .padd rd ra rb => wordOf 0x20 rd ra rb 0 0
  | .psub rd ra rb => wordOf 0x21 rd ra rb 0 0
  | .pneg rd ra => wordOf 0x22 rd ra 0 0 0
  | .pmov rd ra => wordOf 0x23 rd ra 0 0 0
  | .ntt rd ra => wordOf 0x24 rd ra 0 0 0
  | .intt rd ra => wordOf 0x25 rd ra 0 0 0
  | .basemul rd ra rb => wordOf 0x26 rd ra rb 0 0
  | .samplentt rd ra j i => wordOf 0x30 rd ra j i 0
  | .cbd rd ra eta => wordOf 0x31 rd ra 0 eta 0
  | .prfcbd rd ra eta n => wordOf 0x32 rd ra 0 eta n
  | .compress rd ra d => wordOf 0x40 rd ra 0 d 0
  | .decompress rd ra d => wordOf 0x41 rd ra 0 d 0
  | .encode rd ra d => wordOf 0x42 rd ra 0 d 0
  | .decode rd ra rb d => wordOf 0x43 rd ra rb d 0
  | .kpkeKeygen => wordOf 0x50 0 0 0 0 0
  | .kpkeEnc => wordOf 0x51 0 0 0 0 0
  | .kpkeDec => wordOf 0x52 0 0 0 0 0
  | .mlkemKeygen => wordOf 0x60 0 0 0 0 0
  | .mlkemEncaps => wordOf 0x61 0 0 0 0 0
  | .mlkemDecaps => wordOf 0x62 0 0 0 0 0

/-- One row of the opcode map of `30_encoding.md` R94: opcode, mnemonic, mask, match, and the lowest and highest legal `fn`
(0 and 15 where the row states no constraint). -/
structure OpcodeRow where
  op : Nat
  mnemonic : String
  mask : Word
  pattern : Word
  fnLo : Nat
  fnHi : Nat
  deriving DecidableEq, Repr

/-- The opcode map of `30_encoding.md` R94, families 0x0 to 0x2. -/
def opcodeRowsArithmetic : List OpcodeRow :=
  [ ⟨0x00, "NOP", 0xFFFFFFFF, 0x00000000, 0, 15⟩,
    ⟨0x01, "ZEROIZE", 0xFFFFFFFF, 0x01000000, 0, 15⟩,
    ⟨0x10, "LI", 0xFF0F0000, 0x10000000, 0, 15⟩,
    ⟨0x11, "MONTMUL", 0xFF000FFF, 0x11000000, 0, 15⟩,
    ⟨0x12, "MODADD", 0xFF000FFF, 0x12000000, 0, 15⟩,
    ⟨0x13, "MODSUB", 0xFF000FFF, 0x13000000, 0, 15⟩,
    ⟨0x14, "MODNEG", 0xFF00FFFF, 0x14000000, 0, 15⟩,
    ⟨0x20, "PADD", 0xFF000FFF, 0x20000000, 0, 15⟩,
    ⟨0x21, "PSUB", 0xFF000FFF, 0x21000000, 0, 15⟩,
    ⟨0x22, "PNEG", 0xFF00FFFF, 0x22000000, 0, 15⟩,
    ⟨0x23, "PMOV", 0xFF00FFFF, 0x23000000, 0, 15⟩,
    ⟨0x24, "NTT", 0xFF00FFFF, 0x24000000, 0, 15⟩,
    ⟨0x25, "INTT", 0xFF00FFFF, 0x25000000, 0, 15⟩,
    ⟨0x26, "BASEMUL", 0xFF000FFF, 0x26000000, 0, 15⟩ ]

/-- The opcode map of `30_encoding.md` R94, families 0x3 to 0x6. -/
def opcodeRowsObjects : List OpcodeRow :=
  [ ⟨0x30, "SAMPLENTT", 0xFF0000FF, 0x30000000, 0, 15⟩,
    ⟨0x31, "CBD", 0xFF00F0FF, 0x31000000, 2, 3⟩,
    ⟨0x32, "PRFCBD", 0xFF00F000, 0x32000000, 2, 3⟩,
    ⟨0x40, "COMPRESS", 0xFF00F0FF, 0x40000000, 1, 11⟩,
    ⟨0x41, "DECOMPRESS", 0xFF00F0FF, 0x41000000, 1, 11⟩,
    ⟨0x42, "ENCODE", 0xFF00F0FF, 0x42000000, 1, 12⟩,
    ⟨0x43, "DECODE", 0xFF0000FF, 0x43000000, 1, 12⟩,
    ⟨0x50, "KPKE_KEYGEN", 0xFFFFFFFF, 0x50000000, 0, 15⟩,
    ⟨0x51, "KPKE_ENC", 0xFFFFFFFF, 0x51000000, 0, 15⟩,
    ⟨0x52, "KPKE_DEC", 0xFFFFFFFF, 0x52000000, 0, 15⟩,
    ⟨0x60, "MLKEM_KEYGEN", 0xFFFFFFFF, 0x60000000, 0, 15⟩,
    ⟨0x61, "MLKEM_ENCAPS", 0xFFFFFFFF, 0x61000000, 0, 15⟩,
    ⟨0x62, "MLKEM_DECAPS", 0xFFFFFFFF, 0x62000000, 0, 15⟩ ]

/-- The opcode map of `30_encoding.md` R94, all 27 rows. -/
def opcodeTable : List OpcodeRow := opcodeRowsArithmetic ++ opcodeRowsObjects

/-- Does the word spell the row's command: `(w & mask) = match` and the constraint on `fn` = bits 11:8 (`30_encoding.md` R94). -/
def OpcodeRow.spells (r : OpcodeRow) (w : Word) : Bool :=
  (w &&& r.mask == r.pattern) && decide (r.fnLo ≤ (field4 w 8).val) && decide ((field4 w 8).val ≤ r.fnHi)

/-- A command's mnemonic, as the opcode table spells it. -/
def Instr.mnemonic : Instr → String
  | .nop => "NOP"
  | .zeroize => "ZEROIZE"
  | .li _ _ => "LI"
  | .montmul _ _ _ => "MONTMUL"
  | .modadd _ _ _ => "MODADD"
  | .modsub _ _ _ => "MODSUB"
  | .modneg _ _ => "MODNEG"
  | .padd _ _ _ => "PADD"
  | .psub _ _ _ => "PSUB"
  | .pneg _ _ => "PNEG"
  | .pmov _ _ => "PMOV"
  | .ntt _ _ => "NTT"
  | .intt _ _ => "INTT"
  | .basemul _ _ _ => "BASEMUL"
  | .samplentt _ _ _ _ => "SAMPLENTT"
  | .cbd _ _ _ => "CBD"
  | .prfcbd _ _ _ _ => "PRFCBD"
  | .compress _ _ _ => "COMPRESS"
  | .decompress _ _ _ => "DECOMPRESS"
  | .encode _ _ _ => "ENCODE"
  | .decode _ _ _ _ => "DECODE"
  | .kpkeKeygen => "KPKE_KEYGEN"
  | .kpkeEnc => "KPKE_ENC"
  | .kpkeDec => "KPKE_DEC"
  | .mlkemKeygen => "MLKEM_KEYGEN"
  | .mlkemEncaps => "MLKEM_ENCAPS"
  | .mlkemDecaps => "MLKEM_DECAPS"

/-- The command word whose low `nbits` bits are those of `w`, the bits above 0. Every command is one 32-bit word
(`30_encoding.md` R90). -/
def tableWord (nbits w : Nat) : Word := BitVec.ofNat 32 (w % 2 ^ nbits)

/-- What the decoder reads from a row's word, numbered as the opcode table numbers it. -/
def decodeTableWord (nbits w : Nat) : Option Instr :=
  match decode (tableWord nbits w) with
  | .ok i => some i
  | .error _ => none

end Sys2Proof
end

