-- ==== Sys2Proof/Config.lean ====
section
/-! DEFINITION. What is fixed for one block and not state (`00_scope.md` R6, R9 to R12): the names of the parameter
sets, and the parameters the spec leaves open, as constants without a body. -/

namespace Sys2Proof

/-- The parameter sets of `00_scope.md` R12, the values `PSET` can hold (`10_state.md` R31: 3 is never held; log entry 9). -/
inductive ParamSet where
  | mlkem512
  | mlkem768
  | mlkem1024
  deriving DecidableEq, Repr

/-- An answer of the random-byte source to one request: `ok(b)` with 32 bytes, or `fail` (`00_scope.md` R11). -/
inductive RngAnswer where
  | ok (b : Vector Byte 32)
  | fail
  deriving DecidableEq, Repr, Inhabited

/-- `H : bytes -> 32 bytes` (`00_scope.md` R10). A parameter of the spec, nothing assumed of it (log entry 4, safe). -/
opaque Config.hashH : Bytes → Vector Byte 32

/-- `G : bytes -> 64 bytes` (`00_scope.md` R10; log entry 4). -/
opaque Config.hashG : Bytes → Vector Byte 64

/-- `J : bytes -> 32 bytes` (`00_scope.md` R10; log entry 4). -/
opaque Config.hashJ : Bytes → Vector Byte 32

/-- `XOF : 34 bytes -> infinite byte stream`; `Config.xof s n` is `XOF(s)[n]` (`00_scope.md` R10; log entry 4). -/
opaque Config.xof : Bytes → Nat → Byte

/-- `PRF : (η ∈ {2,3}) x 32 bytes x 1 byte -> 64·η bytes` (`00_scope.md` R10; log entry 4). -/
opaque Config.prf : (η : Nat) → Bytes → Byte → Vector Byte (64 * η)

/-- `CFG_EK_MODCHECK` (`00_scope.md` R9, `45_mlkem.md` R236): left OPEN by the spec, so open here (log entry 5, safe). -/
opaque Config.ekModCheck : Bool

/-- The answer of the random source to request number `n` of the run, when `State.rngAnswers` names none: a free draw
(`00_scope.md` R11, `45_mlkem.md` R242; log entry 7, safe). -/
opaque Config.freeRngAnswer : Nat → RngAnswer

/-- `LAT` (`00_scope.md` R9, `70_reset_and_hazards.md` R310): command word, `PSET`, scalar registers and public stream to
a duration. Uninterpreted; no rule of the spec reads it and nothing in the model does (log entry 6). -/
opaque Config.lat : Word → ParamSet → Vector Half 16 → (Nat → Byte) → Nat

end Sys2Proof
end

