-- ==== Sys2Proof/Machine/State.lean ====
section
/-! DEFINITION. The state of the block, the errors a command can end with, the turns of the agents, and the state after
reset (`10_state.md`). -/

namespace Sys2Proof.Machine

/-- The machine never stops with a fault, so this type has no constructor: `93_implementation_defined.md` section 1 says
every host access and every command word has a stated outcome. A command error is a next state (`60_exceptions.md` R262),
a rejected access is a next state (`20_memory.md` R67), a hang leaves the state as it is (`42_sampling.md` R172; log entry 3). -/
inductive Fault where
  deriving DecidableEq, Repr

/-- Why an instruction has no meaning. -/
inductive Refusal where
  /-- Raised by a rejected arm of Dispatch.lean only, and no arm is rejected; safe. -/
  | notModelled (mnemonic : String)
  deriving DecidableEq, Repr

/-- The byte memory: the listed (address, byte) pairs; an unlisted address reads `Memory.unlisted`. -/
structure Memory where
  cells : List Host.Cell
  deriving DecidableEq, Repr

/-- The errors of `60_exceptions.md` R253 with the information R254 says each records. -/
inductive CmdError where
  /-- Code 1: the word is no command. -/
  | illegalCmd
  /-- Code 2: the length register of input operand `idx` holds `val`. -/
  | formatLength (idx : BitVec 4) (val : Half)
  /-- Code 2 with `CONTENT`: field `n` of `ek` is not canonical (`45_mlkem.md` R236). -/
  | formatContent (n : Half)
  /-- Code 3: random request `idx` was answered `fail`. -/
  | randomness (idx : BitVec 4)
  /-- Code 4: operand `idx` at address `val` does not lie inside `BMEM`. -/
  | address (idx : BitVec 4) (val : Half)
  /-- Code 5: scalar operand `idx` holds `val`, 3329 or more. -/
  | operandRange (idx : BitVec 4) (val : Half)
  deriving DecidableEq, Repr

/-- Whose turn it is: one atomic transition of one agent (`00_scope.md` R5, `20_memory.md` R74). -/
inductive Turn where
  /-- `HostRead(addr)` (`20_memory.md` R60) -/
  | hostRead (addr : BitVec 14)
  /-- `HostWrite(addr, w)` (`20_memory.md` R60) -/
  | hostWrite (addr : BitVec 14) (w : Word)
  /-- the engine's `Complete`, if it is enabled (`60_exceptions.md` R250) -/
  | engine
  /-- the reset input (`70_reset_and_hazards.md` R290) -/
  | reset
  deriving DecidableEq, Repr

/-- What the bus returns to the host for one access (`20_memory.md` R60). -/
inductive BusReply where
  | read (data : Word) (ok : Bool)
  | write (ok : Bool)
  deriving DecidableEq, Repr

/-- What a served address of the host's register space names (`20_memory.md` R64). -/
inductive RegAddr where
  | id
  | ctrl
  | status
  | cmd
  | pset
  | ecmd
  | einfo
  | cmdcnt
  /-- `X[i]` -/
  | xreg (i : RegNum)
  /-- the window word at `BMEM` offset `o` -/
  | window (o : Nat)
  deriving DecidableEq, Repr

/-- The complete state of the block (`10_state.md`, head of the file), then the model's own fields. -/
structure State where
  /-- `X[0]` to `X[15]` (R20) -/
  x : Vector Half 16
  /-- `P[0]` to `P[15]` (R36) -/
  p : Vector RingElt 16
  /-- `BMEM` (R40) -/
  bmem : Memory
  /-- `CTRL.IE_DONE` (R28) -/
  ieDone : Bool
  /-- `CTRL.IE_ERR` (R28) -/
  ieErr : Bool
  /-- `STATUS.BUSY` (R29) -/
  busy : Bool
  /-- `STATUS.DONE` (R29) -/
  done : Bool
  /-- `STATUS.BUSERR` (R29) -/
  busErr : Bool
  /-- `STATUS.ERR` (R29) -/
  err : BitVec 8
  /-- `CMDREG` (R30) -/
  cmdreg : Word
  /-- `PSET` (R31) -/
  pset : ParamSet
  /-- `ECMD` (R32) -/
  ecmd : Word
  /-- `EINFO` (R33) -/
  einfo : Word
  /-- `CMDCNT` (R25) -/
  cmdcnt : Word
  /-- The model's own: the turns to come, oldest first (log entry 1, DESIGN CHOICE, safe). -/
  schedule : List Turn
  /-- The model's own: the bus's answer to the last host access (log entry 11, DESIGN CHOICE, safe). -/
  busReply : Option BusReply
  /-- The model's own: the random port's next answers, oldest first (log entry 7, DESIGN CHOICE, safe). -/
  rngAnswers : List RngAnswer
  /-- The model's own: the number of requests answered, the index of the next free answer (log entry 7, DESIGN CHOICE, safe). -/
  rngDraws : Nat
  deriving DecidableEq, Repr

/-- The state after reset (`10_state.md` R45, `70_reset_and_hazards.md` R290): every item 0, `PSET` 0 = ML-KEM-512. The
last four fields are the model's own, empty or 0 by DESIGN CHOICE (log entries 1, 7, 11). -/
def State.reset : State where
  x := Vector.replicate 16 0
  p := Vector.replicate 16 (Vector.replicate 256 0)
  bmem := ⟨[]⟩
  ieDone := false
  ieErr := false
  busy := false
  done := false
  busErr := false
  err := 0
  cmdreg := 0
  pset := .mlkem512
  ecmd := 0
  einfo := 0
  cmdcnt := 0
  schedule := []
  busReply := none
  rngAnswers := []
  rngDraws := 0

end Sys2Proof.Machine
end

