-- ==== Sys2Proof/Machine/Ops.lean ====
section
/-! DEFINITION. The shared operations: the byte memory, the register files, the random port, how a command ends (success,
error, hang), the return from an error, acceptance of a command, reset (`20_memory.md`, `60_exceptions.md`,
`70_reset_and_hazards.md`). -/

namespace Sys2Proof.Machine

/-! ## The byte memory -/

/-- `BMEM_SIZE` (`00_scope.md` R9, `20_memory.md` R61). -/
def bmemSize : Nat := 8192

/-- What an unlisted address reads as: every byte of `BMEM` is 0 after reset (`10_state.md` R40, R45). -/
def Memory.unlisted : Byte := 0

/-- The byte listed for an address, or what an unlisted address reads as. -/
def lookupCell : List Host.Cell → Nat → Byte
  | [], _ => Memory.unlisted
  | (k, c) :: rest, a => if a = k then c else lookupCell rest a

/-- `BMEM[a]`. -/
def Memory.read (m : Memory) (a : Nat) : Byte := lookupCell m.cells a

/-- List `b` at address `a` in rising order; the value an unlisted address reads as is not listed. -/
def insertCell : List Host.Cell → Nat → Byte → List Host.Cell
  | [], a, b => if b = Memory.unlisted then [] else [(a, b)]
  | (k, c) :: rest, a, b =>
    if a < k then if b = Memory.unlisted then (k, c) :: rest else (a, b) :: (k, c) :: rest
    else if a = k then if b = Memory.unlisted then rest else (a, b) :: rest
    else (k, c) :: insertCell rest a b

/-- `BMEM[a] <- b`. An address outside `BMEM` stores nothing: no rule ever makes such an access, since every operand is
checked first (`20_memory.md` R62, `60_exceptions.md` R258; log entry 16). -/
def Memory.write (m : Memory) (a : Nat) (b : Byte) : Memory :=
  if a < bmemSize then ⟨insertCell m.cells a b⟩ else m

/-- `MemRead(addr, n)` (`20_memory.md` R62). -/
def Memory.readBytes (m : Memory) (a n : Nat) : Bytes := (List.range n).map fun i => m.read (a + i)

/-- `MemWrite(addr, len(v), v)` (`20_memory.md` R62). -/
def Memory.writeBytes (m : Memory) (a : Nat) : Bytes → Memory
  | [] => m
  | b :: rest => (m.write a b).writeBytes (a + 1) rest

/-- Do the addresses rise strictly? -/
def risingCells : List Host.Cell → Bool
  | [] => true
  | [_] => true
  | (a, _) :: (b, c) :: rest => decide (a < b) && risingCells ((b, c) :: rest)

/-- The canonical form: rising addresses, all inside `BMEM`, no entry equal to what an unlisted address reads as. -/
def Memory.wf (m : Memory) : Bool :=
  risingCells m.cells && m.cells.all fun c => decide (c.1 < bmemSize) && c.2 != Memory.unlisted

/-! ## The register files -/

/-- `X[i]` (`10_state.md` R20). -/
def State.readX (s : State) (i : RegNum) : Half := s.x[i]

/-- `X[i] <- v` (`10_state.md` R20). -/
def State.writeX (s : State) (i : RegNum) (v : Half) : State := { s with x := s.x.set i v }

/-- `P[i]` (`10_state.md` R36). -/
def State.readP (s : State) (i : RegNum) : RingElt := s.p[i]

/-- `P[i] <- f`, all 256 coefficients (`10_state.md` R36). -/
def State.writeP (s : State) (i : RegNum) (f : RingElt) : State := { s with p := s.p.set i f }

/-- `MemRead(addr, n)` at an address held in a scalar register (`20_memory.md` R62, `43_codec.md` R199). -/
def State.load (s : State) (addr : Half) (n : Nat) : Bytes := s.bmem.readBytes addr.toNat n

/-- `MemWrite(addr, len(v), v)` at an address held in a scalar register (`20_memory.md` R62). -/
def State.store (s : State) (addr : Half) (v : Bytes) : State := { s with bmem := s.bmem.writeBytes addr.toNat v }

/-! ## The random port -/

/-- `RngRequest` (`00_scope.md` R11, `45_mlkem.md` R242): the next answer the environment has lined up, else a free one;
and the state with that answer used up (log entry 7). -/
def State.rngRequest (s : State) : RngAnswer × State :=
  match s.rngAnswers with
  | a :: rest => (a, { s with rngAnswers := rest, rngDraws := s.rngDraws + 1 })
  | [] => (Config.freeRngAnswer s.rngDraws, { s with rngDraws := s.rngDraws + 1 })

/-! ## How a command ends -/

/-- `STATUS.ERR` for an error (`60_exceptions.md` R253). -/
def CmdError.code : CmdError → BitVec 8
  | .illegalCmd => 1
  | .formatLength _ _ => 2
  | .formatContent _ => 2
  | .randomness _ => 3
  | .address _ _ => 4
  | .operandRange _ _ => 5

/-- `EINFO` from its fields: `CONTENT` = bit 31, `IDX` = bits 19:16, `VAL` = bits 15:0, bits 30:20 are 0 (`10_state.md` R33). -/
def einfoWord (content : Bool) (idx : BitVec 4) (val : Half) : Word := BitVec.ofBool content ++ 0#11 ++ idx ++ val

/-- What `EINFO` records for an error (`60_exceptions.md` R254). -/
def CmdError.info : CmdError → Word
  | .illegalCmd => einfoWord false 0 0
  | .formatLength idx val => einfoWord false idx val
  | .formatContent n => einfoWord true 0 n
  | .randomness idx => einfoWord false idx 0
  | .address idx val => einfoWord false idx val
  | .operandRange idx val => einfoWord false idx val

/-- Error completion, the block's trap entry (`60_exceptions.md` R262): the error code, the command word and the
information word are recorded, `BUSY` falls, `DONE` rises, nothing else changes. -/
def State.raiseError (s : State) (e : CmdError) : State :=
  { s with err := e.code, ecmd := s.cmdreg, einfo := e.info, busy := false, done := true }

/-- The return from an error, `CTRL.CLRERR` (`60_exceptions.md` R264): it restores nothing and re-executes nothing. -/
def State.clearError (s : State) : State := { s with err := 0, ecmd := 0, einfo := 0 }

/-- Successful completion of a command whose writes have been made (`60_exceptions.md` R251). -/
def State.complete (s : State) : State := { s with cmdcnt := s.cmdcnt + 1, busy := false, done := true }

/-- The end of a command whose computation is `some t` (`t` holds its writes), or is undefined because a rejection
sampling in it never ends: then the engine has no step, so the state stays as it is and `BUSY` stays 1
(`42_sampling.md` R172; log entry 3, DEDUCED, safe). -/
def State.completeIfDefined (s : State) : Option State → State
  | some t => t.complete
  | none => s

/-- The first error of a list of checks in their order (`60_exceptions.md` R261: one command reports one error). -/
def firstError : List (Option CmdError) → Option CmdError
  | [] => none
  | some e :: _ => some e
  | none :: rest => firstError rest

/-- The shape of every command: its checks in order, the first that fails ends the command with its error, else the
command ends in `t` (`60_exceptions.md` R250, R261). The machine never stops. -/
def State.checked (s : State) (checks : List (Option CmdError)) (t : State) : Host.Outcome State Fault Refusal :=
  .next (match firstError checks with
    | some e => s.raiseError e
    | none => t)

/-! ## Acceptance, fetch, reset -/

/-- The acceptance of a command word (`10_state.md` R30); the word is not decoded here (`60_exceptions.md` R256). -/
def State.acceptCommand (s : State) (w : Word) : State := { s with cmdreg := w, busy := true, done := false }

/-- The command the engine finds in `CMDREG` when it completes (`60_exceptions.md` R256). -/
def State.fetch (s : State) : Except Illegal Instr := decode s.cmdreg

/-- Reset (`70_reset_and_hazards.md` R290): the whole state becomes the reset state; a pending command is abandoned. What
the environment will do next (turns, random answers) is not the block's and stays (log entry 15). -/
def State.resetBlock (s : State) : State :=
  { State.reset with schedule := s.schedule, rngAnswers := s.rngAnswers, rngDraws := s.rngDraws }

end Sys2Proof.Machine
end

