-- ==== Sys2Proof/Machine/Operands.lean ====
section
/-! DEFINITION. Operands: the parameter table, the checks of lengths, addresses and ranges, and the calling convention of
the macro commands (`00_scope.md` R12, `10_state.md` R22, `60_exceptions.md` R257 to R259). -/

namespace Sys2Proof.Machine

/-- One row of the parameter table (`00_scope.md` R12), the lengths in bytes. -/
structure ParamRow where
  k : Nat
  eta1 : Nat
  eta2 : Nat
  du : Nat
  dv : Nat
  ekBytes : Nat
  dkBytes : Nat
  ctBytes : Nat
  dkPkeBytes : Nat
  deriving DecidableEq, Repr

/-- The fixed table of `00_scope.md` R12. -/
def paramRow : ParamSet → ParamRow
  | .mlkem512 => ⟨2, 3, 2, 10, 4, 800, 1632, 768, 768⟩
  | .mlkem768 => ⟨3, 2, 2, 10, 4, 1184, 2400, 1088, 1152⟩
  | .mlkem1024 => ⟨4, 2, 2, 11, 5, 1568, 3168, 1568, 1536⟩

/-- The row `PSET` selects. -/
def State.params (s : State) : ParamRow := paramRow s.pset

/-- `byte(v)`, the one byte of value `v`, 0 ≤ v < 256 (`00_scope.md` section 6). -/
def byteOf (v : Nat) : Byte := BitVec.ofNat 8 v

/-- Length check: the length register must hold exactly `want` (`60_exceptions.md` R257). -/
def lengthCheck (idx : BitVec 4) (held : Half) (want : Nat) : Option CmdError :=
  if held.toNat = want then none else some (.formatLength idx held)

/-- Address check: the operand must end inside `BMEM`, the sum in unbounded integers (`60_exceptions.md` R258). -/
def addressCheck (idx : BitVec 4) (addr : Half) (len : Nat) : Option CmdError :=
  if addr.toNat + len ≤ bmemSize then none else some (.address idx addr)

/-- Range check of a scalar arithmetic operand (`40_control_scalar.md` R131). -/
def rangeCheck (idx : BitVec 4) (v : Half) : Option CmdError :=
  if v.toNat < 3329 then none else some (.operandRange idx v)

/-- The field check of a command's pseudocode ("raise ILLEGAL_CMD" unless the field is legal). -/
def fieldCheck (legal : Bool) : Option CmdError := if legal then none else some .illegalCmd

/-- The address register of input operand `i`, `X[4 + 2·i]` (`10_state.md` R22). -/
def State.inAddr (s : State) (i : Fin 3) : Half := s.readX ⟨4 + 2 * i.val, by omega⟩

/-- The length register of input operand `i`, `X[5 + 2·i]` (`10_state.md` R22). -/
def State.inLen (s : State) (i : Fin 3) : Half := s.readX ⟨5 + 2 * i.val, by omega⟩

/-- The address register of output operand `j`, `X[1 + j]` (`10_state.md` R22). -/
def State.outAddr (s : State) (j : Fin 2) : Half := s.readX ⟨1 + j.val, by omega⟩

end Sys2Proof.Machine
end

