-- ==== Sys2Proof/Machine/Control.lean ====
section
/-! DEFINITION. The control commands (`40_control_scalar.md` section 1). -/

namespace Sys2Proof.Machine

/-- `NOP` (R120). -/
def execNop (s : State) : Host.Outcome State Fault Refusal := s.checked [] s.complete

/-- `X`, `P` and `BMEM` all 0 (`40_control_scalar.md` R121). -/
def State.zeroize (s : State) : State :=
  { s with x := Vector.replicate 16 0, p := Vector.replicate 16 (Vector.replicate 256 0), bmem := ⟨[]⟩ }

/-- `ZEROIZE` (R121). -/
def execZeroize (s : State) : Host.Outcome State Fault Refusal := s.checked [] s.zeroize.complete

/-- `LI xd, imm16` (R122). -/
def execLi (rd : RegNum) (imm16 : Half) (s : State) : Host.Outcome State Fault Refusal :=
  s.checked [] (s.writeX rd imm16).complete

end Sys2Proof.Machine
end

