-- ==== Sys2Proof/Machine/Arith.lean ====
section
/-! DEFINITION. Arithmetic modulo q = 3329: the Montgomery multiplier and the additive functions on numbers
(`40_control_scalar.md` R123 to R127), and the exact operations on coefficients the ring rules use (R132). -/

namespace Sys2Proof.Machine

/-- `montmul(a, b)`, step by step (`40_control_scalar.md` R124). -/
def montmul (a b : Nat) : Nat :=
  let T := a * b
  let m := (T % 2 ^ 16 * 3327) % 2 ^ 16
  let t := (T + m * 3329) / 2 ^ 16
  if 3329 ≤ t then t - 3329 else t

/-- `modadd(a, b)` (`40_control_scalar.md` R127). -/
def modadd (a b : Nat) : Nat :=
  let t := a + b
  if 3329 ≤ t then t - 3329 else t

/-- `modsub(a, b)` (`40_control_scalar.md` R127): the difference, plus q where it is negative. -/
def modsub (a b : Nat) : Nat := if b ≤ a then a - b else a + 3329 - b

/-- `modneg(a)` = `modsub(0, a)` (`40_control_scalar.md` R127). -/
def modneg (a : Nat) : Nat := modsub 0 a

/-- The canonical representative of a number (`40_control_scalar.md` R123). -/
def Coeff.reduce (n : Nat) : Coeff := ⟨n % 3329, Nat.mod_lt n (by decide)⟩

theorem modadd_lt {a b : Nat} (ha : a < 3329) (hb : b < 3329) : modadd a b < 3329 := by
  simp only [modadd]; split <;> omega

theorem modsub_lt {a b : Nat} (ha : a < 3329) (hb : b < 3329) : modsub a b < 3329 := by
  simp only [modsub]; split <;> omega

/-- `modadd` on coefficients. -/
def Coeff.add (a b : Coeff) : Coeff := ⟨modadd a.val b.val, modadd_lt a.isLt b.isLt⟩

/-- `modsub` on coefficients. -/
def Coeff.sub (a b : Coeff) : Coeff := ⟨modsub a.val b.val, modsub_lt a.isLt b.isLt⟩

/-- `modneg` on coefficients. -/
def Coeff.neg (a : Coeff) : Coeff := ⟨modneg a.val, modsub_lt (by decide) a.isLt⟩

/-- The exact product modulo q (`40_control_scalar.md` R132). -/
def Coeff.mul (a b : Coeff) : Coeff := Coeff.reduce (a.val * b.val)

end Sys2Proof.Machine
end

