-- ==== Sys2Proof/Machine/Ring.lean ====
section
/-! DEFINITION. Ring arithmetic: the values (`41_ring_arithmetic.md` R145 to R152, R156) and the commands. -/

namespace Sys2Proof.Machine

/-! ## Lanes -/

/-- Lane `j` of a ring element; every rule uses 0 ≤ j < 256. -/
def RingElt.lane (f : RingElt) (j : Nat) : Coeff := f[j]?.getD 0

/-- The ring element whose lane `j` is `g j`. -/
def RingElt.ofLanes (g : Nat → Coeff) : RingElt := ⟨⟨(List.range 256).map g⟩, by simp⟩

/-- The zero element. -/
def RingElt.zero : RingElt := Vector.replicate 256 0

/-- Lane-wise `modadd` (R141). -/
def RingElt.add (f g : RingElt) : RingElt := RingElt.ofLanes fun j => Coeff.add (RingElt.lane f j) (RingElt.lane g j)

/-- Lane-wise `modsub` (R142). -/
def RingElt.sub (f g : RingElt) : RingElt := RingElt.ofLanes fun j => Coeff.sub (RingElt.lane f j) (RingElt.lane g j)

/-- Lane-wise `modneg` (R143). -/
def RingElt.neg (f : RingElt) : RingElt := RingElt.ofLanes fun j => Coeff.neg (RingElt.lane f j)

/-! ## The constant tables -/

/-- `BitRev7(i)`: the 7-bit spelling of `i` reversed (`00_scope.md` section 6). -/
def bitRev7 (i : Nat) : Nat :=
  i / 64 % 2 + 2 * (i / 32 % 2) + 4 * (i / 16 % 2) + 8 * (i / 8 % 2) + 16 * (i / 4 % 2) + 32 * (i / 2 % 2) + 64 * (i % 2)

/-- `ZETA[i] = 17^BitRev7(i) mod 3329` (R146). -/
def zeta (i : Nat) : Coeff := Coeff.reduce (17 ^ bitRev7 i)

/-- `GAMMA[i] = 17^(2·BitRev7(i)+1) mod 3329` (R146). -/
def gamma (i : Nat) : Coeff := Coeff.reduce (17 ^ (2 * bitRev7 i + 1))

/-! ## The transform, one layer of 128 disjoint butterflies at a time (R154) -/

/-- `BF_CT(a, b, z)` (R148). -/
def butterflyCT (a b z : Coeff) : Coeff × Coeff :=
  let t := Coeff.mul z b
  (Coeff.add a t, Coeff.sub a t)

/-- `BF_GS(a, b, z)` (R148). -/
def butterflyGS (a b z : Coeff) : Coeff × Coeff := (Coeff.add a b, Coeff.mul z (Coeff.sub b a))

/-- One layer of butterflies of distance `len` (R149, R150): in the block of lanes that starts at `2·len·b`, lanes
`start + off` and `start + off + len`, `off < len`, go through `bf` with the constant `z b`. -/
def butterflyLayer (bf : Coeff → Coeff → Coeff → Coeff × Coeff) (z : Nat → Coeff) (len : Nat) (f : RingElt) : RingElt :=
  RingElt.ofLanes fun j =>
    let b := j / (2 * len)
    if j % (2 * len) < len then (bf (RingElt.lane f j) (RingElt.lane f (j + len)) (z b)).1
    else (bf (RingElt.lane f (j - len)) (RingElt.lane f j) (z b)).2

/-- The layer `len` of `NTT`: block `b` uses `ZETA[128/len + b]`, so the layers 128, 64, .., 2 use `ZETA[1]`,
`ZETA[2..3]`, .., `ZETA[64..127]` (R149). -/
def nttLayer (len : Nat) (f : RingElt) : RingElt := butterflyLayer butterflyCT (fun b => zeta (128 / len + b)) len f

/-- The layer `len` of `INTT`: block `b` uses `ZETA[256/len - 1 - b]`, so the layers 2, 4, .., 128 use `ZETA[127..64]`,
`ZETA[63..32]`, .., `ZETA[1]` (R150). -/
def inttLayer (len : Nat) (f : RingElt) : RingElt := butterflyLayer butterflyGS (fun b => zeta (256 / len - 1 - b)) len f

/-- The forward transform (R149). -/
def nttValue (f : RingElt) : RingElt := [128, 64, 32, 16, 8, 4, 2].foldl (fun g len => nttLayer len g) f

/-- Every lane times 3303 = 128^-1 (R150). -/
def scaleInv128 (f : RingElt) : RingElt := RingElt.ofLanes fun j => Coeff.mul (RingElt.lane f j) 3303

/-- The inverse transform (R150). -/
def inttValue (f : RingElt) : RingElt := scaleInv128 ([2, 4, 8, 16, 32, 64, 128].foldl (fun g len => inttLayer len g) f)

/-! ## NTT-domain multiplication -/

/-- `BaseCaseMultiply` (R151). -/
def baseCaseMultiply (a0 a1 b0 b1 g : Coeff) : Coeff × Coeff :=
  (Coeff.reduce (a0.val * b0.val + a1.val * b1.val * g.val), Coeff.reduce (a0.val * b1.val + a1.val * b0.val))

/-- The product of two NTT-domain elements, 128 pairs (R152). -/
def baseMul (f g : RingElt) : RingElt :=
  RingElt.ofLanes fun j =>
    let i := j / 2
    let h := baseCaseMultiply (RingElt.lane f (2 * i)) (RingElt.lane f (2 * i + 1))
      (RingElt.lane g (2 * i)) (RingElt.lane g (2 * i + 1)) (gamma i)
    if j % 2 = 0 then h.1 else h.2

/-- `Dot(û, v̂)` (R156). -/
def dot (u v : List RingElt) : RingElt := (List.zipWith baseMul u v).foldl RingElt.add RingElt.zero

/-! ## The commands -/

/-- `PADD pd, pa, pb` (R141). -/
def execPadd (rd ra rb : RegNum) (s : State) : Host.Outcome State Fault Refusal :=
  s.checked [] (s.writeP rd (RingElt.add (s.readP ra) (s.readP rb))).complete

/-- `PSUB pd, pa, pb` (R142). -/
def execPsub (rd ra rb : RegNum) (s : State) : Host.Outcome State Fault Refusal :=
  s.checked [] (s.writeP rd (RingElt.sub (s.readP ra) (s.readP rb))).complete

/-- `PNEG pd, pa` (R143). -/
def execPneg (rd ra : RegNum) (s : State) : Host.Outcome State Fault Refusal :=
  s.checked [] (s.writeP rd (RingElt.neg (s.readP ra))).complete

/-- `PMOV pd, pa` (R144). -/
def execPmov (rd ra : RegNum) (s : State) : Host.Outcome State Fault Refusal :=
  s.checked [] (s.writeP rd (s.readP ra)).complete

/-- `NTT pd, pa` (R149). -/
def execNtt (rd ra : RegNum) (s : State) : Host.Outcome State Fault Refusal :=
  s.checked [] (s.writeP rd (nttValue (s.readP ra))).complete

/-- `INTT pd, pa` (R150). -/
def execIntt (rd ra : RegNum) (s : State) : Host.Outcome State Fault Refusal :=
  s.checked [] (s.writeP rd (inttValue (s.readP ra))).complete

/-- `BASEMUL pd, pa, pb` (R152). -/
def execBasemul (rd ra rb : RegNum) (s : State) : Host.Outcome State Fault Refusal :=
  s.checked [] (s.writeP rd (baseMul (s.readP ra) (s.readP rb))).complete

end Sys2Proof.Machine
end

