-- ==== Sys2Proof/Machine/Sampling.lean ====
section
/-! DEFINITION. The samplers and their commands (`42_sampling.md`). -/

namespace Sys2Proof.Machine

/-! ## Bits of byte strings -/

/-- Bit `m` of a byte string, least significant bit of byte 0 first: bit `8·i + j` is `(B[i] >> j) & 1`
(`00_scope.md` section 6, `20_memory.md` R63). -/
def bitOf (B : Bytes) (m : Nat) : Nat := (B.getD (m / 8) 0).toNat / 2 ^ (m % 8) % 2

/-- The number `b[start] + 2·b[start+1] + ..` of `len` bits of a byte string. -/
def bitField (B : Bytes) (start : Nat) : Nat → Nat
  | 0 => 0
  | len + 1 => bitOf B start + 2 * bitField B (start + 1) len

/-- The number of 1 bits among `len` bits of a byte string. -/
def popcount (B : Bytes) (start : Nat) : Nat → Nat
  | 0 => 0
  | len + 1 => bitOf B start + popcount B (start + 1) len

/-! ## Uniform rejection sampling -/

/-- Offer a 12-bit candidate: it becomes the next coefficient if it is below q and a slot is free (R170). -/
def acceptCandidate (a : List Coeff) (d : Nat) : List Coeff :=
  if h : d < 3329 then if a.length < 256 then a ++ [⟨d, h⟩] else a else a

/-- One 3-byte block at `pos`: candidate `d1`, then candidate `d2` (R170). -/
def sampleBlock (S : Nat → Byte) (pos : Nat) (a : List Coeff) : List Coeff :=
  let c0 := (S pos).toNat
  let c1 := (S (pos + 1)).toNat
  let c2 := (S (pos + 2)).toNat
  acceptCandidate (acceptCandidate a (c0 + 256 * (c1 % 16))) (c1 / 16 + 16 * c2)

/-- The loop of `SampleNTT` (R170). It may never end; then its value is `none`, as the least fixed point of its
equation, and no default value is given (R172). -/
def sampleLoop (S : Nat → Byte) (pos : Nat) (a : List Coeff) : Option (List Coeff) :=
  if a.length < 256 then sampleLoop S (pos + 3) (sampleBlock S pos a) else some a
partial_fixpoint

/-- `SampleNTT(S)`, a partial function: `none` iff the stream never yields 256 accepted candidates (R170, R172). -/
def sampleNTT (S : Nat → Byte) : Option RingElt :=
  (sampleLoop S 0 []).map fun a => RingElt.ofLanes fun j => a.getD j 0

/-- The stream of matrix entry `Â[i][j]`: column byte first, then row byte (R171, `44_kpke.md` R211). -/
def matrixStream (rho : Bytes) (i j : Nat) : Nat → Byte := Config.xof (rho ++ [byteOf j, byteOf i])

/-! ## Centred binomial sampling -/

/-- `CBD_η(B)` by the popcount formula (R174, which R176 allows in place of the table). -/
def cbdValue (eta : Nat) (B : Bytes) : RingElt :=
  RingElt.ofLanes fun i =>
    Coeff.reduce (modsub (popcount B (2 * i * eta) eta) (popcount B (2 * i * eta + eta) eta))

/-- One noise polynomial, `CBD_η(PRF_η(seed, byte(N)))` (R178, `44_kpke.md` R220). -/
def noisePoly (eta : Nat) (seed : Bytes) (n : Byte) : RingElt := cbdValue eta (Config.prf eta seed n).toList

/-! ## The commands -/

/-- `SAMPLENTT pd, (xa), j, i` (R171, R172). -/
def execSamplentt (rd ra : RegNum) (j i : Fin 16) (s : State) : Host.Outcome State Fault Refusal :=
  s.checked [addressCheck 0 (s.readX ra) 32]
    (s.completeIfDefined ((sampleNTT (matrixStream (s.load (s.readX ra) 32) i.val j.val)).map (s.writeP rd)))

/-- `CBD pd, (xa), eta` (R175). -/
def execCbd (rd ra : RegNum) (eta : Fin 16) (s : State) : Host.Outcome State Fault Refusal :=
  s.checked [fieldCheck (legalEta eta), addressCheck 0 (s.readX ra) (64 * eta.val)]
    (s.writeP rd (cbdValue eta.val (s.load (s.readX ra) (64 * eta.val)))).complete

/-- `PRFCBD pd, (xa), eta, n` (R178). -/
def execPrfcbd (rd ra : RegNum) (eta : Fin 16) (n : Byte) (s : State) : Host.Outcome State Fault Refusal :=
  s.checked [fieldCheck (legalEta eta), addressCheck 0 (s.readX ra) 32]
    (s.writeP rd (noisePoly eta.val (s.load (s.readX ra) 32) n)).complete

end Sys2Proof.Machine
end

