-- ==== Sys2Proof/Machine/Codec.lean ====
section
/-! DEFINITION. Compression, bit packing, and the codec commands (`43_codec.md`). -/

namespace Sys2Proof.Machine

/-! ## Compression -/

/-- `Compress_d(x)` (R190). -/
def compressNat (d x : Nat) : Nat := (2 ^ (d + 1) * x + 3329) / (2 * 3329) % 2 ^ d

/-- `Decompress_d(y)` (R191). -/
def decompressNat (d y : Nat) : Nat := (3329 * y + 2 ^ (d - 1)) / 2 ^ d

/-- `Compress_d` on each lane (R192); the results are below 2^d ≤ 2048, so `Coeff.reduce` changes none. -/
def compressValue (d : Nat) (f : RingElt) : RingElt :=
  RingElt.ofLanes fun j => Coeff.reduce (compressNat d (RingElt.lane f j).val)

/-- `Decompress_d` on the low d bits of each lane (R193); the results are at most 3328, so `Coeff.reduce` changes none. -/
def decompressValue (d : Nat) (f : RingElt) : RingElt :=
  RingElt.ofLanes fun j => Coeff.reduce (decompressNat d ((RingElt.lane f j).val % 2 ^ d))

/-! ## Bit packing -/

/-- Bit `m` of the bit string of `ByteEncode_d(F)`: `b[i·d + j] = ((F[i] mod 2^d) >> j) & 1` (R194). -/
def encodeBit (d : Nat) (f : RingElt) (m : Nat) : Nat := (RingElt.lane f (m / d)).val % 2 ^ d / 2 ^ (m % d) % 2

/-- Byte `t` of a bit string: bit `u` of the byte is `b[8·t + u]` (`BitsToBytes`, `00_scope.md` section 6). -/
def byteOfBits (b : Nat → Nat) (t : Nat) : Byte :=
  byteOf (b (8 * t) + 2 * b (8 * t + 1) + 4 * b (8 * t + 2) + 8 * b (8 * t + 3) + 16 * b (8 * t + 4)
    + 32 * b (8 * t + 5) + 64 * b (8 * t + 6) + 128 * b (8 * t + 7))

/-- `ByteEncode_d(F)`, 32·d bytes (R194). -/
def byteEncode (d : Nat) (f : RingElt) : Bytes := (List.range (32 * d)).map (byteOfBits (encodeBit d f))

/-- `ByteDecode_d(B)` (R195): a 12-bit field is reduced modulo q, a shorter field is below 2^11 as it stands. -/
def byteDecode (d : Nat) (B : Bytes) : RingElt := RingElt.ofLanes fun i => Coeff.reduce (bitField B (i * d) d)

/-! ## The commands -/

/-- `COMPRESS pd, pa, d` (R192). -/
def execCompress (rd ra : RegNum) (d : Fin 16) (s : State) : Host.Outcome State Fault Refusal :=
  s.checked [fieldCheck (legalWidth 11 d)] (s.writeP rd (compressValue d.val (s.readP ra))).complete

/-- `DECOMPRESS pd, pa, d` (R193). -/
def execDecompress (rd ra : RegNum) (d : Fin 16) (s : State) : Host.Outcome State Fault Refusal :=
  s.checked [fieldCheck (legalWidth 11 d)] (s.writeP rd (decompressValue d.val (s.readP ra))).complete

/-- `ENCODE (xd), pa, d`, the block's store (R197). -/
def execEncode (rd ra : RegNum) (d : Fin 16) (s : State) : Host.Outcome State Fault Refusal :=
  s.checked [fieldCheck (legalWidth 12 d), addressCheck 0 (s.readX rd) (32 * d.val)]
    (s.store (s.readX rd) (byteEncode d.val (s.readP ra))).complete

/-- `DECODE pd, (xa), xb, d`, the block's load (R198). -/
def execDecode (rd ra rb : RegNum) (d : Fin 16) (s : State) : Host.Outcome State Fault Refusal :=
  s.checked [fieldCheck (legalWidth 12 d), lengthCheck 0 (s.readX rb) (32 * d.val), addressCheck 0 (s.readX ra) (32 * d.val)]
    (s.writeP rd (byteDecode d.val (s.load (s.readX ra) (32 * d.val)))).complete

end Sys2Proof.Machine
end

