-- ==== Sys2Proof/Machine/Kpke.lean ====
section
/-! DEFINITION. K-PKE: the functions on byte strings and the commands (`44_kpke.md`). A function that samples the matrix
is partial, as `42_sampling.md` R172 says: `none` where a `SampleNTT` of it is undefined. -/

namespace Sys2Proof.Machine

/-- `B[a ..< b]` (`00_scope.md` section 6). -/
def slice (B : Bytes) (a b : Nat) : Bytes := (B.drop a).take (b - a)

/-- `EncodeVec_d(v)`: element 0 first (R210). -/
def encodeVec (d : Nat) (v : List RingElt) : Bytes := v.flatMap (byteEncode d)

/-- `DecodeVec_d(B)` of `k` elements (R210). -/
def decodeVec (d k : Nat) (B : Bytes) : List RingElt :=
  (List.range k).map fun i => byteDecode d (slice B (32 * d * i) (32 * d * (i + 1)))

/-- The matrix `Â[i][j] = SampleNTT(XOF(ρ ‖ byte(j) ‖ byte(i)))` as its rows (R211); `none` if an entry is undefined. -/
def matrix (k : Nat) (rho : Bytes) : Option (List (List RingElt)) :=
  (List.range k).mapM fun i => (List.range k).mapM fun j => sampleNTT (matrixStream rho i j)

/-- `MatVec(Â, v̂)` (R211). -/
def matVec (A : List (List RingElt)) (v : List RingElt) : List RingElt := A.map fun row => dot row v

/-- `MatTVec(Â, v̂)`, the transpose (R211). -/
def matTVec (k : Nat) (A : List (List RingElt)) (v : List RingElt) : List RingElt :=
  (List.range k).map fun i => dot (A.map fun row => row.getD i RingElt.zero) v

/-- `k` noise polynomials with the counters `n0`, `n0 + 1`, .. (R220). -/
def noiseVec (eta : Nat) (seed : Bytes) (n0 k : Nat) : List RingElt :=
  (List.range k).map fun i => noisePoly eta seed (byteOf (n0 + i))

/-- `KPKE.KeyGen(d)`: (`ekPKE`, `dkPKE`) (R213). -/
def kpkeKeyGen (ps : ParamRow) (d : Bytes) : Option (Bytes × Bytes) :=
  let k := ps.k
  let g := (Config.hashG (d ++ [byteOf k])).toList
  let rho := slice g 0 32
  let sigma := slice g 32 64
  (matrix k rho).map fun A =>
    let s := (noiseVec ps.eta1 sigma 0 k).map nttValue
    let e := (noiseVec ps.eta1 sigma k k).map nttValue
    let t := List.zipWith RingElt.add (matVec A s) e
    (encodeVec 12 t ++ rho, encodeVec 12 s)

/-- `KPKE.Encrypt(ek, m, r)` (R215). -/
def kpkeEncrypt (ps : ParamRow) (ek m r : Bytes) : Option Bytes :=
  let k := ps.k
  let t := decodeVec 12 k (slice ek 0 (384 * k))
  let rho := slice ek (384 * k) (384 * k + 32)
  (matrix k rho).map fun A =>
    let y := (noiseVec ps.eta1 r 0 k).map nttValue
    let e1 := noiseVec ps.eta2 r k k
    let e2 := noisePoly ps.eta2 r (byteOf (2 * k))
    let u := List.zipWith RingElt.add ((matTVec k A y).map inttValue) e1
    let mu := decompressValue 1 (byteDecode 1 m)
    let v := RingElt.add (RingElt.add (inttValue (dot t y)) e2) mu
    encodeVec ps.du (u.map (compressValue ps.du)) ++ byteEncode ps.dv (compressValue ps.dv v)

/-- `KPKE.Decrypt(dkPKE, c)`, total (R217). -/
def kpkeDecrypt (ps : ParamRow) (dk c : Bytes) : Bytes :=
  let k := ps.k
  let u := (decodeVec ps.du k (slice c 0 (32 * ps.du * k))).map (decompressValue ps.du)
  let v := decompressValue ps.dv (byteDecode ps.dv (slice c (32 * ps.du * k) (32 * (ps.du * k + ps.dv))))
  let s := decodeVec 12 k (slice dk 0 (384 * k))
  let w := RingElt.sub v (inttValue (dot s (u.map nttValue)))
  byteEncode 1 (compressValue 1 w)

/-! ## The commands -/

/-- `KPKE_KEYGEN` (R214). -/
def execKpkeKeygen (s : State) : Host.Outcome State Fault Refusal :=
  let ps := s.params
  s.checked
    [lengthCheck 0 (s.inLen 0) 32, addressCheck 0 (s.inAddr 0) 32, addressCheck 1 (s.outAddr 0) ps.ekBytes,
      addressCheck 2 (s.outAddr 1) ps.dkPkeBytes]
    (s.completeIfDefined ((kpkeKeyGen ps (s.load (s.inAddr 0) 32)).map fun keys =>
      (s.store (s.outAddr 0) keys.1).store (s.outAddr 1) keys.2))

/-- `KPKE_ENC` (R216). -/
def execKpkeEnc (s : State) : Host.Outcome State Fault Refusal :=
  let ps := s.params
  s.checked
    [lengthCheck 0 (s.inLen 0) ps.ekBytes, lengthCheck 1 (s.inLen 1) 32, lengthCheck 2 (s.inLen 2) 32,
      addressCheck 0 (s.inAddr 0) ps.ekBytes, addressCheck 1 (s.inAddr 1) 32, addressCheck 2 (s.inAddr 2) 32,
      addressCheck 3 (s.outAddr 0) ps.ctBytes]
    (s.completeIfDefined
      ((kpkeEncrypt ps (s.load (s.inAddr 0) ps.ekBytes) (s.load (s.inAddr 1) 32) (s.load (s.inAddr 2) 32)).map
        (s.store (s.outAddr 0))))

/-- `KPKE_DEC` (R218). -/
def execKpkeDec (s : State) : Host.Outcome State Fault Refusal :=
  let ps := s.params
  s.checked
    [lengthCheck 0 (s.inLen 0) ps.dkPkeBytes, lengthCheck 1 (s.inLen 1) ps.ctBytes,
      addressCheck 0 (s.inAddr 0) ps.dkPkeBytes, addressCheck 1 (s.inAddr 1) ps.ctBytes, addressCheck 2 (s.outAddr 0) 32]
    (s.store (s.outAddr 0)
      (kpkeDecrypt ps (s.load (s.inAddr 0) ps.dkPkeBytes) (s.load (s.inAddr 1) ps.ctBytes))).complete

end Sys2Proof.Machine
end

