-- ==== Sys2Proof/Machine/Mlkem.lean ====
section
/-! DEFINITION. ML-KEM: the functions on byte strings and the commands (`45_mlkem.md`). -/

namespace Sys2Proof.Machine

/-- The decapsulation key `dkPKE ‖ ek ‖ H(ek) ‖ z` (R232, R233). -/
def dkOf (dkPke ek z : Bytes) : Bytes := dkPke ++ ek ++ (Config.hashH ek).toList ++ z

/-- `MLKEM.Encaps(ek, m)`: (K, c) (R234). -/
def mlkemEncapsValue (ps : ParamRow) (ek m : Bytes) : Option (Bytes × Bytes) :=
  let g := (Config.hashG (m ++ (Config.hashH ek).toList)).toList
  (kpkeEncrypt ps ek m (slice g 32 64)).map fun c => (slice g 0 32, c)

/-- The position of the first 12-bit field of `ek[0 ..< 384·k]` that is 3329 or more (R236). -/
def firstNonCanonical (k : Nat) (ek : Bytes) : Option Nat :=
  (List.range (256 * k)).find? fun n => decide (3329 ≤ bitField ek (12 * n) 12)

/-- The modulus check of `ek`, made only where `CFG_EK_MODCHECK` is true (R236). -/
def modulusCheck (enabled : Bool) (k : Nat) (ek : Bytes) : Option CmdError :=
  if enabled then (firstNonCanonical k ek).map fun n => .formatContent (BitVec.ofNat 16 n) else none

/-- `diff` of R238: the OR over every byte of `c[i] xor c'[i]`. -/
def diffBytes (c c' : Bytes) : Byte := (List.zipWith (fun a b => a ^^^ b) c c').foldl (fun acc x => acc ||| x) 0

/-- `mask` of R238: 0x00 if `diff` = 0, else 0xFF, without a branch. -/
def maskOf (diff : Byte) : Byte := byteOf (255 * (1 - (256 - diff.toNat) / 2 ^ 8))

/-- `Select(c, c', K', Kbar)` (R238). -/
def select (c c' K' Kbar : Bytes) : Bytes :=
  let mask := maskOf (diffBytes c c')
  List.zipWith (fun a b => (a &&& ~~~mask) ||| (b &&& mask)) K' Kbar

/-- `MLKEM.Decaps(dk, c)` (R239); `J(z ‖ c)` is computed on every call. -/
def mlkemDecapsValue (ps : ParamRow) (dk c : Bytes) : Option Bytes :=
  let k := ps.k
  let dkPke := slice dk 0 (384 * k)
  let ek := slice dk (384 * k) (768 * k + 32)
  let h := slice dk (768 * k + 32) (768 * k + 64)
  let z := slice dk (768 * k + 64) (768 * k + 96)
  let m' := kpkeDecrypt ps dkPke c
  let g := (Config.hashG (m' ++ h)).toList
  let Kbar := (Config.hashJ (z ++ c)).toList
  (kpkeEncrypt ps ek m' (slice g 32 64)).map fun c' => select c c' (slice g 0 32) Kbar

/-! ## The commands -/

/-- `MLKEM_KEYGEN` after its checks: request 0 for d, request 1 for z, the keys, the two outputs (R233). -/
def keygenAfterChecks (s : State) : State :=
  match s.rngRequest with
  | (.fail, s1) => s1.raiseError (.randomness 0)
  | (.ok d, s1) =>
    match s1.rngRequest with
    | (.fail, s2) => s2.raiseError (.randomness 1)
    | (.ok z, s2) =>
      s.completeIfDefined ((kpkeKeyGen s.params d.toList).map fun keys =>
        (s2.store (s.outAddr 0) keys.1).store (s.outAddr 1) (dkOf keys.2 keys.1 z.toList))

/-- `MLKEM_KEYGEN` (R233). -/
def execMlkemKeygen (s : State) : Host.Outcome State Fault Refusal :=
  s.checked [addressCheck 0 (s.outAddr 0) s.params.ekBytes, addressCheck 1 (s.outAddr 1) s.params.dkBytes]
    (keygenAfterChecks s)

/-- `MLKEM_ENCAPS` after its checks: request 0 for m, then K to output 0 and c to output 1 (R235). -/
def encapsAfterChecks (s : State) : State :=
  match s.rngRequest with
  | (.fail, s1) => s1.raiseError (.randomness 0)
  | (.ok m, s1) =>
    s.completeIfDefined ((mlkemEncapsValue s.params (s.load (s.inAddr 0) s.params.ekBytes) m.toList).map fun kc =>
      (s1.store (s.outAddr 0) kc.1).store (s.outAddr 1) kc.2)

/-- `MLKEM_ENCAPS` of a block whose `CFG_EK_MODCHECK` is `modCheck`: the modulus check comes after the address checks and
before the random request (R235, R236, `60_exceptions.md` R260). -/
def encapsWith (modCheck : Bool) (s : State) : Host.Outcome State Fault Refusal :=
  s.checked
    [lengthCheck 0 (s.inLen 0) s.params.ekBytes, addressCheck 0 (s.inAddr 0) s.params.ekBytes,
      addressCheck 1 (s.outAddr 0) 32, addressCheck 2 (s.outAddr 1) s.params.ctBytes,
      modulusCheck modCheck s.params.k (s.load (s.inAddr 0) s.params.ekBytes)]
    (encapsAfterChecks s)

/-- `MLKEM_ENCAPS` (R235, R236), with the spec's open parameter (log entry 5). -/
def execMlkemEncaps (s : State) : Host.Outcome State Fault Refusal := encapsWith Config.ekModCheck s

/-- `MLKEM_DECAPS` (R237). -/
def execMlkemDecaps (s : State) : Host.Outcome State Fault Refusal :=
  let ps := s.params
  s.checked
    [lengthCheck 0 (s.inLen 0) ps.dkBytes, lengthCheck 1 (s.inLen 1) ps.ctBytes,
      addressCheck 0 (s.inAddr 0) ps.dkBytes, addressCheck 1 (s.inAddr 1) ps.ctBytes, addressCheck 2 (s.outAddr 0) 32]
    (s.completeIfDefined
      ((mlkemDecapsValue ps (s.load (s.inAddr 0) ps.dkBytes) (s.load (s.inAddr 1) ps.ctBytes)).map
        (s.store (s.outAddr 0))))

end Sys2Proof.Machine
end

