-- ==== Sys2Proof/Machine/Scalar.lean ====
section
/-! DEFINITION. The scalar arithmetic commands (`40_control_scalar.md` section 3). -/

namespace Sys2Proof.Machine

/-- A three-register scalar command: range check of `X[ra]`, then of `X[rb]` (R131), then the 12-bit result of `f`
zero-extended into `X[rd]`. -/
def scalarBinary (f : Nat → Nat → Nat) (rd ra rb : RegNum) (s : State) : Host.Outcome State Fault Refusal :=
  s.checked [rangeCheck 0 (s.readX ra), rangeCheck 1 (s.readX rb)]
    (s.writeX rd (BitVec.ofNat 16 (f (s.readX ra).toNat (s.readX rb).toNat))).complete

/-- `MONTMUL xd, xa, xb` (R126). -/
def execMontmul (rd ra rb : RegNum) (s : State) : Host.Outcome State Fault Refusal := scalarBinary montmul rd ra rb s

/-- `MODADD xd, xa, xb` (R128). -/
def execModadd (rd ra rb : RegNum) (s : State) : Host.Outcome State Fault Refusal := scalarBinary modadd rd ra rb s

/-- `MODSUB xd, xa, xb` (R129). -/
def execModsub (rd ra rb : RegNum) (s : State) : Host.Outcome State Fault Refusal := scalarBinary modsub rd ra rb s

/-- `MODNEG xd, xa` (R130). -/
def execModneg (rd ra : RegNum) (s : State) : Host.Outcome State Fault Refusal :=
  s.checked [rangeCheck 0 (s.readX ra)]
    (s.writeX rd (BitVec.ofNat 16 (modneg (s.readX ra).toNat))).complete

end Sys2Proof.Machine
end

