-- ==== Sys2Proof/Machine/Dispatch.lean ====
section
/-! DEFINITION. One arm per command: the meaning it calls. -/

namespace Sys2Proof.Machine

def exec (i : Instr) (s : State) : Host.Outcome State Fault Refusal :=
  match i with
  | .nop => Sys2Proof.Machine.execNop s
  | .zeroize => Sys2Proof.Machine.execZeroize s
  | .li rd imm16 => Sys2Proof.Machine.execLi rd imm16 s
  | .montmul rd ra rb => Sys2Proof.Machine.execMontmul rd ra rb s
  | .modadd rd ra rb => Sys2Proof.Machine.execModadd rd ra rb s
  | .modsub rd ra rb => Sys2Proof.Machine.execModsub rd ra rb s
  | .modneg rd ra => Sys2Proof.Machine.execModneg rd ra s
  | .padd rd ra rb => Sys2Proof.Machine.execPadd rd ra rb s
  | .psub rd ra rb => Sys2Proof.Machine.execPsub rd ra rb s
  | .pneg rd ra => Sys2Proof.Machine.execPneg rd ra s
  | .pmov rd ra => Sys2Proof.Machine.execPmov rd ra s
  | .ntt rd ra => Sys2Proof.Machine.execNtt rd ra s
  | .intt rd ra => Sys2Proof.Machine.execIntt rd ra s
  | .basemul rd ra rb => Sys2Proof.Machine.execBasemul rd ra rb s
  | .samplentt rd ra col row => Sys2Proof.Machine.execSamplentt rd ra col row s
  | .cbd rd ra eta => Sys2Proof.Machine.execCbd rd ra eta s
  | .prfcbd rd ra eta n => Sys2Proof.Machine.execPrfcbd rd ra eta n s
  | .compress rd ra d => Sys2Proof.Machine.execCompress rd ra d s
  | .decompress rd ra d => Sys2Proof.Machine.execDecompress rd ra d s
  | .encode rd ra d => Sys2Proof.Machine.execEncode rd ra d s
  | .decode rd ra rb d => Sys2Proof.Machine.execDecode rd ra rb d s
  | .kpkeKeygen => Sys2Proof.Machine.execKpkeKeygen s
  | .kpkeEnc => Sys2Proof.Machine.execKpkeEnc s
  | .kpkeDec => Sys2Proof.Machine.execKpkeDec s
  | .mlkemKeygen => Sys2Proof.Machine.execMlkemKeygen s
  | .mlkemEncaps => Sys2Proof.Machine.execMlkemEncaps s
  | .mlkemDecaps => Sys2Proof.Machine.execMlkemDecaps s

end Sys2Proof.Machine
end

