-- ==== Sys2Proof/Machine/Flags.lean ====
section
/-! DEFINITION. The status bits and the words and the output line made of them. There are no arithmetic flags
(`10_state.md` R26): the only status bits are the four fields of `STATUS`. -/

namespace Sys2Proof.Machine

/-- `STATUS` as the host reads it: `BUSY` bit 0, `DONE` bit 1, `BUSERR` bit 2, `ERR` bits 15:8, the rest 0 (`10_state.md` R29). -/
def State.statusWord (s : State) : Word :=
  0#16 ++ s.err ++ 0#5 ++ BitVec.ofBool s.busErr ++ BitVec.ofBool s.done ++ BitVec.ofBool s.busy

/-- `CTRL` as the host reads it: `IE_DONE` bit 0, `IE_ERR` bit 1, `CLRERR` and the rest 0 (`10_state.md` R28). -/
def State.ctrlWord (s : State) : Word := 0#30 ++ BitVec.ofBool s.ieErr ++ BitVec.ofBool s.ieDone

/-- The code of a parameter set (`00_scope.md` R12). -/
def psetCode : ParamSet → BitVec 2
  | .mlkem512 => 0
  | .mlkem768 => 1
  | .mlkem1024 => 2

/-- `PSET` as the host reads it: bits 31:2 are 0 (`10_state.md` R31). -/
def State.psetWord (s : State) : Word := 0#30 ++ psetCode s.pset

/-- What a write of `w` leaves in `PSET`: bits 1:0 = 3 store nothing (`10_state.md` R31). -/
def psetAfterWrite (old : ParamSet) (w : Word) : ParamSet :=
  match (w.extractLsb' 0 2).toNat with
  | 0 => .mlkem512
  | 1 => .mlkem768
  | 2 => .mlkem1024
  | _ => old

/-- The interrupt output, a level that is a function of the state (`60_exceptions.md` R266). -/
def State.irq (s : State) : Bool := (s.ieDone && s.done) || (s.ieErr && s.err != 0)

/-- A write to `CTRL`: the two enables from bits 0 and 1, then `CLRERR` if bit 8 is 1 (`10_state.md` R28). -/
def State.writeCtrl (s : State) (w : Word) : State :=
  let t := { s with ieDone := w.getLsbD 0, ieErr := w.getLsbD 1 }
  if w.getLsbD 8 then t.clearError else t

/-- A write to `STATUS`: bit 1 clears `DONE`, bit 2 clears `BUSERR` (`10_state.md` R29). -/
def State.writeStatus (s : State) (w : Word) : State :=
  { s with done := s.done && !w.getLsbD 1, busErr := s.busErr && !w.getLsbD 2 }

end Sys2Proof.Machine
end

