-- ==== Sys2Proof/Machine/HostPort.lean ====
section
/-! DEFINITION. The host's two operations on the register space (`20_memory.md` R60 to R69). -/

namespace Sys2Proof.Machine

/-- `ID` (`10_state.md` R27). -/
def idWord : Word := 0x4D4C4B31

/-- What an address names, by the map of `20_memory.md` R64; `none` for a misaligned address (R65) and a reserved one (R64). -/
def regAddr (addr : BitVec 14) : Option RegAddr :=
  let a := addr.toNat
  if a % 4 ≠ 0 then none
  else if a = 0x0000 then some .id
  else if a = 0x0004 then some .ctrl
  else if a = 0x0008 then some .status
  else if a = 0x000C then some .cmd
  else if a = 0x0010 then some .pset
  else if a = 0x0014 then some .ecmd
  else if a = 0x0018 then some .einfo
  else if a = 0x001C then some .cmdcnt
  else if h : 0x0040 ≤ a ∧ a < 0x0080 then some (.xreg ⟨(a - 0x0040) / 4, by omega⟩)
  else if 0x2000 ≤ a then some (.window (a - 0x2000))
  else none

/-- The window word at `BMEM` offset `o`, little-endian (`20_memory.md` R63). -/
def State.windowWord (s : State) (o : Nat) : Word :=
  s.bmem.read (o + 3) ++ s.bmem.read (o + 2) ++ s.bmem.read (o + 1) ++ s.bmem.read o

/-- The four bytes a window write of `w` stores, lowest address first (`20_memory.md` R63). -/
def bytesOfWord (w : Word) : Bytes :=
  [w.extractLsb' 0 8, w.extractLsb' 8 8, w.extractLsb' 16 8, w.extractLsb' 24 8]

/-- The data of a served read (`10_state.md` R21, R25, R27 to R33; `20_memory.md` R63). -/
def State.readData (s : State) : RegAddr → Word
  | .id => idWord
  | .ctrl => s.ctrlWord
  | .status => s.statusWord
  | .cmd => s.cmdreg
  | .pset => s.psetWord
  | .ecmd => s.ecmd
  | .einfo => s.einfo
  | .cmdcnt => s.cmdcnt
  | .xreg i => (s.readX i).setWidth 32
  | .window o => s.windowWord o

/-- May the host read this while a command is pending: `ID` and `STATUS` only (`20_memory.md` R68). -/
def readableWhileBusy : RegAddr → Bool
  | .id => true
  | .status => true
  | .ctrl => false
  | .cmd => false
  | .pset => false
  | .ecmd => false
  | .einfo => false
  | .cmdcnt => false
  | .xreg _ => false
  | .window _ => false

/-- A rejected read: `BUSERR` is set, nothing else; the bus returns (0, false) (`20_memory.md` R67). -/
def State.rejectRead (s : State) : State := { s with busErr := true, busReply := some (.read 0 false) }

/-- A rejected write: `BUSERR` is set, nothing else; the bus returns false (`20_memory.md` R67). -/
def State.rejectWrite (s : State) : State := { s with busErr := true, busReply := some (.write false) }

/-- `HostRead(addr)` (`20_memory.md` R60, R67, R68): a served read changes no state. -/
def State.hostRead (s : State) (addr : BitVec 14) : State :=
  match regAddr addr with
  | none => s.rejectRead
  | some r =>
    if s.busy && !readableWhileBusy r then s.rejectRead
    else { s with busReply := some (.read (s.readData r) true) }

/-- A served write of `w`, or `none` where the write is rejected although the block is idle: a read-only register, or
`CMD` while `ERR` ≠ 0 (`20_memory.md` R67 (c), (e), R69). -/
def State.writeReg (s : State) (w : Word) : RegAddr → Option State
  | .id => none
  | .ctrl => some (s.writeCtrl w)
  | .status => some (s.writeStatus w)
  | .cmd => if s.err = 0 then some (s.acceptCommand w) else none
  | .pset => some { s with pset := psetAfterWrite s.pset w }
  | .ecmd => none
  | .einfo => none
  | .cmdcnt => none
  | .xreg i => some (s.writeX i (w.extractLsb' 0 16))
  | .window o => some { s with bmem := s.bmem.writeBytes o (bytesOfWord w) }

/-- `HostWrite(addr, w)` (`20_memory.md` R60, R67, R68): every write is rejected while a command is pending. -/
def State.hostWrite (s : State) (addr : BitVec 14) (w : Word) : State :=
  match (if s.busy then none else (regAddr addr).bind (s.writeReg w)) with
  | none => s.rejectWrite
  | some t => { t with busReply := some (.write true) }

end Sys2Proof.Machine
end

