-- ==== Sys2Proof/Machine/Engine.lean ====
section
/-! DEFINITION. The turns of the agents: the engine's `Complete`, the host's accesses, reset (`00_scope.md` R5). -/

namespace Sys2Proof.Machine

/-- The engine's turn: if a command is pending it is decoded and run, an illegal word ends with `ILLEGAL_CMD`; if none is
pending the engine has no step and the block stays as it is (`60_exceptions.md` R250, R256, R276). -/
def engineTurn (s : State) : Host.Outcome State Fault Refusal :=
  if s.busy then
    match s.fetch with
    | .ok i => exec i s
    | .error _ => .next (s.raiseError .illegalCmd)
  else .next s

/-- One atomic transition of the agent whose turn it is (`20_memory.md` R74). -/
def takeTurn (s : State) : Turn → Host.Outcome State Fault Refusal
  | .hostRead addr => .next (s.hostRead addr)
  | .hostWrite addr w => .next (s.hostWrite addr w)
  | .engine => engineTurn s
  | .reset => .next s.resetBlock

/-- The turn the step takes and the state without it: the first of the schedule; when the schedule is empty the engine has
the turn (log entries 1, 2). -/
def nextTurn (s : State) : Turn × State :=
  match s.schedule with
  | [] => (.engine, s)
  | t :: rest => (t, { s with schedule := rest })

end Sys2Proof.Machine
end

