-- ==== Sys2Proof/Machine/Step.lean ====
section
/-! DEFINITION. One step of the machine: one atomic transition of one agent (`00_scope.md` R5, `20_memory.md` R74). -/

namespace Sys2Proof.Machine

/-- One step: the next turn is taken (log entries 1, 2). -/
def step (s : State) : Host.Outcome State Fault Refusal := takeTurn (nextTurn s).2 (nextTurn s).1

/-- `s` with the row's word accepted as the pending command (`10_state.md` R30) and the engine to move next, so that the
next step completes exactly it (log entry 12). -/
def State.withFetchWord (s : State) (nbits w : Nat) : State :=
  { s.acceptCommand (tableWord nbits w) with schedule := .engine :: s.schedule }

end Sys2Proof.Machine
end

