-- ==== Sys2Proof/Safety.lean ====
section
/-! DEFINITION. What a legal state of the block is: the relations between the fields of the state that the spec's rules
promise, in the terms the claims use. -/

namespace Sys2Proof.Machine

/-- The relations the rules promise of every reachable state. -/
structure State.Inv (s : State) : Prop where
  /-- the byte memory has its one canonical form -/
  bmem_wf : s.bmem.wf = true
  /-- a command is pending only while no error is outstanding (`10_state.md` R30, `60_exceptions.md` R265) -/
  busy_no_error : s.busy = true → s.err = 0
  /-- `DONE` is clear while a command is pending (`10_state.md` R29, R30) -/
  busy_not_done : s.busy = true → s.done = false
  /-- codes 6 to 255 are never produced (`60_exceptions.md` R253) -/
  err_code : s.err ≤ 5
  /-- `ECMD` is 0 when `ERR` = 0 (`10_state.md` R32) -/
  ecmd_zero : s.err = 0 → s.ecmd = 0
  /-- `EINFO` is 0 when `ERR` = 0 (`10_state.md` R33) -/
  einfo_zero : s.err = 0 → s.einfo = 0
  /-- `EINFO` bits 30:20 read 0 (`10_state.md` R33) -/
  einfo_reserved : s.einfo.extractLsb' 20 11 = 0
  /-- `CONTENT` is 1 only for `FORMAT_ERROR` (`60_exceptions.md` R254) -/
  einfo_content : s.einfo.getLsbD 31 = true → s.err = 2

/-- The data a command works on: the scalar and polynomial registers and the byte memory are the same in both states. -/
def State.sameData (s t : State) : Prop := t.x = s.x ∧ t.p = s.p ∧ t.bmem = s.bmem

/-- The control registers no command writes are the same in both states (`60_exceptions.md` R251, R262). -/
def State.sameControl (s t : State) : Prop :=
  t.ieDone = s.ieDone ∧ t.ieErr = s.ieErr ∧ t.busErr = s.busErr ∧ t.cmdreg = s.cmdreg ∧ t.pset = s.pset ∧
    t.schedule = s.schedule ∧ t.busReply = s.busReply

/-! ## The tables the claims quote -/

/-- Error completion in the claims' own terms (`60_exceptions.md` R262 with the layout of `EINFO`, `10_state.md` R33). -/
def State.failedWith (s : State) (code : BitVec 8) (content idx : Nat) (val : Half) : State :=
  { s with
    err := code, ecmd := s.cmdreg, einfo := BitVec.ofNat 32 (content * 2 ^ 31 + idx * 2 ^ 16 + val.toNat),
    busy := false, done := true }

/-- The length registers a command compares, in operand order: the value held and the length required
(`60_exceptions.md` R257). -/
def lengthOperands (i : Instr) (s : State) : List (Half × Nat) :=
  let k := (paramRow s.pset).k
  let ct := 32 * ((paramRow s.pset).du * k + (paramRow s.pset).dv)
  match i with
  | .decode _ _ rb d => [(s.x[rb], 32 * d.val)]
  | .kpkeKeygen => [(s.x[5], 32)]
  | .kpkeEnc => [(s.x[5], 384 * k + 32), (s.x[7], 32), (s.x[9], 32)]
  | .kpkeDec => [(s.x[5], 384 * k), (s.x[7], ct)]
  | .mlkemEncaps => [(s.x[5], 384 * k + 32)]
  | .mlkemDecaps => [(s.x[5], 768 * k + 96), (s.x[7], ct)]
  | .nop | .zeroize | .li _ _ | .montmul _ _ _ | .modadd _ _ _ | .modsub _ _ _ | .modneg _ _ | .padd _ _ _
  | .psub _ _ _ | .pneg _ _ | .pmov _ _ | .ntt _ _ | .intt _ _ | .basemul _ _ _ | .samplentt _ _ _ _
  | .cbd _ _ _ | .prfcbd _ _ _ _ | .compress _ _ _ | .decompress _ _ _ | .encode _ _ _ | .mlkemKeygen => []

/-- The memory operands a command reads, in operand order: address and length (the command rules; `60_exceptions.md` R254). -/
def inputOperands (i : Instr) (s : State) : List (Half × Nat) :=
  let k := (paramRow s.pset).k
  let ct := 32 * ((paramRow s.pset).du * k + (paramRow s.pset).dv)
  match i with
  | .samplentt _ ra _ _ => [(s.x[ra], 32)]
  | .cbd _ ra eta => [(s.x[ra], 64 * eta.val)]
  | .prfcbd _ ra _ _ => [(s.x[ra], 32)]
  | .decode _ ra _ d => [(s.x[ra], 32 * d.val)]
  | .kpkeKeygen => [(s.x[4], 32)]
  | .kpkeEnc => [(s.x[4], 384 * k + 32), (s.x[6], 32), (s.x[8], 32)]
  | .kpkeDec => [(s.x[4], 384 * k), (s.x[6], ct)]
  | .mlkemEncaps => [(s.x[4], 384 * k + 32)]
  | .mlkemDecaps => [(s.x[4], 768 * k + 96), (s.x[6], ct)]
  | .nop | .zeroize | .li _ _ | .montmul _ _ _ | .modadd _ _ _ | .modsub _ _ _ | .modneg _ _ | .padd _ _ _
  | .psub _ _ _ | .pneg _ _ | .pmov _ _ | .ntt _ _ | .intt _ _ | .basemul _ _ _ | .compress _ _ _
  | .decompress _ _ _ | .encode _ _ _ | .mlkemKeygen => []

/-- The memory operands a command writes, in operand order: address and length (the command rules; `60_exceptions.md` R254). -/
def outputOperands (i : Instr) (s : State) : List (Half × Nat) :=
  let k := (paramRow s.pset).k
  let ct := 32 * ((paramRow s.pset).du * k + (paramRow s.pset).dv)
  match i with
  | .encode rd _ d => [(s.x[rd], 32 * d.val)]
  | .kpkeKeygen => [(s.x[1], 384 * k + 32), (s.x[2], 384 * k)]
  | .kpkeEnc => [(s.x[1], ct)]
  | .kpkeDec => [(s.x[1], 32)]
  | .mlkemKeygen => [(s.x[1], 384 * k + 32), (s.x[2], 768 * k + 96)]
  | .mlkemEncaps => [(s.x[1], 32), (s.x[2], ct)]
  | .mlkemDecaps => [(s.x[1], 32)]
  | .nop | .zeroize | .li _ _ | .montmul _ _ _ | .modadd _ _ _ | .modsub _ _ _ | .modneg _ _ | .padd _ _ _
  | .psub _ _ _ | .pneg _ _ | .pmov _ _ | .ntt _ _ | .intt _ _ | .basemul _ _ _ | .samplentt _ _ _ _
  | .cbd _ _ _ | .prfcbd _ _ _ _ | .compress _ _ _ | .decompress _ _ _ | .decode _ _ _ _ => []

/-- Every length register the command compares holds the length required. -/
abbrev LengthsMatch (i : Instr) (s : State) : Prop := ∀ o ∈ lengthOperands i s, o.1.toNat = o.2

/-- Every memory operand of the command lies inside `BMEM`. -/
abbrev OperandsFit (i : Instr) (s : State) : Prop := ∀ o ∈ inputOperands i s ++ outputOperands i s, o.1.toNat + o.2 ≤ 8192

/-- The error codes of the command's row in `60_exceptions.md` R255, `ILLEGAL_CMD` apart. -/
def mayRaise : Instr → List (BitVec 8)
  | .montmul _ _ _ | .modadd _ _ _ | .modsub _ _ _ | .modneg _ _ => [5]
  | .samplentt _ _ _ _ | .cbd _ _ _ | .prfcbd _ _ _ _ | .encode _ _ _ => [4]
  | .decode _ _ _ _ | .kpkeKeygen | .kpkeEnc | .kpkeDec | .mlkemDecaps => [2, 4]
  | .mlkemKeygen => [4, 3]
  | .mlkemEncaps => [2, 4, 3]
  | .nop | .zeroize | .li _ _ | .padd _ _ _ | .psub _ _ _ | .pneg _ _ | .pmov _ _ | .ntt _ _ | .intt _ _
  | .basemul _ _ _ | .compress _ _ _ | .decompress _ _ _ => []

/-- The column "hang" of `60_exceptions.md` R255. -/
def mayHang : Instr → Bool
  | .samplentt _ _ _ _ | .kpkeKeygen | .kpkeEnc | .mlkemKeygen | .mlkemEncaps | .mlkemDecaps => true
  | .nop | .zeroize | .li _ _ | .montmul _ _ _ | .modadd _ _ _ | .modsub _ _ _ | .modneg _ _ | .padd _ _ _
  | .psub _ _ _ | .pneg _ _ | .pmov _ _ | .ntt _ _ | .intt _ _ | .basemul _ _ _ | .cbd _ _ _ | .prfcbd _ _ _ _
  | .compress _ _ _ | .decompress _ _ _ | .encode _ _ _ | .decode _ _ _ _ | .kpkeDec => false

/-- The scalar register a command writes (`10_state.md` R21), `ZEROIZE` apart. -/
def scalarDest : Instr → Option RegNum
  | .li rd _ | .montmul rd _ _ | .modadd rd _ _ | .modsub rd _ _ | .modneg rd _ => some rd
  | .nop | .zeroize | .padd _ _ _ | .psub _ _ _ | .pneg _ _ | .pmov _ _ | .ntt _ _ | .intt _ _ | .basemul _ _ _
  | .samplentt _ _ _ _ | .cbd _ _ _ | .prfcbd _ _ _ _ | .compress _ _ _ | .decompress _ _ _ | .encode _ _ _
  | .decode _ _ _ _ | .kpkeKeygen | .kpkeEnc | .kpkeDec | .mlkemKeygen | .mlkemEncaps | .mlkemDecaps => none

/-- The polynomial register a command writes (`10_state.md` R39), `ZEROIZE` apart. -/
def polyDest : Instr → Option RegNum
  | .padd rd _ _ | .psub rd _ _ | .pneg rd _ | .pmov rd _ | .ntt rd _ | .intt rd _ | .basemul rd _ _ => some rd
  | .samplentt rd _ _ _ | .cbd rd _ _ | .prfcbd rd _ _ _ | .compress rd _ _ | .decompress rd _ _ | .decode rd _ _ _ => some rd
  | .nop | .zeroize | .li _ _ | .montmul _ _ _ | .modadd _ _ _ | .modsub _ _ _ | .modneg _ _ | .encode _ _ _
  | .kpkeKeygen | .kpkeEnc | .kpkeDec | .mlkemKeygen | .mlkemEncaps | .mlkemDecaps => none

/-- The six commands that read `PSET` (`10_state.md` R22, R31). -/
def isMacro : Instr → Bool
  | .kpkeKeygen | .kpkeEnc | .kpkeDec | .mlkemKeygen | .mlkemEncaps | .mlkemDecaps => true
  | .nop | .zeroize | .li _ _ | .montmul _ _ _ | .modadd _ _ _ | .modsub _ _ _ | .modneg _ _ | .padd _ _ _
  | .psub _ _ _ | .pneg _ _ | .pmov _ _ | .ntt _ _ | .intt _ _ | .basemul _ _ _ | .samplentt _ _ _ _
  | .cbd _ _ _ | .prfcbd _ _ _ _ | .compress _ _ _ | .decompress _ _ _ | .encode _ _ _ | .decode _ _ _ _ => false

/-- The two commands that use the random port (`45_mlkem.md` R242). -/
def drawsRandom : Instr → Bool
  | .mlkemKeygen | .mlkemEncaps => true
  | .nop | .zeroize | .li _ _ | .montmul _ _ _ | .modadd _ _ _ | .modsub _ _ _ | .modneg _ _ | .padd _ _ _
  | .psub _ _ _ | .pneg _ _ | .pmov _ _ | .ntt _ _ | .intt _ _ | .basemul _ _ _ | .samplentt _ _ _ _
  | .cbd _ _ _ | .prfcbd _ _ _ _ | .compress _ _ _ | .decompress _ _ _ | .encode _ _ _ | .decode _ _ _ _
  | .kpkeKeygen | .kpkeEnc | .kpkeDec | .mlkemDecaps => false

end Sys2Proof.Machine
end

