-- ==== Sys2Proof/Certificates/Slice0/Obligations.lean ====
section
/-! DEFINITION. The statements for the provers. Each names the rule of spec/ it formalises; a clause that rests on a choice
of the model names the log entry. -/

section ObligationStatements

open Sys2Proof Sys2Proof.Machine

/-! ## Encoding -/

/-- `30_encoding.md` R91, R94, R95: every command, with every operand its fields admit, is read back from its word. -/
def Obligations.DecodingInvertsEncoding : Prop :=
  ∀ i : Instr, i.wf = true → decode (encode i) = .ok i

/-- `30_encoding.md` R95: the other direction, a word spells one command and is that command's only spelling. -/
def Obligations.DecodedCommandSpellsItsWord : Prop :=
  ∀ (w : Word) (i : Instr), decode w = .ok i → encode i = w ∧ i.wf = true

/-- `30_encoding.md` R94, R95: 27 rows with distinct opcodes; a word spells a row's command iff `(w & mask) = match` and the
row's constraint on `fn` holds, and the decoder reads exactly that command from it. -/
def Obligations.DecodingFollowsTheOpcodeMap : Prop :=
  opcodeTable.length = 27 ∧ (opcodeTable.map fun r => r.op).Nodup ∧
    (∀ r ∈ opcodeTable, ∀ w : Word, r.spells w = true → w.toNat / 2 ^ 24 = r.op) ∧
    ∀ r ∈ opcodeTable, ∀ w : Word, r.spells w = true ↔ ∃ i, decode w = .ok i ∧ i.mnemonic = r.mnemonic

/-- `30_encoding.md` R102, all ten worked encodings, each both ways. -/
def Obligations.WorkedEncodings : Prop :=
  ∀ p ∈ [((0x101008ED : Word), Instr.li 1 2285), (0x11312000, .montmul 3 1 2), (0x24100000, .ntt 1 0),
      (0x26201000, .basemul 2 0 1), (0x30041000, .samplentt 0 4 1 0), (0x32540307, .prfcbd 5 4 3 7),
      (0x40100A00, .compress 1 0 10), (0x42120C00, .encode 1 2 12), (0x43045C00, .decode 0 4 5 12),
      (0x62000000, .mlkemDecaps)],
    decode p.1 = .ok p.2 ∧ encode p.2 = p.1

/-- `30_encoding.md` R97: an illegal word that is pending ends with `ILLEGAL_CMD` and has no other effect; the words of the
three kinds (a), (b), (c) are the illegal ones, and 229 opcode values are of kind (a). -/
def Obligations.IllegalWordEndsWithIllegalCmd : Prop :=
  (∀ s : State, s.busy = true → (∀ r ∈ opcodeTable, r.spells s.cmdreg = false) →
      engineTurn s = .next { s with err := 1, ecmd := s.cmdreg, einfo := 0, busy := false, done := true }) ∧
    ((List.range 256).filter fun op => !(opcodeTable.map fun r => r.op).contains op).length = 229 ∧
    (∀ w : Word, decode w = .error .unknownOpcode ↔ ∀ r ∈ opcodeTable, r.op ≠ w.toNat / 2 ^ 24) ∧
    (∀ w : Word, decode w = .error .nonzeroField ↔
      ∃ r ∈ opcodeTable, r.op = w.toNat / 2 ^ 24 ∧ w &&& r.mask ≠ r.pattern) ∧
    ∀ w : Word, decode w = .error .fnOutOfRange ↔
      ∃ r ∈ opcodeTable, w &&& r.mask = r.pattern ∧ ¬ (r.fnLo ≤ w.toNat / 2 ^ 8 % 16 ∧ w.toNat / 2 ^ 8 % 16 ≤ r.fnHi)

/-! ## The step -/

/-- `60_exceptions.md` R250, R256: the engine's turn runs the command its word decodes to. That an empty schedule gives the
engine the turn is the model's choice (log entry 2). -/
def Obligations.StepRunsTheDecodedCommand : Prop :=
  ∀ (s : State) (i : Instr), s.busy = true → decode s.cmdreg = .ok i →
    (s.schedule = [] → step s = exec i s) ∧
    ∀ rest, s.schedule = .engine :: rest → step s = exec i { s with schedule := rest }

/-- `10_state.md` R24, R30: a program is the words the host writes to `CMD`; such a write and the engine's turn after it run
the word's command. The schedule is the model's own (log entries 1, 12). -/
def Obligations.WordWrittenToCmdIsRun : Prop :=
  ∀ (s : State) (w : Word) (i : Instr) (rest : List Turn), s.busy = false → s.err = 0 → decode w = .ok i →
    s.schedule = .hostWrite 0x000C w :: .engine :: rest →
    ∃ u, step s = .next u ∧
      step u = exec i { s with cmdreg := w, busy := true, done := false, busReply := some (.write true), schedule := rest }

/-- `20_memory.md` R74: one step is one atomic transition of one agent, in the order of the schedule, which is the model's
own (log entries 1, 2, 15); an idle engine has no step, and its turn leaves the block as it is. -/
def Obligations.StepTakesTheScheduledTurn : Prop :=
  ∀ (s : State) (rest : List Turn),
    (∀ a, s.schedule = .hostRead a :: rest → step s = .next (State.hostRead { s with schedule := rest } a)) ∧
    (∀ a w, s.schedule = .hostWrite a w :: rest → step s = .next (State.hostWrite { s with schedule := rest } a w)) ∧
    (s.schedule = .reset :: rest → step s = .next
      { State.reset with schedule := rest, rngAnswers := s.rngAnswers, rngDraws := s.rngDraws }) ∧
    (s.busy = false → s.schedule = .engine :: rest → step s = .next { s with schedule := rest }) ∧
    (s.busy = false → s.schedule = [] → step s = .next s)

/-- `93_implementation_defined.md` section 1: no state, no command and no access is without an outcome. Two of the outcomes
are the model's choice, not the spec's: for a command whose `SampleNTT` is undefined (`42_sampling.md` R172, U4: the engine
has no step) the turn passes and the state repeats (log entry 3), and so it does for an idle block on an empty schedule,
for which the spec gives no step (log entry 2). -/
def Obligations.StepAlwaysAnswersANextState : Prop :=
  ∀ s : State, ∃ t, step s = .next t

/-- `10_state.md` R45: what reset leaves, as the registers and the host read it. -/
def Obligations.ResetLeavesEveryItemZero : Prop :=
  ∀ (s : State) (rest : List Turn), s.schedule = .reset :: rest → ∃ t, step s = .next t ∧
    (∀ i : RegNum, t.x[i] = 0) ∧ (∀ (i : RegNum) (j : Nat) (_ : j < 256), (t.p[i])[j] = 0) ∧
    (∀ a < 8192, t.bmem.read a = 0) ∧ t.ctrlWord = 0 ∧ t.statusWord = 0 ∧ t.cmdreg = 0 ∧ t.psetWord = 0 ∧ t.ecmd = 0 ∧
    t.einfo = 0 ∧ t.cmdcnt = 0 ∧ (t.hostRead 0x0000).busReply = some (.read 0x4D4C4B31 true) ∧ t.irq = false

/-- The invariant of `Sys2Proof/Safety.lean` holds after reset. -/
def Obligations.ResetStateMeetsTheInvariant : Prop := State.Inv State.reset

/-- Every turn of every agent keeps the invariant of `Sys2Proof/Safety.lean` (canonical memory; `10_state.md` R29, R30, R32,
R33; `60_exceptions.md` R253, R254, R265). -/
def Obligations.EveryStepKeepsTheInvariant : Prop :=
  ∀ s t : State, State.Inv s → step s = .next t → State.Inv t

/-- The model's memory form (log entry 16): two canonical memories with the same 8192 bytes are the same data. -/
def Obligations.CanonicalMemoriesWithEqualBytesAreEqual : Prop :=
  ∀ m m' : Memory, m.wf = true → m'.wf = true → (∀ a < 8192, m.read a = m'.read a) → m = m'

/-! ## The host port -/

/-- `20_memory.md` R63, R64 with `10_state.md` R21, R25, R27 to R33: what an idle block answers to a read of each address,
and that the read changes nothing else. `busReply` is where the model keeps the answer (log entry 11). -/
def Obligations.HostReadReturnsTheRegister : Prop :=
  ∀ s : State, s.busy = false →
    let served (addr d : Nat) : Prop :=
      s.hostRead (BitVec.ofNat 14 addr) = { s with busReply := some (.read (BitVec.ofNat 32 d) true) }
    let b (a : Nat) : Nat := (s.bmem.read a).toNat
    served 0x0000 0x4D4C4B31 ∧
    served 0x0004 (s.ieDone.toNat + 2 * s.ieErr.toNat) ∧
    served 0x0008 (2 * s.done.toNat + 4 * s.busErr.toNat + 256 * s.err.toNat) ∧
    served 0x000C s.cmdreg.toNat ∧
    (s.pset = .mlkem512 → served 0x0010 0) ∧ (s.pset = .mlkem768 → served 0x0010 1) ∧
    (s.pset = .mlkem1024 → served 0x0010 2) ∧
    served 0x0014 s.ecmd.toNat ∧ served 0x0018 s.einfo.toNat ∧ served 0x001C s.cmdcnt.toNat ∧
    (∀ i : RegNum, served (0x0040 + 4 * i.val) (s.x[i]).toNat) ∧
    ∀ o, o % 4 = 0 → o < 8192 →
      served (0x2000 + o) (b o + 2 ^ 8 * b (o + 1) + 2 ^ 16 * b (o + 2) + 2 ^ 24 * b (o + 3))

/-- `20_memory.md` R63, R64 with `10_state.md` R21, R29, R31: what a served write to each plain register, to `STATUS` and to
the window stores, and that it changes nothing else. -/
def Obligations.HostWriteStoresTheWord : Prop :=
  ∀ (s : State) (w : Word), s.busy = false →
    (∀ i : RegNum, s.hostWrite (BitVec.ofNat 14 (0x0040 + 4 * i.val)) w =
      { s with x := s.x.set i (BitVec.ofNat 16 w.toNat), busReply := some (.write true) }) ∧
    s.hostWrite 0x0008 w =
      { s with
        done := if w.toNat / 2 % 2 = 1 then false else s.done, busErr := if w.toNat / 4 % 2 = 1 then false else s.busErr,
        busReply := some (.write true) } ∧
    (w.toNat % 4 = 0 → s.hostWrite 0x0010 w = { s with pset := .mlkem512, busReply := some (.write true) }) ∧
    (w.toNat % 4 = 1 → s.hostWrite 0x0010 w = { s with pset := .mlkem768, busReply := some (.write true) }) ∧
    (w.toNat % 4 = 2 → s.hostWrite 0x0010 w = { s with pset := .mlkem1024, busReply := some (.write true) }) ∧
    (w.toNat % 4 = 3 → s.hostWrite 0x0010 w = { s with busReply := some (.write true) }) ∧
    (s.bmem.wf = true → ∀ o, o % 4 = 0 → o < 8192 → ∃ m : Memory,
      s.hostWrite (BitVec.ofNat 14 (0x2000 + o)) w = { s with bmem := m, busReply := some (.write true) } ∧
      m.wf = true ∧ (∀ n < 4, (m.read (o + n)).toNat = w.toNat / 2 ^ (8 * n) % 256) ∧
      ∀ a, a < o ∨ o + 4 ≤ a → m.read a = s.bmem.read a)

/-- `10_state.md` R28, all of it: a write to `CTRL`, a read of it, its reset value, and what its two enables drive. -/
def Obligations.CtrlRegister : Prop :=
  ∀ s : State,
    (s.busy = false → ∀ w : Word, s.hostWrite 0x0004 w =
      { s with
        ieDone := w.getLsbD 0, ieErr := w.getLsbD 1, err := if w.getLsbD 8 then 0 else s.err,
        ecmd := if w.getLsbD 8 then 0 else s.ecmd, einfo := if w.getLsbD 8 then 0 else s.einfo,
        busReply := some (.write true) }) ∧
    (s.busy = false → ∃ d : Word, s.hostRead 0x0004 = { s with busReply := some (.read d true) } ∧
      d.getLsbD 0 = s.ieDone ∧ d.getLsbD 1 = s.ieErr ∧ ∀ n, 2 ≤ n → d.getLsbD n = false) ∧
    s.irq = ((s.ieDone && s.done) || (s.ieErr && decide (s.err ≠ 0))) ∧ State.reset.ctrlWord = 0

/-- `10_state.md` R30, all of it: the acceptance of a command, its rejection, the read of `CMD`, the reset value. -/
def Obligations.CmdRegister : Prop :=
  ∀ (s : State) (w : Word),
    (s.busy = false → s.err = 0 → s.hostWrite 0x000C w =
      { s with cmdreg := w, busy := true, done := false, busReply := some (.write true) }) ∧
    (s.busy = true ∨ s.err ≠ 0 → s.hostWrite 0x000C w = { s with busErr := true, busReply := some (.write false) }) ∧
    (s.busy = false → s.hostRead 0x000C = { s with busReply := some (.read s.cmdreg true) }) ∧ State.reset.cmdreg = 0

/-- `20_memory.md` R68: while a command is pending `ID` and `STATUS` can be read, and every other access is rejected. -/
def Obligations.PendingBlockServesIdAndStatusOnly : Prop :=
  ∀ s : State, s.busy = true →
    s.hostRead 0x0000 = { s with busReply := some (.read 0x4D4C4B31 true) } ∧
    s.hostRead 0x0008 = { s with busReply := some (.read s.statusWord true) } ∧
    (∀ a : BitVec 14, a ≠ 0x0000 → a ≠ 0x0008 →
      s.hostRead a = { s with busErr := true, busReply := some (.read 0 false) }) ∧
    ∀ (a : BitVec 14) (w : Word), s.hostWrite a w = { s with busErr := true, busReply := some (.write false) }

/-- `20_memory.md` R67: an access is rejected iff one of (a) to (e) holds; what a rejected one does; that every other one is
served and does not touch `BUSERR`, but for the write to `STATUS` that clears it (`10_state.md` R29). -/
def Obligations.RejectedAccesses : Prop :=
  ∀ (s : State) (a : BitVec 14) (w : Word),
    let reserved : Prop := (0x0020 ≤ a.toNat ∧ a.toNat < 0x0040) ∨ (0x0080 ≤ a.toNat ∧ a.toNat < 0x2000)
    let readRejected : Prop := a.toNat % 4 ≠ 0 ∨ reserved ∨ (s.busy = true ∧ a ≠ 0x0000 ∧ a ≠ 0x0008)
    let writeRejected : Prop := a.toNat % 4 ≠ 0 ∨ reserved ∨ a ∈ [0x0000, 0x0014, 0x0018, 0x001C] ∨ s.busy = true ∨
      (a = 0x000C ∧ s.err ≠ 0)
    (readRejected → s.hostRead a = { s with busErr := true, busReply := some (.read 0 false) }) ∧
    (¬ readRejected → ∃ d, s.hostRead a = { s with busReply := some (.read d true) }) ∧
    (writeRejected → s.hostWrite a w = { s with busErr := true, busReply := some (.write false) }) ∧
    (¬ writeRejected → (s.hostWrite a w).busReply = some (.write true) ∧
      ((s.hostWrite a w).busErr = s.busErr ∨ (a = 0x0008 ∧ w.getLsbD 2 = true)))

/-- `10_state.md` R39, R41, R25 and `20_memory.md` R64, R69: what a host write can change, address by address; the
polynomial registers and `CMDCNT` are out of the host's reach, and nothing of a command is. -/
def Obligations.HostWriteReachesOnlyItsRegister : Prop :=
  ∀ (s : State) (a : BitVec 14) (w : Word),
    (s.hostWrite a w).p = s.p ∧ (s.hostWrite a w).cmdcnt = s.cmdcnt ∧ (s.hostWrite a w).rngAnswers = s.rngAnswers ∧
    ((s.hostWrite a w).x ≠ s.x → 0x0040 ≤ a.toNat ∧ a.toNat < 0x0080) ∧
    ((s.hostWrite a w).bmem ≠ s.bmem → 0x2000 ≤ a.toNat) ∧
    ((s.hostWrite a w).pset ≠ s.pset → a = 0x0010) ∧
    ((s.hostWrite a w).cmdreg ≠ s.cmdreg → a = 0x000C) ∧
    ((s.hostWrite a w).ieDone ≠ s.ieDone ∨ (s.hostWrite a w).ieErr ≠ s.ieErr → a = 0x0004) ∧
    ((s.hostWrite a w).err ≠ s.err ∨ (s.hostWrite a w).ecmd ≠ s.ecmd ∨ (s.hostWrite a w).einfo ≠ s.einfo →
      a = 0x0004 ∧ w.getLsbD 8 = true)

/-! ## Rules about the whole machine -/

/-- `10_state.md` R29: the only events that change each field of `STATUS`. -/
def Obligations.StatusChangesOnlyAsStated : Prop :=
  ∀ (s t : State) (turn : Turn), takeTurn s turn = .next t →
    (s.busy = false → t.busy = true → s.err = 0 ∧ ∃ w, turn = .hostWrite 0x000C w) ∧
    (s.busy = true → t.busy = false → turn = .engine ∨ turn = .reset) ∧
    (s.done = false → t.done = true → turn = .engine ∧ s.busy = true) ∧
    (s.done = true → t.done = false →
      turn = .reset ∨ (∃ w, turn = .hostWrite 0x000C w) ∨ ∃ w, turn = .hostWrite 0x0008 w ∧ w.getLsbD 1 = true) ∧
    (s.busErr = false → t.busErr = true → (∃ a, turn = .hostRead a) ∨ ∃ a w, turn = .hostWrite a w) ∧
    (s.busErr = true → t.busErr = false → turn = .reset ∨ ∃ w, turn = .hostWrite 0x0008 w ∧ w.getLsbD 2 = true) ∧
    (t.err ≠ s.err → (turn = .reset ∧ t.err = 0) ∨ (turn = .engine ∧ s.busy = true ∧ t.err ≠ 0) ∨
      ∃ w, turn = .hostWrite 0x0004 w ∧ w.getLsbD 8 = true ∧ t.err = 0)

/-- `60_exceptions.md` R264, R265: while an error is outstanding no command is accepted, and the error, its word and its
information stay until `CTRL.CLRERR` or reset. -/
def Obligations.OutstandingErrorStaysUntilCleared : Prop :=
  ∀ (s t : State) (turn : Turn), s.busy = false → s.err ≠ 0 → takeTurn s turn = .next t →
    turn = .reset ∨ (∃ w, turn = .hostWrite 0x0004 w ∧ w.getLsbD 8 = true) ∨
      (t.busy = false ∧ t.err = s.err ∧ t.ecmd = s.ecmd ∧ t.einfo = s.einfo)

/-- `10_state.md` R25: `CMDCNT` goes up by one exactly when a command ends without error; only reset clears it. -/
def Obligations.CmdcntCountsSuccessfulCommands : Prop :=
  ∀ (s t : State) (turn : Turn), takeTurn s turn = .next t →
    (turn = .reset ∧ t.cmdcnt = 0) ∨
    (turn = .engine ∧ s.busy = true ∧ t.busy = false ∧ t.done = true ∧ t.err = s.err ∧ t.cmdcnt = s.cmdcnt + 1) ∨
    (t.cmdcnt = s.cmdcnt ∧ (turn = .engine → t = s ∨ t.err ≠ 0))

/-- `20_memory.md` R68: nothing the host does while a command is pending can change what the command computes: the engine's
turn after a host access ends as it would have without the access, but for `BUSERR` and the model's own record of the
bus's answer (log entry 11). -/
def Obligations.PendingCommandIsUndisturbed : Prop :=
  ∀ (s u t : State) (turn : Turn), s.busy = true → (∃ a, turn = .hostRead a) ∨ (∃ a w, turn = .hostWrite a w) →
    takeTurn s turn = .next u → engineTurn s = .next t →
    engineTurn u = .next { t with busErr := u.busErr, busReply := u.busReply }

/-- `60_exceptions.md` R250, R251, R262 and `42_sampling.md` R172: a command ends in success, in one error, or not at all,
and what each end leaves unchanged. In a hang the engine has no step; the model's turn then passes (log entry 3). -/
def Obligations.CommandEndsInOneOfThreeWays : Prop :=
  ∀ (i : Instr) (s : State), ∃ t, exec i s = .next t ∧ State.sameControl s t ∧
    ((t = s ∧ mayHang i = true) ∨
      (t.cmdcnt = s.cmdcnt + 1 ∧ t.busy = false ∧ t.done = true ∧ t.err = s.err ∧ t.ecmd = s.ecmd ∧ t.einfo = s.einfo) ∨
      (State.sameData s t ∧ t.cmdcnt = s.cmdcnt ∧ t.busy = false ∧ t.done = true ∧ t.err ≠ 0 ∧ t.ecmd = s.cmdreg))

/-- `60_exceptions.md` R255 (with `93_implementation_defined.md` section 1): a well-formed command ends in no way its row
does not name; in particular the twelve commands of R253 always succeed. -/
def Obligations.CommandEndsOnlyAsItsRowSays : Prop :=
  ∀ (i : Instr) (s t : State), i.wf = true → exec i s = .next t →
    (t.cmdcnt = s.cmdcnt + 1 ∧ t.busy = false) ∨ (t.err ∈ mayRaise i ∧ t.busy = false) ∨ (mayHang i = true ∧ t = s)

/-- `10_state.md` R21, R22, R39, R41, R43 and `60_exceptions.md` R258: the frame of every command but `ZEROIZE`. A scalar or
polynomial register other than the destination, and every byte outside the output operands, keeps its value; the random
port is used by two commands only. -/
def Obligations.CommandWritesOnlyItsDestination : Prop :=
  ∀ (i : Instr) (s t : State), i ≠ .zeroize → exec i s = .next t →
    (∀ r : RegNum, scalarDest i ≠ some r → t.x[r] = s.x[r]) ∧
    (∀ r : RegNum, polyDest i ≠ some r → t.p[r] = s.p[r]) ∧
    (∀ a, (∀ o ∈ outputOperands i s, a < o.1.toNat ∨ o.1.toNat + o.2 ≤ a) → t.bmem.read a = s.bmem.read a) ∧
    (outputOperands i s = [] → t.bmem = s.bmem) ∧
    (drawsRandom i = false → t.rngAnswers = s.rngAnswers ∧ t.rngDraws = s.rngDraws)

/-- `00_scope.md` R7 and `60_exceptions.md` R258: a command is a function of its explicit inputs. Two blocks that agree on
the command word, the registers, `PSET`, the random answers and the bytes of the input operands end alike, whatever else
their memories, enables, status and counters hold. -/
def Obligations.CommandIsAFunctionOfItsInputs : Prop :=
  ∀ (i : Instr) (s s' t t' : State), s.bmem.wf = true → s'.bmem.wf = true →
    s'.cmdreg = s.cmdreg → s'.x = s.x → s'.p = s.p → s'.pset = s.pset → s'.rngAnswers = s.rngAnswers →
    s'.rngDraws = s.rngDraws → s.busy = true → s'.busy = true → s.err = 0 → s'.err = 0 →
    (∀ o ∈ inputOperands i s, ∀ n < o.2, s'.bmem.read (o.1.toNat + n) = s.bmem.read (o.1.toNat + n)) →
    exec i s = .next t → exec i s' = .next t' →
    t'.x = t.x ∧ t'.p = t.p ∧ t'.busy = t.busy ∧ t'.err = t.err ∧ t'.rngAnswers = t.rngAnswers ∧
    (t.err ≠ 0 → t'.ecmd = t.ecmd ∧ t'.einfo = t.einfo) ∧
    (t.busy = false → t.err = 0 → ∀ o ∈ outputOperands i s, ∀ n < o.2,
      t'.bmem.read (o.1.toNat + n) = t.bmem.read (o.1.toNat + n))

/-- `10_state.md` R31: the 21 primitive commands do not read `PSET`, and no command writes it. -/
def Obligations.PrimitiveCommandsIgnorePset : Prop :=
  ∀ (i : Instr) (s t : State) (ps : ParamSet), exec i s = .next t →
    t.pset = s.pset ∧ (isMacro i = false → exec i { s with pset := ps } = .next { t with pset := ps })

/-- `60_exceptions.md` R266: the interrupt line as the words of `CTRL` and `STATUS` give it, and the events that raise it. -/
def Obligations.InterruptLineFollowsStatus : Prop :=
  (∀ s : State, s.irq = ((s.ctrlWord.getLsbD 0 && s.statusWord.getLsbD 1) ||
      (s.ctrlWord.getLsbD 1 && decide (s.statusWord.extractLsb' 8 8 ≠ 0)))) ∧
    ∀ (s t : State) (turn : Turn), takeTurn s turn = .next t → s.irq = false → t.irq = true →
      (turn = .engine ∧ s.busy = true) ∨ ∃ w, turn = .hostWrite 0x0004 w

/-! ## Errors -/

/-- `60_exceptions.md` R257: every length register is compared before any address is looked at, in operand order, for
equality; the first that differs ends the command with `FORMAT_ERROR`. -/
def Obligations.LengthErrorsInOperandOrder : Prop :=
  ∀ (i : Instr) (s : State) (n : Nat) (held : Half) (want : Nat), i.wf = true →
    (lengthOperands i s)[n]? = some (held, want) → held.toNat ≠ want →
    (∀ o ∈ (lengthOperands i s).take n, o.1.toNat = o.2) → exec i s = .next (s.failedWith 2 0 n held)

/-- `60_exceptions.md` R258: with the lengths right, the first operand that does not end inside `BMEM`, inputs before outputs,
ends the command with `ADDRESS_ERROR`, its number and its address. -/
def Obligations.AddressErrorsInOperandOrder : Prop :=
  ∀ (i : Instr) (s : State) (n : Nat) (addr : Half) (len : Nat), i.wf = true → LengthsMatch i s →
    (inputOperands i s ++ outputOperands i s)[n]? = some (addr, len) → 8192 < addr.toNat + len →
    (∀ o ∈ (inputOperands i s ++ outputOperands i s).take n, o.1.toNat + o.2 ≤ 8192) →
    exec i s = .next (s.failedWith 4 0 n addr)

/-- `40_control_scalar.md` R131: the range check of the scalar commands, `X[ra]` before `X[rb]`. -/
def Obligations.OperandRangeErrors : Prop :=
  ∀ (s : State) (rd ra rb : RegNum),
    (3329 ≤ (s.x[ra]).toNat →
      exec (.montmul rd ra rb) s = .next (s.failedWith 5 0 0 s.x[ra]) ∧
      exec (.modadd rd ra rb) s = .next (s.failedWith 5 0 0 s.x[ra]) ∧
      exec (.modsub rd ra rb) s = .next (s.failedWith 5 0 0 s.x[ra]) ∧
      exec (.modneg rd ra) s = .next (s.failedWith 5 0 0 s.x[ra])) ∧
    ((s.x[ra]).toNat < 3329 → 3329 ≤ (s.x[rb]).toNat →
      exec (.montmul rd ra rb) s = .next (s.failedWith 5 0 1 s.x[rb]) ∧
      exec (.modadd rd ra rb) s = .next (s.failedWith 5 0 1 s.x[rb]) ∧
      exec (.modsub rd ra rb) s = .next (s.failedWith 5 0 1 s.x[rb]))

/-- `45_mlkem.md` R233, R235, R242: the first request answered `fail` ends the command with `RANDOMNESS_ERROR`; a later
request is not made, and nothing but the error is recorded. The answers come from the model's `rngAnswers` (log entries 7, 17). -/
def Obligations.RandomnessErrorsInRequestOrder : Prop :=
  ∀ (s : State) (b : Vector Byte 32) (rest : List RngAnswer),
    (OperandsFit .mlkemKeygen s → s.rngAnswers = .fail :: rest →
      exec .mlkemKeygen s = .next { s.failedWith 3 0 0 0 with rngAnswers := rest, rngDraws := s.rngDraws + 1 }) ∧
    (OperandsFit .mlkemKeygen s → s.rngAnswers = .ok b :: .fail :: rest →
      exec .mlkemKeygen s = .next { s.failedWith 3 0 1 0 with rngAnswers := rest, rngDraws := s.rngDraws + 2 }) ∧
    (LengthsMatch .mlkemEncaps s → OperandsFit .mlkemEncaps s →
      modulusCheck Config.ekModCheck s.params.k (s.bmem.readBytes (s.x[4]).toNat s.params.ekBytes) = none →
      s.rngAnswers = .fail :: rest →
      exec .mlkemEncaps s = .next { s.failedWith 3 0 0 0 with rngAnswers := rest, rngDraws := s.rngDraws + 1 })

/-- `45_mlkem.md` R236, `60_exceptions.md` R254, R260: the modulus check passes iff re-encoding the decoded key gives the key
back, else it reports the first field that is 3329 or more; when `CFG_EK_MODCHECK` is false it is not made. `MLKEM_ENCAPS`
makes it with the block's parameter, whose value is open (log entry 5). For either value, and whatever the random source
would answer, a failed check with lengths and addresses right ends the command with `FORMAT_ERROR`, `CONTENT` = 1, and no
request is made: `failedWith` leaves the random answers, their count and all data as they are. -/
def Obligations.ModulusCheckIsTheReencodingTest : Prop :=
  (∀ (ps : ParamSet) (ek : Bytes), ek.length = (paramRow ps).ekBytes →
    let k := (paramRow ps).k
    (modulusCheck true k ek = none ↔ encodeVec 12 (decodeVec 12 k (ek.take (384 * k))) = ek.take (384 * k)) ∧
    (∀ n : Nat, modulusCheck true k ek = some (.formatContent (BitVec.ofNat 16 n)) ∧ n < 65536 ↔
      n < 256 * k ∧ 3329 ≤ bitField ek (12 * n) 12 ∧ ∀ m < n, bitField ek (12 * m) 12 < 3329) ∧
    modulusCheck false k ek = none) ∧
  (∀ s : State, exec .mlkemEncaps s = encapsWith Config.ekModCheck s) ∧
  ∀ (modCheck : Bool) (s : State) (n : Half), LengthsMatch .mlkemEncaps s → OperandsFit .mlkemEncaps s →
    modulusCheck modCheck (paramRow s.pset).k
      (s.bmem.readBytes (s.x[4]).toNat (384 * (paramRow s.pset).k + 32)) = some (.formatContent n) →
    encapsWith modCheck s = .next (s.failedWith 2 1 0 n)

/-! ## Scalar arithmetic -/

/-- `40_control_scalar.md` R120, R121, R122: the three control commands always complete. -/
def Obligations.ControlCommandsComplete : Prop :=
  ∀ s : State,
    exec .nop s = .next { s with cmdcnt := s.cmdcnt + 1, busy := false, done := true } ∧
    (∀ (rd : RegNum) (imm : Half), exec (.li rd imm) s = .next
      { s with x := s.x.set rd imm, cmdcnt := s.cmdcnt + 1, busy := false, done := true }) ∧
    ∃ t : State, exec .zeroize s = .next
        { s with x := t.x, p := t.p, bmem := t.bmem, cmdcnt := s.cmdcnt + 1, busy := false, done := true } ∧
      (∀ i : RegNum, t.x[i] = 0) ∧ (∀ (i : RegNum) (j : Nat) (_ : j < 256), (t.p[i])[j] = 0) ∧
      (∀ a, t.bmem.read a = 0) ∧ t.bmem.wf = true

/-- `40_control_scalar.md` R124, R132: on canonical inputs every line of the Montgomery multiplier is as the rule says, its
result is `a · b · 169 mod 3329`, and the three ways a realisation gets an exact product from it are right. -/
def Obligations.MontgomeryMultiplier : Prop :=
  ∀ a b : Nat, a < 3329 → b < 3329 →
    let T := a * b
    let m := (T % 2 ^ 16 * 3327) % 2 ^ 16
    let t := (T + m * 3329) / 2 ^ 16
    T ≤ 11075584 ∧ (T + m * 3329) % 2 ^ 16 = 0 ∧ montmul a b = (if 3329 ≤ t then t - 3329 else t) ∧
      montmul a b < 3329 ∧ montmul a b = a * b * 169 % 3329 ∧
      montmul a (b * 2285 % 3329) = a * b % 3329 ∧ montmul (montmul a b) 1353 = a * b % 3329 ∧
      montmul a 512 = a * 3303 % 3329 ∧ 3303 * 2285 % 3329 = 512

/-- `40_control_scalar.md` R126, R128, R129, R130: on canonical operands the scalar commands complete with the exact value
modulo q in `X[rd]`. -/
def Obligations.ScalarCommandsComplete : Prop :=
  ∀ (s : State) (rd ra rb : RegNum), (s.x[ra]).toNat < 3329 →
    let a := (s.x[ra]).toNat
    let b := (s.x[rb]).toNat
    let done (v : Nat) : State :=
      { s with x := s.x.set rd (BitVec.ofNat 16 v), cmdcnt := s.cmdcnt + 1, busy := false, done := true }
    exec (.modneg rd ra) s = .next (done ((3329 - a) % 3329)) ∧
    (b < 3329 →
      exec (.montmul rd ra rb) s = .next (done (a * b * 169 % 3329)) ∧
      exec (.modadd rd ra rb) s = .next (done ((a + b) % 3329)) ∧
      exec (.modsub rd ra rb) s = .next (done ((a + 3329 - b) % 3329)))

/-! ## Ring arithmetic -/

/-- `41_ring_arithmetic.md` R141 to R144: the coefficient-wise commands always complete, each lane by itself. -/
def Obligations.LaneCommandsComplete : Prop :=
  ∀ (s : State) (rd ra rb : RegNum),
    let completesWith (i : Instr) (v : (j : Nat) → j < 256 → Nat) : Prop := ∃ h : RingElt,
      exec i s = .next { s with p := s.p.set rd h, cmdcnt := s.cmdcnt + 1, busy := false, done := true } ∧
      ∀ (j : Nat) (hj : j < 256), h[j].val = v j hj
    completesWith (.padd rd ra rb) (fun j _ => ((s.p[ra])[j].val + (s.p[rb])[j].val) % 3329) ∧
    completesWith (.psub rd ra rb) (fun j _ => ((s.p[ra])[j].val + 3329 - (s.p[rb])[j].val) % 3329) ∧
    completesWith (.pneg rd ra) (fun j _ => (3329 - (s.p[ra])[j].val) % 3329) ∧
    completesWith (.pmov rd ra) (fun j _ => (s.p[ra])[j].val)

/-- `41_ring_arithmetic.md` R149, R150: the two transforms always complete, with the transformed source in `P[rd]`. -/
def Obligations.TransformCommandsComplete : Prop :=
  ∀ (s : State) (rd ra : RegNum),
    exec (.ntt rd ra) s = .next
      { s with p := s.p.set rd (nttValue s.p[ra]), cmdcnt := s.cmdcnt + 1, busy := false, done := true } ∧
    exec (.intt rd ra) s = .next
      { s with p := s.p.set rd (inttValue s.p[ra]), cmdcnt := s.cmdcnt + 1, busy := false, done := true }

/-- `41_ring_arithmetic.md` R151, R152: `BASEMUL` always completes with the 128 products of degree-1 residues. -/
def Obligations.BasemulCompletes : Prop :=
  ∀ (s : State) (rd ra rb : RegNum), ∃ h : RingElt,
    exec (.basemul rd ra rb) s = .next
      { s with p := s.p.set rd h, cmdcnt := s.cmdcnt + 1, busy := false, done := true } ∧
    ∀ (n : Nat) (_ : n < 128),
      h[2 * n].val = ((s.p[ra])[2 * n].val * (s.p[rb])[2 * n].val
        + (s.p[ra])[2 * n + 1].val * (s.p[rb])[2 * n + 1].val * 17 ^ (2 * bitRev7 n + 1)) % 3329 ∧
      h[2 * n + 1].val = ((s.p[ra])[2 * n].val * (s.p[rb])[2 * n + 1].val
        + (s.p[ra])[2 * n + 1].val * (s.p[rb])[2 * n].val) % 3329

/-- `41_ring_arithmetic.md` R145: lanes 2i and 2i+1 of the forward transform are the residue of the polynomial modulo
`X^2 - 17^(2·BitRev7(i)+1)`. -/
def Obligations.NttGivesTheResidues : Prop :=
  ∀ (f : RingElt) (i : Nat), i < 128 →
    let γ := 17 ^ (2 * bitRev7 i + 1)
    (RingElt.lane (nttValue f) (2 * i)).val =
      (Finset.sum (Finset.range 128) fun m => (RingElt.lane f (2 * m)).val * γ ^ m) % 3329 ∧
    (RingElt.lane (nttValue f) (2 * i + 1)).val =
      (Finset.sum (Finset.range 128) fun m => (RingElt.lane f (2 * m + 1)).val * γ ^ m) % 3329

/-- `41_ring_arithmetic.md` R153 (a): each transform undoes the other, on every ring element. -/
def Obligations.TransformsAreInverse : Prop :=
  ∀ f : RingElt, inttValue (nttValue f) = f ∧ nttValue (inttValue f) = f

/-- `41_ring_arithmetic.md` R153 (b): the NTT-domain product brought back is the product modulo `X^256 + 1`. -/
def Obligations.NttProductIsTheRingProduct : Prop :=
  ∀ (a b : RingElt) (n : Nat), n < 256 →
    ((RingElt.lane (inttValue (baseMul (nttValue a) (nttValue b))) n).val : Int) =
      (Finset.sum (Finset.range 256) fun i =>
        if i ≤ n then ((RingElt.lane a i).val : Int) * (RingElt.lane b (n - i)).val
        else - ((RingElt.lane a i).val * (RingElt.lane b (n + 256 - i)).val)) % 3329

/-! ## Sampling -/

/-- `42_sampling.md` R170, R172: `SampleNTT` is defined iff some number of 3-byte blocks holds 256 candidates below q, its
value is then the first 256 of them in their order, and on the stream of 0xFF bytes it is not defined. -/
def Obligations.SampleNttTakesTheFirstAcceptedCandidates : Prop :=
  ∀ S : Nat → Byte,
    let candidate (c : Nat) : Nat :=
      if c % 2 = 0 then (S (3 * (c / 2))).toNat + 256 * ((S (3 * (c / 2) + 1)).toNat % 16)
      else (S (3 * (c / 2) + 1)).toNat / 16 + 16 * (S (3 * (c / 2) + 2)).toNat
    let accepted (blocks : Nat) : List Nat := ((List.range (2 * blocks)).map candidate).filter fun v => decide (v < 3329)
    ((∃ f, sampleNTT S = some f) ↔ ∃ n, 256 ≤ (accepted n).length) ∧
    (∀ n, 256 ≤ (accepted n).length → ∃ f : RingElt, sampleNTT S = some f ∧
      ∀ (j : Nat) (_ : j < 256), (accepted n)[j]? = some f[j].val) ∧
    ((∀ n, S n = 0xFF) → sampleNTT S = none)

/-- `42_sampling.md` R171, R172: with its seed inside `BMEM`, `SAMPLENTT` writes the sampled element of the stream of
(ρ, column, row); where the sampler is undefined the engine has no step (in the model its turn passes, log entry 3). -/
def Obligations.SamplenttCompletes : Prop :=
  ∀ (s : State) (rd ra : RegNum) (j i : Fin 16), OperandsFit (.samplentt rd ra j i) s →
    let seed := s.bmem.readBytes (s.x[ra]).toNat 32 ++ [BitVec.ofNat 8 j.val, BitVec.ofNat 8 i.val]
    exec (.samplentt rd ra j i) s = .next ((sampleNTT (Config.xof seed)).elim s fun f =>
      { s with p := s.p.set rd f, cmdcnt := s.cmdcnt + 1, busy := false, done := true })

/-- `42_sampling.md` R174, R175, R178: `CBD` and `PRFCBD` complete, lane j being the difference of the popcounts of the two
η-bit windows at bit 2·j·η of the input bytes or of the PRF's bytes. -/
def Obligations.BinomialSamplersComplete : Prop :=
  ∀ (s : State) (rd ra : RegNum) (eta : Fin 16) (n : Byte), legalEta eta = true →
    let completesWith (i : Instr) (byteAt : Nat → Byte) : Prop := ∃ h : RingElt,
      exec i s = .next { s with p := s.p.set rd h, cmdcnt := s.cmdcnt + 1, busy := false, done := true } ∧
      ∀ (j : Nat) (_ : j < 256),
        let window (start : Nat) : Nat :=
          ((List.range eta.val).map fun t => (byteAt ((start + t) / 8)).toNat / 2 ^ ((start + t) % 8) % 2).sum
        h[j].val = (window (2 * j * eta.val) + 3329 - window (2 * j * eta.val + eta.val)) % 3329
    (OperandsFit (.cbd rd ra eta) s →
      completesWith (.cbd rd ra eta) fun m => s.bmem.read ((s.x[ra]).toNat + m)) ∧
    (OperandsFit (.prfcbd rd ra eta n) s →
      completesWith (.prfcbd rd ra eta n)
        fun m => (Config.prf eta.val (s.bmem.readBytes (s.x[ra]).toNat 32) n).toList.getD m 0)

/-! ## The codec -/

/-- `43_codec.md` R190 to R193: `COMPRESS` and `DECOMPRESS` complete, each lane by the integer formula of the rule. -/
def Obligations.CompressionCommandsComplete : Prop :=
  ∀ (s : State) (rd ra : RegNum) (d : Fin 16), legalWidth 11 d = true →
    let completesWith (i : Instr) (v : (j : Nat) → j < 256 → Nat) : Prop := ∃ h : RingElt,
      exec i s = .next { s with p := s.p.set rd h, cmdcnt := s.cmdcnt + 1, busy := false, done := true } ∧
      ∀ (j : Nat) (hj : j < 256), h[j].val = v j hj
    completesWith (.compress rd ra d)
      (fun j _ => (2 ^ (d.val + 1) * (s.p[ra])[j].val + 3329) / (2 * 3329) % 2 ^ d.val) ∧
    completesWith (.decompress rd ra d)
      (fun j _ => (3329 * ((s.p[ra])[j].val % 2 ^ d.val) + 2 ^ (d.val - 1)) / 2 ^ d.val)

/-- `43_codec.md` R194, R197: `ENCODE` completes; bit `u` of stored byte `t` is bit `(8t+u) mod d` of lane `(8t+u) / d`, and
every byte outside the 32·d stored bytes reads as before. -/
def Obligations.EncodeStoresThePackedLanes : Prop :=
  ∀ (s : State) (rd ra : RegNum) (d : Fin 16), legalWidth 12 d = true → s.bmem.wf = true →
    OperandsFit (.encode rd ra d) s → ∃ m : Memory,
      exec (.encode rd ra d) s = .next { s with bmem := m, cmdcnt := s.cmdcnt + 1, busy := false, done := true } ∧
      m.wf = true ∧
      (∀ t u, t < 32 * d.val → u < 8 → (m.read ((s.x[rd]).toNat + t)).toNat / 2 ^ u % 2 =
        (RingElt.lane s.p[ra] ((8 * t + u) / d.val)).val / 2 ^ ((8 * t + u) % d.val) % 2) ∧
      ∀ a, a < (s.x[rd]).toNat ∨ (s.x[rd]).toNat + 32 * d.val ≤ a → m.read a = s.bmem.read a

/-- `43_codec.md` R195, R198: with the right length and the source inside `BMEM`, `DECODE` completes; lane `i` is the d-bit
field at bit `i·d`, least significant bit first, reduced modulo q (which changes it for d = 12 only). -/
def Obligations.DecodeLoadsThePackedFields : Prop :=
  ∀ (s : State) (rd ra rb : RegNum) (d : Fin 16), legalWidth 12 d = true → LengthsMatch (.decode rd ra rb d) s →
    OperandsFit (.decode rd ra rb d) s → ∃ h : RingElt,
      exec (.decode rd ra rb d) s = .next { s with p := s.p.set rd h, cmdcnt := s.cmdcnt + 1, busy := false, done := true } ∧
      ∀ (i : Nat) (_ : i < 256),
        let field := ((List.range d.val).map fun j =>
          (s.bmem.read ((s.x[ra]).toNat + (i * d.val + j) / 8)).toNat / 2 ^ ((i * d.val + j) % 8) % 2 * 2 ^ j).sum
        h[i].val = field % 3329 ∧ (d.val < 12 → h[i].val = field)

/-- `43_codec.md` R200 (a), (b), R196: decoding inverts encoding on valid arrays, encoding inverts decoding on byte strings
whose fields are canonical, and the encoding is 32·d bytes long. -/
def Obligations.CodecRoundTrips : Prop :=
  ∀ d : Nat, 1 ≤ d → d ≤ 12 →
    (∀ f : RingElt, (byteEncode d f).length = 32 * d ∧
      ((d = 12 ∨ ∀ (j : Nat) (_ : j < 256), f[j].val < 2 ^ d) → byteDecode d (byteEncode d f) = f)) ∧
    ∀ B : Bytes, B.length = 32 * d →
      (byteEncode d (byteDecode d B) = B ↔ d < 12 ∨ ∀ n < 256, bitField B (12 * n) 12 < 3329)

/-- `43_codec.md` R200 (c), (d): the exact error bound of compression for each width, reached, and that compression inverts
decompression. -/
def Obligations.CompressionErrorBound : Prop :=
  ∀ p ∈ [(1, 832), (2, 416), (3, 208), (4, 104), (5, 52), (6, 26), (7, 13), (8, 7), (9, 3), (10, 2), (11, 1)],
    let dist (x : Nat) : Nat :=
      let e := (decompressNat p.1 (compressNat p.1 x) + 3329 - x) % 3329
      min e (3329 - e)
    p.2 = (3329 + 2 ^ p.1) / 2 ^ (p.1 + 1) ∧ (∀ x < 3329, dist x ≤ p.2) ∧ (∃ x < 3329, dist x = p.2) ∧
      ∀ y < 2 ^ p.1, compressNat p.1 (decompressNat p.1 y) = y

/-! ## K-PKE and ML-KEM -/

/-- `44_kpke.md` R214, R216, R218: with lengths and addresses right, the K-PKE commands complete with the values of the K-PKE
functions stored, output 0 first; where the matrix is undefined the engine has no step (log entry 3). -/
def Obligations.KpkeCommandsComplete : Prop :=
  ∀ s : State,
    let ps := paramRow s.pset
    let input (addr : Half) (len : Nat) : Bytes := s.bmem.readBytes addr.toNat len
    let done (m : Memory) : State := { s with bmem := m, cmdcnt := s.cmdcnt + 1, busy := false, done := true }
    (LengthsMatch .kpkeKeygen s → OperandsFit .kpkeKeygen s →
      exec .kpkeKeygen s = .next ((kpkeKeyGen ps (input s.x[4] 32)).elim s fun keys =>
        done ((s.bmem.writeBytes (s.x[1]).toNat keys.1).writeBytes (s.x[2]).toNat keys.2))) ∧
    (LengthsMatch .kpkeEnc s → OperandsFit .kpkeEnc s →
      exec .kpkeEnc s = .next
        ((kpkeEncrypt ps (input s.x[4] (384 * ps.k + 32)) (input s.x[6] 32) (input s.x[8] 32)).elim s fun c =>
          done (s.bmem.writeBytes (s.x[1]).toNat c))) ∧
    (LengthsMatch .kpkeDec s → OperandsFit .kpkeDec s →
      exec .kpkeDec s = .next (done (s.bmem.writeBytes (s.x[1]).toNat
        (kpkeDecrypt ps (input s.x[4] (384 * ps.k)) (input s.x[6] (32 * (ps.du * ps.k + ps.dv)))))))

/-- `44_kpke.md` R221 and `45_mlkem.md` R240 (d): the objects the functions make have exactly the lengths of the table, and
key generation and encryption are undefined exactly where their matrix is (`42_sampling.md` R172). -/
def Obligations.ObjectLengths : Prop :=
  ∀ (ps : ParamSet) (d z ek m r dk c : Bytes), z.length = 32 →
    let row := paramRow ps
    let rho := (Config.hashG (d ++ [BitVec.ofNat 8 row.k])).toList.take 32
    (matrix row.k rho = none ∧ kpkeKeyGen row d = none ∨
      ∃ A keys, matrix row.k rho = some A ∧ kpkeKeyGen row d = some keys ∧
        keys.1.length = row.ekBytes ∧ keys.2.length = row.dkPkeBytes ∧ (dkOf keys.2 keys.1 z).length = row.dkBytes) ∧
    (matrix row.k ((ek.drop (384 * row.k)).take 32) = none ∧ kpkeEncrypt row ek m r = none ∨
      ∃ A ct, matrix row.k ((ek.drop (384 * row.k)).take 32) = some A ∧ kpkeEncrypt row ek m r = some ct ∧
        ct.length = row.ctBytes) ∧
    (kpkeDecrypt row dk c).length = 32

/-- `44_kpke.md` R210 to R213, R215, R217, R220: the values of the K-PKE functions, element by element. The matrix is undefined
iff one of its entries is, and entry (i, j) is sampled from ρ, the column byte j and the row byte i. `ek` ends with ρ, and the
vectors the keys encode obey t̂ = Â·ŝ + ê. The ciphertext encodes u = INTT(Âᵀ·ŷ) + e1 and v = INTT(t̂ᵀ·ŷ) + e2 + μ, both
compressed, and the decrypted message encodes v' - INTT(ŝᵀ·NTT(u')), compressed to one bit a lane. -/
def Obligations.KpkeFunctionsObeyTheirEquations : Prop :=
  ∀ (ps : ParamSet) (rho d ek m r dk c : Bytes),
    let row := paramRow ps
    let k := row.k
    let element (b : Nat) (B : Bytes) (i : Nat) : RingElt := byteDecode b ((B.drop (32 * b * i)).take (32 * b))
    let entry (A : List (List RingElt)) (i j : Nat) : RingElt := (A.getD i []).getD j RingElt.zero
    let total (term : Nat → RingElt) : RingElt := ((List.range k).map term).foldl RingElt.add RingElt.zero
    let noise (eta : Nat) (seed : Bytes) (n : Nat) : RingElt := noisePoly eta seed (BitVec.ofNat 8 n)
    let g := (Config.hashG (d ++ [BitVec.ofNat 8 k])).toList
    let sample (i j : Nat) : Option RingElt := sampleNTT (Config.xof (rho ++ [BitVec.ofNat 8 j, BitVec.ofNat 8 i]))
    (matrix k rho = none ∧ (∃ i < k, ∃ j < k, sample i j = none) ∨
      ∃ A, matrix k rho = some A ∧ ∀ i < k, ∀ j < k, sample i j = some (entry A i j)) ∧
    (matrix k (g.take 32) = none ∧ kpkeKeyGen row d = none ∨
      ∃ A pk sk, matrix k (g.take 32) = some A ∧ kpkeKeyGen row d = some (pk, sk) ∧ pk.drop (384 * k) = g.take 32 ∧
        ∀ i < k, element 12 sk i = nttValue (noise row.eta1 (g.drop 32) i) ∧
          element 12 pk i = RingElt.add (total fun j => baseMul (entry A i j) (nttValue (noise row.eta1 (g.drop 32) j)))
            (nttValue (noise row.eta1 (g.drop 32) (k + i)))) ∧
    (matrix k ((ek.drop (384 * k)).take 32) = none ∧ kpkeEncrypt row ek m r = none ∨
      ∃ A ct, matrix k ((ek.drop (384 * k)).take 32) = some A ∧ kpkeEncrypt row ek m r = some ct ∧
        let y (j : Nat) : RingElt := nttValue (noise row.eta1 r j)
        let mu : RingElt := RingElt.ofLanes fun i => Coeff.reduce (1665 * ((m.getD (i / 8) 0).toNat / 2 ^ (i % 8) % 2))
        (∀ i < k, element row.du ct i = compressValue row.du
          (RingElt.add (inttValue (total fun j => baseMul (entry A j i) (y j))) (noise row.eta2 r (k + i)))) ∧
        element row.dv (ct.drop (32 * row.du * k)) 0 = compressValue row.dv
          (RingElt.add (RingElt.add (inttValue (total fun j => baseMul (element 12 ek j) (y j)))
            (noise row.eta2 r (2 * k))) mu)) ∧
    element 1 (kpkeDecrypt row dk c) 0 = compressValue 1
      (RingElt.sub (decompressValue row.dv (element row.dv (c.drop (32 * row.du * k)) 0))
        (inttValue (total fun j =>
          baseMul (element 12 dk j) (nttValue (decompressValue row.du (element row.du c j))))))

/-- `45_mlkem.md` R233: with both outputs inside `BMEM` and both requests answered, `MLKEM_KEYGEN` completes with `ek` and
`dk` stored; where the matrix is undefined the engine has no step (log entry 3). -/
def Obligations.MlkemKeygenCompletes : Prop :=
  ∀ (s : State) (d z : Vector Byte 32) (rest : List RngAnswer), OperandsFit .mlkemKeygen s →
    s.rngAnswers = .ok d :: .ok z :: rest →
    exec .mlkemKeygen s = .next ((kpkeKeyGen (paramRow s.pset) d.toList).elim s fun keys =>
      { s with
        bmem := (s.bmem.writeBytes (s.x[1]).toNat keys.1).writeBytes (s.x[2]).toNat
          (keys.2 ++ keys.1 ++ (Config.hashH keys.1).toList ++ z.toList),
        rngAnswers := rest, rngDraws := s.rngDraws + 2, cmdcnt := s.cmdcnt + 1, busy := false, done := true })

/-- `45_mlkem.md` R234, R235: with its checks passed and its request answered, `MLKEM_ENCAPS` completes with K and c stored;
where the matrix is undefined the engine has no step (log entry 3). -/
def Obligations.MlkemEncapsCompletes : Prop :=
  ∀ (s : State) (m : Vector Byte 32) (rest : List RngAnswer), LengthsMatch .mlkemEncaps s → OperandsFit .mlkemEncaps s →
    let ps := paramRow s.pset
    let ek := s.bmem.readBytes (s.x[4]).toNat (384 * ps.k + 32)
    let g := (Config.hashG (m.toList ++ (Config.hashH ek).toList)).toList
    modulusCheck Config.ekModCheck ps.k ek = none → s.rngAnswers = .ok m :: rest →
    exec .mlkemEncaps s = .next ((kpkeEncrypt ps ek m.toList (g.drop 32)).elim s fun c =>
      { s with
        bmem := (s.bmem.writeBytes (s.x[1]).toNat (g.take 32)).writeBytes (s.x[2]).toNat c,
        rngAnswers := rest, rngDraws := s.rngDraws + 1, cmdcnt := s.cmdcnt + 1, busy := false, done := true })

/-- `45_mlkem.md` R238: the selection by mask gives `K'` if the two ciphertexts are equal and `Kbar` otherwise. -/
def Obligations.SelectionByMask : Prop :=
  ∀ c c' K' Kbar : Bytes, c.length = c'.length → K'.length = 32 → Kbar.length = 32 →
    select c c' K' Kbar = (if c' = c then K' else Kbar) ∧
      maskOf (diffBytes c c') = (if c' = c then 0x00 else 0xFF)

/-- `45_mlkem.md` R237, R239, R241: with lengths and addresses right `MLKEM_DECAPS` completes, whatever the bytes of `dk` and
c: it stores `K'` if the re-encryption gives c back, else J(z ‖ c), and never an error; where the matrix is undefined the
engine has no step (log entry 3). -/
def Obligations.MlkemDecapsCompletesByImplicitRejection : Prop :=
  ∀ s : State, LengthsMatch .mlkemDecaps s → OperandsFit .mlkemDecaps s →
    let ps := paramRow s.pset
    let dk := s.bmem.readBytes (s.x[4]).toNat (768 * ps.k + 96)
    let c := s.bmem.readBytes (s.x[6]).toNat (32 * (ps.du * ps.k + ps.dv))
    let ek := (dk.drop (384 * ps.k)).take (384 * ps.k + 32)
    let h := (dk.drop (768 * ps.k + 32)).take 32
    let z := (dk.drop (768 * ps.k + 64)).take 32
    let m' := kpkeDecrypt ps (dk.take (384 * ps.k)) c
    let g := (Config.hashG (m' ++ h)).toList
    exec .mlkemDecaps s = .next ((kpkeEncrypt ps ek m' (g.drop 32)).elim s fun c' =>
      { s with
        bmem := s.bmem.writeBytes (s.x[1]).toNat (if c' = c then g.take 32 else (Config.hashJ (z ++ c)).toList),
        cmdcnt := s.cmdcnt + 1, busy := false, done := true })

/-- `45_mlkem.md` R237: no status bit, no information word and no register tells whether the ciphertext was accepted. Two
pending decapsulations that differ only in memory end in blocks that differ only in memory, unless one of them hangs. -/
def Obligations.DecapsStatusTellsNothing : Prop :=
  ∀ (s t t' : State) (m : Memory), s.busy = true → exec .mlkemDecaps s = .next t →
    exec .mlkemDecaps { s with bmem := m } = .next t' →
    t' = { t with bmem := t'.bmem } ∨ t = s ∨ t' = { s with bmem := m }

end ObligationStatements
end

