-- ==== Sys2Proof/Laws/Memory.lean ====
section
/-! SUPPORT. The laws of the byte memory: every operation keeps the canonical form, a read after a write gives what was
written at the same address and what was there before at every other. -/

namespace Sys2Proof.Machine

/-! ## Lists of cells -/

theorem lookupCell_insertCell_ne (l : List Host.Cell) {a a' : Nat} (h : a' ≠ a) (b : Byte) :
    lookupCell (insertCell l a b) a' = lookupCell l a' := by
  induction l with
  | nil => by_cases hb : b = Memory.unlisted <;> simp [insertCell, lookupCell, hb, h]
  | cons c rest ih =>
    obtain ⟨k, v⟩ := c
    simp only [insertCell]
    split
    · split <;> simp [lookupCell, h]
    · split
      · next hk => subst hk; split <;> simp [lookupCell, h]
      · simp [lookupCell, ih]

/-- The addresses of a rising list are above the one that stands before it. -/
theorem risingCells_cons {a : Nat} {v : Byte} {l : List Host.Cell} :
    risingCells ((a, v) :: l) = true ↔ (∀ c ∈ l, a < c.1) ∧ risingCells l = true := by
  induction l generalizing a v with
  | nil => simp [risingCells]
  | cons c rest ih =>
    obtain ⟨k, w⟩ := c
    simp only [risingCells, Bool.and_eq_true, decide_eq_true_eq, List.mem_cons, forall_eq_or_imp]
    constructor
    · rintro ⟨h1, h2⟩
      exact ⟨⟨h1, fun c hc => Nat.lt_trans h1 ((ih.mp h2).1 c hc)⟩, h2⟩
    · rintro ⟨⟨h1, -⟩, h2⟩
      exact ⟨h1, h2⟩

theorem lookupCell_eq_unlisted {l : List Host.Cell} {a : Nat} (h : ∀ c ∈ l, c.1 ≠ a) :
    lookupCell l a = Memory.unlisted := by
  induction l with
  | nil => rfl
  | cons c rest ih =>
    obtain ⟨k, v⟩ := c
    have hk : ¬ a = k := fun e => h (k, v) (by simp) e.symm
    simp [lookupCell, hk, ih fun c hc => h c (by simp [hc])]

theorem lookupCell_insertCell_self {l : List Host.Cell} (hl : risingCells l = true) (a : Nat) (b : Byte) :
    lookupCell (insertCell l a b) a = b := by
  induction l with
  | nil => by_cases hb : b = Memory.unlisted <;> simp [insertCell, lookupCell, hb]
  | cons c rest ih =>
    obtain ⟨k, v⟩ := c
    obtain ⟨hk, hr⟩ := risingCells_cons.mp hl
    simp only [insertCell]
    split
    · next hlt =>
      split
      · next hb =>
        rw [hb]
        refine lookupCell_eq_unlisted fun c hc => ?_
        rcases List.mem_cons.mp hc with rfl | hc
        · exact Nat.ne_of_gt hlt
        · exact Nat.ne_of_gt (Nat.lt_trans hlt (hk c hc))
      · simp [lookupCell]
    · split
      · next hak =>
        subst hak
        split
        · next hb =>
          rw [hb]
          exact lookupCell_eq_unlisted fun c hc => Nat.ne_of_gt (hk c hc)
        · simp [lookupCell]
      · next hne => simp [lookupCell, hne, ih hr]

/-- A cell of an updated list is a cell of the list or the one written. -/
theorem mem_insertCell {l : List Host.Cell} {a : Nat} {b : Byte} {c : Host.Cell} (h : c ∈ insertCell l a b) :
    c ∈ l ∨ (c = (a, b) ∧ b ≠ Memory.unlisted) := by
  induction l with
  | nil =>
    by_cases hb : b = Memory.unlisted
    · simp [insertCell, hb] at h
    · simp [insertCell, hb] at h
      exact .inr ⟨h, hb⟩
  | cons d rest ih =>
    obtain ⟨k, v⟩ := d
    simp only [insertCell] at h
    split at h
    · split at h
      · exact .inl h
      · next hb => rcases List.mem_cons.mp h with rfl | h
                   · exact .inr ⟨rfl, hb⟩
                   · exact .inl h
    · split at h
      · split at h
        · exact .inl (List.mem_cons_of_mem _ h)
        · next hb => rcases List.mem_cons.mp h with rfl | h
                     · exact .inr ⟨rfl, hb⟩
                     · exact .inl (List.mem_cons_of_mem _ h)
      · rcases List.mem_cons.mp h with rfl | h
        · exact .inl (by simp)
        · exact (ih h).imp_left (List.mem_cons_of_mem _)

theorem risingCells_insertCell {l : List Host.Cell} (hl : risingCells l = true) (a : Nat) (b : Byte) :
    risingCells (insertCell l a b) = true := by
  induction l with
  | nil => by_cases hb : b = Memory.unlisted <;> simp [insertCell, risingCells, hb]
  | cons c rest ih =>
    obtain ⟨k, v⟩ := c
    obtain ⟨hk, hr⟩ := risingCells_cons.mp hl
    simp only [insertCell]
    split
    · next hlt =>
      split
      · exact hl
      · exact risingCells_cons.mpr ⟨fun c hc => by
          rcases List.mem_cons.mp hc with rfl | hc
          · exact hlt
          · exact Nat.lt_trans hlt (hk c hc), hl⟩
    · next hge =>
      split
      · next hak =>
        subst hak
        split
        · exact hr
        · exact risingCells_cons.mpr ⟨hk, hr⟩
      · next hne =>
        refine risingCells_cons.mpr ⟨fun c hc => ?_, ih hr⟩
        rcases mem_insertCell hc with hc | ⟨rfl, -⟩
        · exact hk c hc
        · exact Nat.lt_of_le_of_ne (Nat.le_of_not_lt hge) (Ne.symm hne)

/-! ## The canonical form -/

theorem Memory.wf_iff {m : Memory} : m.wf = true ↔
    risingCells m.cells = true ∧ ∀ c ∈ m.cells, c.1 < bmemSize ∧ c.2 ≠ Memory.unlisted := by
  simp [Memory.wf]

theorem Memory.empty_wf : (⟨[]⟩ : Memory).wf = true := rfl

theorem Memory.write_wf {m : Memory} (h : m.wf = true) (a : Nat) (b : Byte) : (m.write a b).wf = true := by
  obtain ⟨hr, hc⟩ := Memory.wf_iff.mp h
  unfold Memory.write
  split
  · next ha =>
    refine Memory.wf_iff.mpr ⟨risingCells_insertCell hr a b, fun c hm => ?_⟩
    rcases mem_insertCell hm with hm | ⟨rfl, hb⟩
    · exact hc c hm
    · exact ⟨ha, hb⟩
  · exact h

theorem Memory.writeBytes_wf {m : Memory} (h : m.wf = true) (a : Nat) (v : Bytes) : (m.writeBytes a v).wf = true := by
  induction v generalizing m a with
  | nil => exact h
  | cons b rest ih => exact ih (Memory.write_wf h a b) (a + 1)

/-! ## Reads after writes -/

theorem Memory.read_write_self {m : Memory} (h : m.wf = true) {a : Nat} (ha : a < bmemSize) (b : Byte) :
    (m.write a b).read a = b := by
  simp only [Memory.write, ha, if_true, Memory.read]
  exact lookupCell_insertCell_self (Memory.wf_iff.mp h).1 a b

theorem Memory.read_write_ne (m : Memory) {a a' : Nat} (h : a' ≠ a) (b : Byte) : (m.write a b).read a' = m.read a' := by
  unfold Memory.write
  split
  · exact lookupCell_insertCell_ne _ h b
  · rfl

/-- Outside the bytes written, every byte reads as before. -/
theorem Memory.read_writeBytes_outside (m : Memory) {a x : Nat} (v : Bytes) (h : x < a ∨ a + v.length ≤ x) :
    (m.writeBytes a v).read x = m.read x := by
  induction v generalizing m a with
  | nil => rfl
  | cons b rest ih =>
    rw [List.length_cons] at h
    rw [Memory.writeBytes, ih (m.write a b) (by omega), Memory.read_write_ne m (by omega)]

/-- Inside the bytes written, byte `i` reads as byte `i` of the string. -/
theorem Memory.read_writeBytes_inside {m : Memory} (hm : m.wf = true) {a : Nat} (v : Bytes) (hfit : a + v.length ≤ bmemSize)
    (i : Nat) (hi : i < v.length) : (m.writeBytes a v).read (a + i) = v[i] := by
  induction v generalizing m a i with
  | nil => simp at hi
  | cons b rest ih =>
    rw [List.length_cons] at hfit hi
    rw [Memory.writeBytes]
    cases i with
    | zero =>
      have ha : a < bmemSize := by omega
      exact (Memory.read_writeBytes_outside _ rest (.inl (by omega))).trans (Memory.read_write_self hm ha b)
    | succ n =>
      have := ih (Memory.write_wf hm a b) (a := a + 1) (by omega) n (by omega)
      rw [show a + (n + 1) = a + 1 + n by omega, this]
      rfl

@[simp] theorem Memory.readBytes_length (m : Memory) (a n : Nat) : (m.readBytes a n).length = n := by
  simp [Memory.readBytes]

@[simp] theorem Memory.readBytes_getElem (m : Memory) (a n i : Nat) (h : i < (m.readBytes a n).length) :
    (m.readBytes a n)[i] = m.read (a + i) := by
  simp [Memory.readBytes]

end Sys2Proof.Machine
end

