-- ==== Sys2Proof/Laws/State.lean ====
section
/-! SUPPORT. One lemma per field per update of State, true by rfl: no later proof unfolds a record update. -/

namespace Sys2Proof.Machine

variable (s : State)

/-! ## writeX -/

@[simp] theorem State.writeX_x (i : RegNum) (v : Half) : (s.writeX i v).x = s.x.set i v := rfl
@[simp] theorem State.writeX_p (i : RegNum) (v : Half) : (s.writeX i v).p = s.p := rfl
@[simp] theorem State.writeX_bmem (i : RegNum) (v : Half) : (s.writeX i v).bmem = s.bmem := rfl
@[simp] theorem State.writeX_ieDone (i : RegNum) (v : Half) : (s.writeX i v).ieDone = s.ieDone := rfl
@[simp] theorem State.writeX_ieErr (i : RegNum) (v : Half) : (s.writeX i v).ieErr = s.ieErr := rfl
@[simp] theorem State.writeX_busy (i : RegNum) (v : Half) : (s.writeX i v).busy = s.busy := rfl
@[simp] theorem State.writeX_done (i : RegNum) (v : Half) : (s.writeX i v).done = s.done := rfl
@[simp] theorem State.writeX_busErr (i : RegNum) (v : Half) : (s.writeX i v).busErr = s.busErr := rfl
@[simp] theorem State.writeX_err (i : RegNum) (v : Half) : (s.writeX i v).err = s.err := rfl
@[simp] theorem State.writeX_cmdreg (i : RegNum) (v : Half) : (s.writeX i v).cmdreg = s.cmdreg := rfl
@[simp] theorem State.writeX_pset (i : RegNum) (v : Half) : (s.writeX i v).pset = s.pset := rfl
@[simp] theorem State.writeX_ecmd (i : RegNum) (v : Half) : (s.writeX i v).ecmd = s.ecmd := rfl
@[simp] theorem State.writeX_einfo (i : RegNum) (v : Half) : (s.writeX i v).einfo = s.einfo := rfl
@[simp] theorem State.writeX_cmdcnt (i : RegNum) (v : Half) : (s.writeX i v).cmdcnt = s.cmdcnt := rfl
@[simp] theorem State.writeX_schedule (i : RegNum) (v : Half) : (s.writeX i v).schedule = s.schedule := rfl
@[simp] theorem State.writeX_busReply (i : RegNum) (v : Half) : (s.writeX i v).busReply = s.busReply := rfl
@[simp] theorem State.writeX_rngAnswers (i : RegNum) (v : Half) : (s.writeX i v).rngAnswers = s.rngAnswers := rfl
@[simp] theorem State.writeX_rngDraws (i : RegNum) (v : Half) : (s.writeX i v).rngDraws = s.rngDraws := rfl

/-! ## writeP -/

@[simp] theorem State.writeP_x (i : RegNum) (f : RingElt) : (s.writeP i f).x = s.x := rfl
@[simp] theorem State.writeP_p (i : RegNum) (f : RingElt) : (s.writeP i f).p = s.p.set i f := rfl
@[simp] theorem State.writeP_bmem (i : RegNum) (f : RingElt) : (s.writeP i f).bmem = s.bmem := rfl
@[simp] theorem State.writeP_ieDone (i : RegNum) (f : RingElt) : (s.writeP i f).ieDone = s.ieDone := rfl
@[simp] theorem State.writeP_ieErr (i : RegNum) (f : RingElt) : (s.writeP i f).ieErr = s.ieErr := rfl
@[simp] theorem State.writeP_busy (i : RegNum) (f : RingElt) : (s.writeP i f).busy = s.busy := rfl
@[simp] theorem State.writeP_done (i : RegNum) (f : RingElt) : (s.writeP i f).done = s.done := rfl
@[simp] theorem State.writeP_busErr (i : RegNum) (f : RingElt) : (s.writeP i f).busErr = s.busErr := rfl
@[simp] theorem State.writeP_err (i : RegNum) (f : RingElt) : (s.writeP i f).err = s.err := rfl
@[simp] theorem State.writeP_cmdreg (i : RegNum) (f : RingElt) : (s.writeP i f).cmdreg = s.cmdreg := rfl
@[simp] theorem State.writeP_pset (i : RegNum) (f : RingElt) : (s.writeP i f).pset = s.pset := rfl
@[simp] theorem State.writeP_ecmd (i : RegNum) (f : RingElt) : (s.writeP i f).ecmd = s.ecmd := rfl
@[simp] theorem State.writeP_einfo (i : RegNum) (f : RingElt) : (s.writeP i f).einfo = s.einfo := rfl
@[simp] theorem State.writeP_cmdcnt (i : RegNum) (f : RingElt) : (s.writeP i f).cmdcnt = s.cmdcnt := rfl
@[simp] theorem State.writeP_schedule (i : RegNum) (f : RingElt) : (s.writeP i f).schedule = s.schedule := rfl
@[simp] theorem State.writeP_busReply (i : RegNum) (f : RingElt) : (s.writeP i f).busReply = s.busReply := rfl
@[simp] theorem State.writeP_rngAnswers (i : RegNum) (f : RingElt) : (s.writeP i f).rngAnswers = s.rngAnswers := rfl
@[simp] theorem State.writeP_rngDraws (i : RegNum) (f : RingElt) : (s.writeP i f).rngDraws = s.rngDraws := rfl

/-! ## store -/

@[simp] theorem State.store_x (a : Half) (v : Bytes) : (s.store a v).x = s.x := rfl
@[simp] theorem State.store_p (a : Half) (v : Bytes) : (s.store a v).p = s.p := rfl
@[simp] theorem State.store_bmem (a : Half) (v : Bytes) : (s.store a v).bmem = s.bmem.writeBytes a.toNat v := rfl
@[simp] theorem State.store_ieDone (a : Half) (v : Bytes) : (s.store a v).ieDone = s.ieDone := rfl
@[simp] theorem State.store_ieErr (a : Half) (v : Bytes) : (s.store a v).ieErr = s.ieErr := rfl
@[simp] theorem State.store_busy (a : Half) (v : Bytes) : (s.store a v).busy = s.busy := rfl
@[simp] theorem State.store_done (a : Half) (v : Bytes) : (s.store a v).done = s.done := rfl
@[simp] theorem State.store_busErr (a : Half) (v : Bytes) : (s.store a v).busErr = s.busErr := rfl
@[simp] theorem State.store_err (a : Half) (v : Bytes) : (s.store a v).err = s.err := rfl
@[simp] theorem State.store_cmdreg (a : Half) (v : Bytes) : (s.store a v).cmdreg = s.cmdreg := rfl
@[simp] theorem State.store_pset (a : Half) (v : Bytes) : (s.store a v).pset = s.pset := rfl
@[simp] theorem State.store_ecmd (a : Half) (v : Bytes) : (s.store a v).ecmd = s.ecmd := rfl
@[simp] theorem State.store_einfo (a : Half) (v : Bytes) : (s.store a v).einfo = s.einfo := rfl
@[simp] theorem State.store_cmdcnt (a : Half) (v : Bytes) : (s.store a v).cmdcnt = s.cmdcnt := rfl
@[simp] theorem State.store_schedule (a : Half) (v : Bytes) : (s.store a v).schedule = s.schedule := rfl
@[simp] theorem State.store_busReply (a : Half) (v : Bytes) : (s.store a v).busReply = s.busReply := rfl
@[simp] theorem State.store_rngAnswers (a : Half) (v : Bytes) : (s.store a v).rngAnswers = s.rngAnswers := rfl
@[simp] theorem State.store_rngDraws (a : Half) (v : Bytes) : (s.store a v).rngDraws = s.rngDraws := rfl

/-! ## raiseError -/

@[simp] theorem State.raiseError_x (e : CmdError) : (s.raiseError e).x = s.x := rfl
@[simp] theorem State.raiseError_p (e : CmdError) : (s.raiseError e).p = s.p := rfl
@[simp] theorem State.raiseError_bmem (e : CmdError) : (s.raiseError e).bmem = s.bmem := rfl
@[simp] theorem State.raiseError_ieDone (e : CmdError) : (s.raiseError e).ieDone = s.ieDone := rfl
@[simp] theorem State.raiseError_ieErr (e : CmdError) : (s.raiseError e).ieErr = s.ieErr := rfl
@[simp] theorem State.raiseError_busy (e : CmdError) : (s.raiseError e).busy = false := rfl
@[simp] theorem State.raiseError_done (e : CmdError) : (s.raiseError e).done = true := rfl
@[simp] theorem State.raiseError_busErr (e : CmdError) : (s.raiseError e).busErr = s.busErr := rfl
@[simp] theorem State.raiseError_err (e : CmdError) : (s.raiseError e).err = e.code := rfl
@[simp] theorem State.raiseError_cmdreg (e : CmdError) : (s.raiseError e).cmdreg = s.cmdreg := rfl
@[simp] theorem State.raiseError_pset (e : CmdError) : (s.raiseError e).pset = s.pset := rfl
@[simp] theorem State.raiseError_ecmd (e : CmdError) : (s.raiseError e).ecmd = s.cmdreg := rfl
@[simp] theorem State.raiseError_einfo (e : CmdError) : (s.raiseError e).einfo = e.info := rfl
@[simp] theorem State.raiseError_cmdcnt (e : CmdError) : (s.raiseError e).cmdcnt = s.cmdcnt := rfl
@[simp] theorem State.raiseError_schedule (e : CmdError) : (s.raiseError e).schedule = s.schedule := rfl
@[simp] theorem State.raiseError_busReply (e : CmdError) : (s.raiseError e).busReply = s.busReply := rfl
@[simp] theorem State.raiseError_rngAnswers (e : CmdError) : (s.raiseError e).rngAnswers = s.rngAnswers := rfl
@[simp] theorem State.raiseError_rngDraws (e : CmdError) : (s.raiseError e).rngDraws = s.rngDraws := rfl

/-! ## clearError -/

@[simp] theorem State.clearError_x : s.clearError.x = s.x := rfl
@[simp] theorem State.clearError_p : s.clearError.p = s.p := rfl
@[simp] theorem State.clearError_bmem : s.clearError.bmem = s.bmem := rfl
@[simp] theorem State.clearError_ieDone : s.clearError.ieDone = s.ieDone := rfl
@[simp] theorem State.clearError_ieErr : s.clearError.ieErr = s.ieErr := rfl
@[simp] theorem State.clearError_busy : s.clearError.busy = s.busy := rfl
@[simp] theorem State.clearError_done : s.clearError.done = s.done := rfl
@[simp] theorem State.clearError_busErr : s.clearError.busErr = s.busErr := rfl
@[simp] theorem State.clearError_err : s.clearError.err = 0 := rfl
@[simp] theorem State.clearError_cmdreg : s.clearError.cmdreg = s.cmdreg := rfl
@[simp] theorem State.clearError_pset : s.clearError.pset = s.pset := rfl
@[simp] theorem State.clearError_ecmd : s.clearError.ecmd = 0 := rfl
@[simp] theorem State.clearError_einfo : s.clearError.einfo = 0 := rfl
@[simp] theorem State.clearError_cmdcnt : s.clearError.cmdcnt = s.cmdcnt := rfl
@[simp] theorem State.clearError_schedule : s.clearError.schedule = s.schedule := rfl
@[simp] theorem State.clearError_busReply : s.clearError.busReply = s.busReply := rfl
@[simp] theorem State.clearError_rngAnswers : s.clearError.rngAnswers = s.rngAnswers := rfl
@[simp] theorem State.clearError_rngDraws : s.clearError.rngDraws = s.rngDraws := rfl

/-! ## complete -/

@[simp] theorem State.complete_x : s.complete.x = s.x := rfl
@[simp] theorem State.complete_p : s.complete.p = s.p := rfl
@[simp] theorem State.complete_bmem : s.complete.bmem = s.bmem := rfl
@[simp] theorem State.complete_ieDone : s.complete.ieDone = s.ieDone := rfl
@[simp] theorem State.complete_ieErr : s.complete.ieErr = s.ieErr := rfl
@[simp] theorem State.complete_busy : s.complete.busy = false := rfl
@[simp] theorem State.complete_done : s.complete.done = true := rfl
@[simp] theorem State.complete_busErr : s.complete.busErr = s.busErr := rfl
@[simp] theorem State.complete_err : s.complete.err = s.err := rfl
@[simp] theorem State.complete_cmdreg : s.complete.cmdreg = s.cmdreg := rfl
@[simp] theorem State.complete_pset : s.complete.pset = s.pset := rfl
@[simp] theorem State.complete_ecmd : s.complete.ecmd = s.ecmd := rfl
@[simp] theorem State.complete_einfo : s.complete.einfo = s.einfo := rfl
@[simp] theorem State.complete_cmdcnt : s.complete.cmdcnt = s.cmdcnt + 1 := rfl
@[simp] theorem State.complete_schedule : s.complete.schedule = s.schedule := rfl
@[simp] theorem State.complete_busReply : s.complete.busReply = s.busReply := rfl
@[simp] theorem State.complete_rngAnswers : s.complete.rngAnswers = s.rngAnswers := rfl
@[simp] theorem State.complete_rngDraws : s.complete.rngDraws = s.rngDraws := rfl

/-! ## acceptCommand -/

@[simp] theorem State.acceptCommand_x (w : Word) : (s.acceptCommand w).x = s.x := rfl
@[simp] theorem State.acceptCommand_p (w : Word) : (s.acceptCommand w).p = s.p := rfl
@[simp] theorem State.acceptCommand_bmem (w : Word) : (s.acceptCommand w).bmem = s.bmem := rfl
@[simp] theorem State.acceptCommand_ieDone (w : Word) : (s.acceptCommand w).ieDone = s.ieDone := rfl
@[simp] theorem State.acceptCommand_ieErr (w : Word) : (s.acceptCommand w).ieErr = s.ieErr := rfl
@[simp] theorem State.acceptCommand_busy (w : Word) : (s.acceptCommand w).busy = true := rfl
@[simp] theorem State.acceptCommand_done (w : Word) : (s.acceptCommand w).done = false := rfl
@[simp] theorem State.acceptCommand_busErr (w : Word) : (s.acceptCommand w).busErr = s.busErr := rfl
@[simp] theorem State.acceptCommand_err (w : Word) : (s.acceptCommand w).err = s.err := rfl
@[simp] theorem State.acceptCommand_cmdreg (w : Word) : (s.acceptCommand w).cmdreg = w := rfl
@[simp] theorem State.acceptCommand_pset (w : Word) : (s.acceptCommand w).pset = s.pset := rfl
@[simp] theorem State.acceptCommand_ecmd (w : Word) : (s.acceptCommand w).ecmd = s.ecmd := rfl
@[simp] theorem State.acceptCommand_einfo (w : Word) : (s.acceptCommand w).einfo = s.einfo := rfl
@[simp] theorem State.acceptCommand_cmdcnt (w : Word) : (s.acceptCommand w).cmdcnt = s.cmdcnt := rfl
@[simp] theorem State.acceptCommand_schedule (w : Word) : (s.acceptCommand w).schedule = s.schedule := rfl
@[simp] theorem State.acceptCommand_busReply (w : Word) : (s.acceptCommand w).busReply = s.busReply := rfl
@[simp] theorem State.acceptCommand_rngAnswers (w : Word) : (s.acceptCommand w).rngAnswers = s.rngAnswers := rfl
@[simp] theorem State.acceptCommand_rngDraws (w : Word) : (s.acceptCommand w).rngDraws = s.rngDraws := rfl

/-! ## zeroize -/

@[simp] theorem State.zeroize_x : s.zeroize.x = Vector.replicate 16 0 := rfl
@[simp] theorem State.zeroize_p : s.zeroize.p = Vector.replicate 16 (Vector.replicate 256 0) := rfl
@[simp] theorem State.zeroize_bmem : s.zeroize.bmem = ⟨[]⟩ := rfl
@[simp] theorem State.zeroize_ieDone : s.zeroize.ieDone = s.ieDone := rfl
@[simp] theorem State.zeroize_ieErr : s.zeroize.ieErr = s.ieErr := rfl
@[simp] theorem State.zeroize_busy : s.zeroize.busy = s.busy := rfl
@[simp] theorem State.zeroize_done : s.zeroize.done = s.done := rfl
@[simp] theorem State.zeroize_busErr : s.zeroize.busErr = s.busErr := rfl
@[simp] theorem State.zeroize_err : s.zeroize.err = s.err := rfl
@[simp] theorem State.zeroize_cmdreg : s.zeroize.cmdreg = s.cmdreg := rfl
@[simp] theorem State.zeroize_pset : s.zeroize.pset = s.pset := rfl
@[simp] theorem State.zeroize_ecmd : s.zeroize.ecmd = s.ecmd := rfl
@[simp] theorem State.zeroize_einfo : s.zeroize.einfo = s.einfo := rfl
@[simp] theorem State.zeroize_cmdcnt : s.zeroize.cmdcnt = s.cmdcnt := rfl
@[simp] theorem State.zeroize_schedule : s.zeroize.schedule = s.schedule := rfl
@[simp] theorem State.zeroize_busReply : s.zeroize.busReply = s.busReply := rfl
@[simp] theorem State.zeroize_rngAnswers : s.zeroize.rngAnswers = s.rngAnswers := rfl
@[simp] theorem State.zeroize_rngDraws : s.zeroize.rngDraws = s.rngDraws := rfl

/-! ## rejectRead -/

@[simp] theorem State.rejectRead_x : s.rejectRead.x = s.x := rfl
@[simp] theorem State.rejectRead_p : s.rejectRead.p = s.p := rfl
@[simp] theorem State.rejectRead_bmem : s.rejectRead.bmem = s.bmem := rfl
@[simp] theorem State.rejectRead_ieDone : s.rejectRead.ieDone = s.ieDone := rfl
@[simp] theorem State.rejectRead_ieErr : s.rejectRead.ieErr = s.ieErr := rfl
@[simp] theorem State.rejectRead_busy : s.rejectRead.busy = s.busy := rfl
@[simp] theorem State.rejectRead_done : s.rejectRead.done = s.done := rfl
@[simp] theorem State.rejectRead_busErr : s.rejectRead.busErr = true := rfl
@[simp] theorem State.rejectRead_err : s.rejectRead.err = s.err := rfl
@[simp] theorem State.rejectRead_cmdreg : s.rejectRead.cmdreg = s.cmdreg := rfl
@[simp] theorem State.rejectRead_pset : s.rejectRead.pset = s.pset := rfl
@[simp] theorem State.rejectRead_ecmd : s.rejectRead.ecmd = s.ecmd := rfl
@[simp] theorem State.rejectRead_einfo : s.rejectRead.einfo = s.einfo := rfl
@[simp] theorem State.rejectRead_cmdcnt : s.rejectRead.cmdcnt = s.cmdcnt := rfl
@[simp] theorem State.rejectRead_schedule : s.rejectRead.schedule = s.schedule := rfl
@[simp] theorem State.rejectRead_busReply : s.rejectRead.busReply = some (.read 0 false) := rfl
@[simp] theorem State.rejectRead_rngAnswers : s.rejectRead.rngAnswers = s.rngAnswers := rfl
@[simp] theorem State.rejectRead_rngDraws : s.rejectRead.rngDraws = s.rngDraws := rfl

/-! ## rejectWrite -/

@[simp] theorem State.rejectWrite_x : s.rejectWrite.x = s.x := rfl
@[simp] theorem State.rejectWrite_p : s.rejectWrite.p = s.p := rfl
@[simp] theorem State.rejectWrite_bmem : s.rejectWrite.bmem = s.bmem := rfl
@[simp] theorem State.rejectWrite_ieDone : s.rejectWrite.ieDone = s.ieDone := rfl
@[simp] theorem State.rejectWrite_ieErr : s.rejectWrite.ieErr = s.ieErr := rfl
@[simp] theorem State.rejectWrite_busy : s.rejectWrite.busy = s.busy := rfl
@[simp] theorem State.rejectWrite_done : s.rejectWrite.done = s.done := rfl
@[simp] theorem State.rejectWrite_busErr : s.rejectWrite.busErr = true := rfl
@[simp] theorem State.rejectWrite_err : s.rejectWrite.err = s.err := rfl
@[simp] theorem State.rejectWrite_cmdreg : s.rejectWrite.cmdreg = s.cmdreg := rfl
@[simp] theorem State.rejectWrite_pset : s.rejectWrite.pset = s.pset := rfl
@[simp] theorem State.rejectWrite_ecmd : s.rejectWrite.ecmd = s.ecmd := rfl
@[simp] theorem State.rejectWrite_einfo : s.rejectWrite.einfo = s.einfo := rfl
@[simp] theorem State.rejectWrite_cmdcnt : s.rejectWrite.cmdcnt = s.cmdcnt := rfl
@[simp] theorem State.rejectWrite_schedule : s.rejectWrite.schedule = s.schedule := rfl
@[simp] theorem State.rejectWrite_busReply : s.rejectWrite.busReply = some (.write false) := rfl
@[simp] theorem State.rejectWrite_rngAnswers : s.rejectWrite.rngAnswers = s.rngAnswers := rfl
@[simp] theorem State.rejectWrite_rngDraws : s.rejectWrite.rngDraws = s.rngDraws := rfl

/-! ## writeStatus -/

@[simp] theorem State.writeStatus_x (w : Word) : (s.writeStatus w).x = s.x := rfl
@[simp] theorem State.writeStatus_p (w : Word) : (s.writeStatus w).p = s.p := rfl
@[simp] theorem State.writeStatus_bmem (w : Word) : (s.writeStatus w).bmem = s.bmem := rfl
@[simp] theorem State.writeStatus_ieDone (w : Word) : (s.writeStatus w).ieDone = s.ieDone := rfl
@[simp] theorem State.writeStatus_ieErr (w : Word) : (s.writeStatus w).ieErr = s.ieErr := rfl
@[simp] theorem State.writeStatus_busy (w : Word) : (s.writeStatus w).busy = s.busy := rfl
@[simp] theorem State.writeStatus_done (w : Word) : (s.writeStatus w).done = (s.done && !w.getLsbD 1) := rfl
@[simp] theorem State.writeStatus_busErr (w : Word) : (s.writeStatus w).busErr = (s.busErr && !w.getLsbD 2) := rfl
@[simp] theorem State.writeStatus_err (w : Word) : (s.writeStatus w).err = s.err := rfl
@[simp] theorem State.writeStatus_cmdreg (w : Word) : (s.writeStatus w).cmdreg = s.cmdreg := rfl
@[simp] theorem State.writeStatus_pset (w : Word) : (s.writeStatus w).pset = s.pset := rfl
@[simp] theorem State.writeStatus_ecmd (w : Word) : (s.writeStatus w).ecmd = s.ecmd := rfl
@[simp] theorem State.writeStatus_einfo (w : Word) : (s.writeStatus w).einfo = s.einfo := rfl
@[simp] theorem State.writeStatus_cmdcnt (w : Word) : (s.writeStatus w).cmdcnt = s.cmdcnt := rfl
@[simp] theorem State.writeStatus_schedule (w : Word) : (s.writeStatus w).schedule = s.schedule := rfl
@[simp] theorem State.writeStatus_busReply (w : Word) : (s.writeStatus w).busReply = s.busReply := rfl
@[simp] theorem State.writeStatus_rngAnswers (w : Word) : (s.writeStatus w).rngAnswers = s.rngAnswers := rfl
@[simp] theorem State.writeStatus_rngDraws (w : Word) : (s.writeStatus w).rngDraws = s.rngDraws := rfl

/-! ## readX, readP, load after updates -/

@[simp] theorem State.writeX_readP (i : RegNum) (v : Half) (k : RegNum) : (s.writeX i v).readP k = s.readP k := rfl
@[simp] theorem State.writeX_load (i : RegNum) (v : Half) (k : Half) (n : Nat) : (s.writeX i v).load k n = s.load k n := rfl
@[simp] theorem State.writeP_readX (i : RegNum) (f : RingElt) (k : RegNum) : (s.writeP i f).readX k = s.readX k := rfl
@[simp] theorem State.writeP_load (i : RegNum) (f : RingElt) (k : Half) (n : Nat) : (s.writeP i f).load k n = s.load k n := rfl
@[simp] theorem State.store_readX (a : Half) (v : Bytes) (k : RegNum) : (s.store a v).readX k = s.readX k := rfl
@[simp] theorem State.store_readP (a : Half) (v : Bytes) (k : RegNum) : (s.store a v).readP k = s.readP k := rfl
@[simp] theorem State.raiseError_readX (e : CmdError) (k : RegNum) : (s.raiseError e).readX k = s.readX k := rfl
@[simp] theorem State.raiseError_readP (e : CmdError) (k : RegNum) : (s.raiseError e).readP k = s.readP k := rfl
@[simp] theorem State.raiseError_load (e : CmdError) (k : Half) (n : Nat) : (s.raiseError e).load k n = s.load k n := rfl
@[simp] theorem State.clearError_readX (k : RegNum) : s.clearError.readX k = s.readX k := rfl
@[simp] theorem State.clearError_readP (k : RegNum) : s.clearError.readP k = s.readP k := rfl
@[simp] theorem State.clearError_load (k : Half) (n : Nat) : s.clearError.load k n = s.load k n := rfl
@[simp] theorem State.complete_readX (k : RegNum) : s.complete.readX k = s.readX k := rfl
@[simp] theorem State.complete_readP (k : RegNum) : s.complete.readP k = s.readP k := rfl
@[simp] theorem State.complete_load (k : Half) (n : Nat) : s.complete.load k n = s.load k n := rfl
@[simp] theorem State.acceptCommand_readX (w : Word) (k : RegNum) : (s.acceptCommand w).readX k = s.readX k := rfl
@[simp] theorem State.acceptCommand_readP (w : Word) (k : RegNum) : (s.acceptCommand w).readP k = s.readP k := rfl
@[simp] theorem State.acceptCommand_load (w : Word) (k : Half) (n : Nat) : (s.acceptCommand w).load k n = s.load k n := rfl
@[simp] theorem State.rejectRead_readX (k : RegNum) : s.rejectRead.readX k = s.readX k := rfl
@[simp] theorem State.rejectRead_readP (k : RegNum) : s.rejectRead.readP k = s.readP k := rfl
@[simp] theorem State.rejectRead_load (k : Half) (n : Nat) : s.rejectRead.load k n = s.load k n := rfl
@[simp] theorem State.rejectWrite_readX (k : RegNum) : s.rejectWrite.readX k = s.readX k := rfl
@[simp] theorem State.rejectWrite_readP (k : RegNum) : s.rejectWrite.readP k = s.readP k := rfl
@[simp] theorem State.rejectWrite_load (k : Half) (n : Nat) : s.rejectWrite.load k n = s.load k n := rfl
@[simp] theorem State.writeStatus_readX (w : Word) (k : RegNum) : (s.writeStatus w).readX k = s.readX k := rfl
@[simp] theorem State.writeStatus_readP (w : Word) (k : RegNum) : (s.writeStatus w).readP k = s.readP k := rfl
@[simp] theorem State.writeStatus_load (w : Word) (k : Half) (n : Nat) : (s.writeStatus w).load k n = s.load k n := rfl

/-- Reading the register just written gives the value written. -/
@[simp] theorem State.writeX_readX_self (i : RegNum) (v : Half) : (s.writeX i v).readX i = v := by
  simp [State.readX, State.writeX]

/-- Writing a scalar register leaves every other one alone. -/
theorem State.writeX_readX_ne {i k : RegNum} (h : i ≠ k) (v : Half) : (s.writeX i v).readX k = s.readX k := by
  have hv : i.val ≠ k.val := fun e => h (Fin.ext e)
  simp [State.readX, State.writeX, hv]

/-- Reading the polynomial register just written gives the element written. -/
@[simp] theorem State.writeP_readP_self (i : RegNum) (f : RingElt) : (s.writeP i f).readP i = f := by
  simp [State.readP, State.writeP]

/-- Writing a polynomial register leaves every other one alone. -/
theorem State.writeP_readP_ne {i k : RegNum} (h : i ≠ k) (f : RingElt) : (s.writeP i f).readP k = s.readP k := by
  have hv : i.val ≠ k.val := fun e => h (Fin.ext e)
  simp [State.readP, State.writeP, hv]

end Sys2Proof.Machine
end

