-- ==== Sys2Proof/Laws/Ops.lean ====
section
/-! SUPPORT. What each shared operation can do, said once: the checks, the ends of a command, the random port. -/

namespace Sys2Proof.Machine

/-! ## Checks -/

@[simp] theorem firstError_nil : firstError [] = none := rfl

@[simp] theorem firstError_some (e : CmdError) (l : List (Option CmdError)) : firstError (some e :: l) = some e := rfl

@[simp] theorem firstError_none (l : List (Option CmdError)) : firstError (none :: l) = firstError l := rfl

/-- No check fails iff the first does not and none of the rest does. -/
@[simp] theorem firstError_cons_eq_none {c : Option CmdError} {l : List (Option CmdError)} :
    firstError (c :: l) = none ↔ c = none ∧ firstError l = none := by
  cases c <;> simp

@[simp] theorem lengthCheck_eq_none {idx : BitVec 4} {v : Half} {n : Nat} : lengthCheck idx v n = none ↔ v.toNat = n := by
  unfold lengthCheck; split <;> simp [*]

@[simp] theorem addressCheck_eq_none {idx : BitVec 4} {a : Half} {n : Nat} :
    addressCheck idx a n = none ↔ a.toNat + n ≤ bmemSize := by
  unfold addressCheck; split <;> simp_all

@[simp] theorem rangeCheck_eq_none {idx : BitVec 4} {v : Half} : rangeCheck idx v = none ↔ v.toNat < 3329 := by
  unfold rangeCheck; split <;> simp_all

@[simp] theorem fieldCheck_eq_none {b : Bool} : fieldCheck b = none ↔ b = true := by
  cases b <;> simp [fieldCheck]

/-- A checked command always answers a next state: its first error raised, or its end `t`. -/
theorem State.checked_cases (s : State) (l : List (Option CmdError)) (t : State) :
    (∃ e, firstError l = some e ∧ s.checked l t = .next (s.raiseError e)) ∨
      (firstError l = none ∧ s.checked l t = .next t) := by
  unfold State.checked
  cases firstError l with
  | none => exact .inr ⟨rfl, rfl⟩
  | some e => exact .inl ⟨e, rfl, rfl⟩

theorem State.checked_of_none {s : State} {l : List (Option CmdError)} {t : State} (h : firstError l = none) :
    s.checked l t = .next t := by
  simp [State.checked, h]

theorem State.checked_of_some {s : State} {l : List (Option CmdError)} {t : State} {e : CmdError}
    (h : firstError l = some e) : s.checked l t = .next (s.raiseError e) := by
  simp [State.checked, h]

/-! ## The end of a computation that may be undefined -/

@[simp] theorem State.completeIfDefined_some (s t : State) : s.completeIfDefined (some t) = t.complete := rfl

@[simp] theorem State.completeIfDefined_none (s : State) : s.completeIfDefined none = s := rfl

/-! ## The random port -/

/-- A request changes nothing but the model's own two fields of the random port. -/
theorem State.rngRequest_state (s : State) :
    s.rngRequest.2 = { s with rngAnswers := s.rngAnswers.tail, rngDraws := s.rngDraws + 1 } := by
  obtain ⟨x, p, bmem, ieDone, ieErr, busy, done, busErr, err, cmdreg, pset, ecmd, einfo, cmdcnt, sch, br, ans, n⟩ := s
  cases ans <;> rfl

theorem State.rngRequest_of_cons {s : State} {a : RngAnswer} {rest : List RngAnswer} (h : s.rngAnswers = a :: rest) :
    s.rngRequest = (a, { s with rngAnswers := rest, rngDraws := s.rngDraws + 1 }) := by
  simp [State.rngRequest, h]

/-! ## The error words -/

theorem CmdError.code_ne_zero (e : CmdError) : e.code ≠ 0 := by
  cases e <;> simp [CmdError.code]

theorem CmdError.code_le_five (e : CmdError) : e.code ≤ 5 := by
  cases e <;> simp [CmdError.code]

end Sys2Proof.Machine
end

