-- ==== Sys2Proof/Laws/HostPort.lean ====
section
/-! SUPPORT. What one host access can do, said once (`20_memory.md` R67, R69). -/

namespace Sys2Proof.Machine

/-- A read is rejected, or it changes nothing but the bus's reply. -/
theorem State.hostRead_cases (s : State) (addr : BitVec 14) :
    s.hostRead addr = s.rejectRead ∨
      ∃ r, regAddr addr = some r ∧ (s.busy = false ∨ readableWhileBusy r = true) ∧
        s.hostRead addr = { s with busReply := some (.read (s.readData r) true) } := by
  unfold State.hostRead
  cases regAddr addr with
  | none => exact .inl rfl
  | some r =>
    by_cases h : (s.busy && !readableWhileBusy r) = true
    · simp [h]
    · refine .inr ⟨r, rfl, ?_, by simp [h]⟩
      simp at h
      by_cases hb : s.busy = true
      · exact .inr (h hb)
      · exact .inl (by simpa using hb)

/-- A write is rejected, or the block is idle and the register's write is made. -/
theorem State.hostWrite_cases (s : State) (addr : BitVec 14) (w : Word) :
    s.hostWrite addr w = s.rejectWrite ∨
      ∃ r t, s.busy = false ∧ regAddr addr = some r ∧ s.writeReg w r = some t ∧
        s.hostWrite addr w = { t with busReply := some (.write true) } := by
  unfold State.hostWrite
  cases hb : s.busy with
  | true => exact .inl rfl
  | false =>
    cases hr : regAddr addr with
    | none => exact .inl rfl
    | some r =>
      cases hw : s.writeReg w r with
      | none => exact .inl (by simp [hw])
      | some t => exact .inr ⟨r, t, rfl, rfl, hw, by simp [hw]⟩

/-- While a command is pending every write is rejected (`20_memory.md` R68). -/
theorem State.hostWrite_of_busy {s : State} (h : s.busy = true) (addr : BitVec 14) (w : Word) :
    s.hostWrite addr w = s.rejectWrite := by
  simp [State.hostWrite, h]

/-- What a served write to each register does (`20_memory.md` R69). -/
theorem State.writeReg_some {s t : State} {w : Word} {r : RegAddr} (h : s.writeReg w r = some t) :
    (r = .ctrl ∧ t = s.writeCtrl w) ∨ (r = .status ∧ t = s.writeStatus w) ∨
      (r = .cmd ∧ s.err = 0 ∧ t = s.acceptCommand w) ∨
      (r = .pset ∧ t = { s with pset := psetAfterWrite s.pset w }) ∨
      (∃ i, r = .xreg i ∧ t = s.writeX i (w.extractLsb' 0 16)) ∨
      (∃ o, r = .window o ∧ t = { s with bmem := s.bmem.writeBytes o (bytesOfWord w) }) := by
  cases r <;> simp_all [State.writeReg]

end Sys2Proof.Machine
end

