-- ==== Sys2Proof/Laws/Ring.lean ====
section
/-! SUPPORT. The laws of coefficients and lanes: each operation as arithmetic modulo q, each ring operation lane by lane. -/

namespace Sys2Proof.Machine

/-! ## Coefficients -/

@[simp] theorem Coeff.reduce_val (n : Nat) : (Coeff.reduce n).val = n % 3329 := rfl

/-- `modadd` is the sum modulo q (`40_control_scalar.md` R127). -/
@[simp] theorem Coeff.add_val (a b : Coeff) : (Coeff.add a b).val = (a.val + b.val) % 3329 := by
  have ha := a.isLt
  have hb := b.isLt
  simp only [Coeff.add, modadd]
  split <;> omega

/-- `modsub` is the difference modulo q (`40_control_scalar.md` R127). -/
@[simp] theorem Coeff.sub_val (a b : Coeff) : (Coeff.sub a b).val = (a.val + (3329 - b.val)) % 3329 := by
  have ha := a.isLt
  have hb := b.isLt
  simp only [Coeff.sub, modsub]
  split <;> omega

/-- `modneg` is the negative modulo q (`40_control_scalar.md` R127). -/
@[simp] theorem Coeff.neg_val (a : Coeff) : (Coeff.neg a).val = (3329 - a.val) % 3329 := by
  have ha := a.isLt
  simp only [Coeff.neg, modneg, modsub]
  split <;> omega

@[simp] theorem Coeff.mul_val (a b : Coeff) : (Coeff.mul a b).val = a.val * b.val % 3329 := rfl

/-- The operations are those of the ring of numbers modulo q. -/
theorem Coeff.add_eq (a b : Coeff) : Coeff.add a b = a + b := by
  ext; simp [Fin.val_add]

theorem Coeff.mul_eq (a b : Coeff) : Coeff.mul a b = a * b := by
  ext; simp [Fin.val_mul]

theorem Coeff.sub_eq (a b : Coeff) : Coeff.sub a b = a - b := by
  ext; simp [Fin.sub_def, Nat.add_comm]

/-! ## Lanes -/

theorem RingElt.lane_eq_getElem (f : RingElt) {j : Nat} (h : j < 256) : RingElt.lane f j = f[j] := by
  simp [RingElt.lane, h]

@[simp] theorem RingElt.getElem_ofLanes (g : Nat → Coeff) (j : Nat) (h : j < 256) : (RingElt.ofLanes g)[j] = g j := by
  simp [RingElt.ofLanes]

theorem RingElt.lane_ofLanes (g : Nat → Coeff) {j : Nat} (h : j < 256) : RingElt.lane (RingElt.ofLanes g) j = g j := by
  rw [RingElt.lane_eq_getElem _ h, RingElt.getElem_ofLanes g j h]

/-- Two ring elements with the same 256 lanes are equal. -/
theorem RingElt.ext_lane {f g : RingElt} (h : ∀ j < 256, RingElt.lane f j = RingElt.lane g j) : f = g := by
  ext j hj
  have := h j hj
  rw [RingElt.lane_eq_getElem f hj, RingElt.lane_eq_getElem g hj] at this
  exact congrArg Fin.val this

theorem RingElt.lane_zero (j : Nat) : RingElt.lane RingElt.zero j = 0 := by
  by_cases h : j < 256
  · simp [RingElt.lane_eq_getElem _ h, RingElt.zero]
  · simp [RingElt.lane, h]

theorem RingElt.lane_add (f g : RingElt) {j : Nat} (h : j < 256) :
    RingElt.lane (RingElt.add f g) j = Coeff.add (RingElt.lane f j) (RingElt.lane g j) := RingElt.lane_ofLanes _ h

theorem RingElt.lane_sub (f g : RingElt) {j : Nat} (h : j < 256) :
    RingElt.lane (RingElt.sub f g) j = Coeff.sub (RingElt.lane f j) (RingElt.lane g j) := RingElt.lane_ofLanes _ h

theorem RingElt.lane_neg (f : RingElt) {j : Nat} (h : j < 256) :
    RingElt.lane (RingElt.neg f) j = Coeff.neg (RingElt.lane f j) := RingElt.lane_ofLanes _ h

/-- What one layer of butterflies does to the two lanes of a butterfly (`41_ring_arithmetic.md` R149, R150). -/
theorem lane_butterflyLayer_low (bf : Coeff → Coeff → Coeff → Coeff × Coeff) (z : Nat → Coeff) (len : Nat) (f : RingElt)
    {j : Nat} (h : j < 256) (hlow : j % (2 * len) < len) :
    RingElt.lane (butterflyLayer bf z len f) j = (bf (RingElt.lane f j) (RingElt.lane f (j + len)) (z (j / (2 * len)))).1 := by
  rw [butterflyLayer, RingElt.lane_ofLanes _ h]
  simp [hlow]

theorem lane_butterflyLayer_high (bf : Coeff → Coeff → Coeff → Coeff × Coeff) (z : Nat → Coeff) (len : Nat) (f : RingElt)
    {j : Nat} (h : j < 256) (hhigh : ¬ j % (2 * len) < len) :
    RingElt.lane (butterflyLayer bf z len f) j = (bf (RingElt.lane f (j - len)) (RingElt.lane f j) (z (j / (2 * len)))).2 := by
  rw [butterflyLayer, RingElt.lane_ofLanes _ h]
  simp [hhigh]

end Sys2Proof.Machine
end

