-- ==== Sys2Proof/Laws/Kpke.lean ====
section
/-! SUPPORT. What the shared operations of K-PKE can do: lengths, the elements of an encoded vector, when the matrix is
defined, the dot product as a sum over indices. -/

namespace Sys2Proof.Machine

/-! ## The lengths of the parameter table (`00_scope.md` R12) -/

theorem paramRow_ekBytes (ps : ParamSet) : (paramRow ps).ekBytes = 384 * (paramRow ps).k + 32 := by cases ps <;> rfl

theorem paramRow_dkPkeBytes (ps : ParamSet) : (paramRow ps).dkPkeBytes = 384 * (paramRow ps).k := by cases ps <;> rfl

theorem paramRow_dkBytes (ps : ParamSet) : (paramRow ps).dkBytes = 768 * (paramRow ps).k + 96 := by cases ps <;> rfl

theorem paramRow_ctBytes (ps : ParamSet) :
    (paramRow ps).ctBytes = 32 * ((paramRow ps).du * (paramRow ps).k + (paramRow ps).dv) := by cases ps <;> rfl

/-! ## Encoded vectors (`44_kpke.md` R210) -/

@[simp] theorem byteEncode_length (d : Nat) (f : RingElt) : (byteEncode d f).length = 32 * d := by simp [byteEncode]

theorem encodeVec_length (d : Nat) (v : List RingElt) : (encodeVec d v).length = 32 * d * v.length := by
  induction v with
  | nil => rfl
  | cons x v ih =>
    simp only [encodeVec, List.flatMap_cons, List.length_append, byteEncode_length] at ih ⊢
    rw [ih, List.length_cons]; ring

/-- Element `i` of an encoded vector stands at byte `32·d·i`. -/
theorem encodeVec_element (d : Nat) (v : List RingElt) (rest : Bytes) {i : Nat} (h : i < v.length) :
    ((encodeVec d v ++ rest).drop (32 * d * i)).take (32 * d) = byteEncode d v[i] := by
  induction v generalizing i with
  | nil => simp at h
  | cons x v ih =>
    cases i with
    | zero => simp [encodeVec]
    | succ i =>
      have := ih (by simpa using h)
      simp only [encodeVec, List.flatMap_cons, List.append_assoc, List.getElem_cons_succ] at this ⊢
      rw [← this, Nat.mul_succ, Nat.add_comm, ← List.drop_drop, List.drop_left' (byteEncode_length d x)]

theorem lane_compressValue_lt (d : Nat) (f : RingElt) (j : Nat) : (RingElt.lane (compressValue d f) j).val < 2 ^ d := by
  by_cases h : j < 256
  · rw [compressValue, RingElt.lane_ofLanes _ h, Coeff.reduce_val]
    exact Nat.lt_of_le_of_lt (Nat.mod_le _ _) (Nat.mod_lt _ (by positivity))
  · have : RingElt.lane (compressValue d f) j = 0 := by simp [RingElt.lane, h]
    simp [this]

/-! ## The matrix (`44_kpke.md` R211) -/

/-- A list of partial values is undefined at a member, or defined member by member. -/
theorem mapM_option_cases {α β : Type} (f : α → Option β) (l : List α) :
    (l.mapM f = none ∧ ∃ x ∈ l, f x = none) ∨
      ∃ r, l.mapM f = some r ∧ r.length = l.length ∧ ∀ i (h : i < l.length), f l[i] = r[i]? := by
  induction l with
  | nil => exact .inr ⟨[], rfl, rfl, by simp⟩
  | cons a l ih =>
    rw [List.mapM_cons]
    cases ha : f a with
    | none => exact .inl (by simp [ha])
    | some b =>
      obtain ⟨h, x, hx, hf⟩ | ⟨r, h, hl, hr⟩ := ih
      · exact .inl ⟨by simp [h], x, by simp [hx], hf⟩
      · refine .inr ⟨b :: r, by simp [h], by simp [hl], fun i hi => ?_⟩
        cases i with
        | zero => simp [ha]
        | succ i => simpa using hr i (by simpa using hi)

/-- The matrix is undefined where an entry is, else it has k rows of the k sampled entries. -/
theorem matrix_cases (k : Nat) (rho : Bytes) :
    (matrix k rho = none ∧ ∃ i < k, ∃ j < k, sampleNTT (matrixStream rho i j) = none) ∨
      ∃ A, matrix k rho = some A ∧ A.length = k ∧ ∀ i < k, (A.getD i []).length = k ∧
        ∀ j < k, sampleNTT (matrixStream rho i j) = some ((A.getD i []).getD j RingElt.zero) := by
  have row := fun i => mapM_option_cases (fun j => sampleNTT (matrixStream rho i j)) (List.range k)
  obtain ⟨h, i, hi, hf⟩ | ⟨A, h, hl, hr⟩ := mapM_option_cases
    (fun i => (List.range k).mapM fun j => sampleNTT (matrixStream rho i j)) (List.range k)
  · obtain ⟨_, j, hj, hn⟩ | ⟨r, hs, _⟩ := row i
    · exact .inl ⟨h, i, by simpa using hi, j, by simpa using hj, hn⟩
    · rw [hs] at hf; cases hf
  · simp only [List.length_range] at hl hr
    refine .inr ⟨A, h, hl, fun i hi => ?_⟩
    have hA : A[i]? = some (A.getD i []) := by simp [List.getD, hl, hi]
    have hi' := hr i hi
    simp only [List.getElem_range] at hi'
    obtain ⟨hn, _⟩ | ⟨r, hs, hrl, hrr⟩ := row i
    · rw [hn, hA] at hi'; cases hi'
    · rw [hs, hA] at hi'; cases hi'
      simp only [List.length_range] at hrl hrr
      refine ⟨hrl, fun j hj => ?_⟩
      have hj' := hrr j hj
      simp only [List.getElem_range] at hj'
      rw [hj']
      generalize A.getD i [] = r at hrl
      simp [List.getD, hrl, hj]

/-! ## The dot product (`41_ring_arithmetic.md` R156) -/

/-- `dot` of two vectors of k elements is the sum over j of the products of their elements j. -/
theorem dot_eq_sum {k : Nat} {u v : List RingElt} (hu : u.length = k) (hv : v.length = k) :
    dot u v = ((List.range k).map fun j => baseMul (u.getD j RingElt.zero) (v.getD j RingElt.zero)).foldl
      RingElt.add RingElt.zero := by
  unfold dot
  congr 1
  refine List.ext_getElem (by simp [hu, hv]) fun j h1 h2 => ?_
  simp only [List.length_map, List.length_range] at h2
  simp [List.getD, hu, hv, h2]

end Sys2Proof.Machine
end

