-- ==== Sys2Proof/Laws/PerInstr.lean ====
section
/-! SUPPORT. The per-instruction family OpcodeOfWord: the opcode field of a command's word is the opcode of its row in
the opcode table (`30_encoding.md` R91, R94). -/

namespace Sys2Proof.Laws.OpcodeOfWord

/-- Bits 31:24 of the command's word are the opcode of the table's row with the command's mnemonic. -/
def Statement (i : Instr) : Prop :=
  ∃ r ∈ opcodeTable, r.mnemonic = i.mnemonic ∧ ((Sys2Proof.encode i).extractLsb' 24 8).toNat = r.op

/-- The opcode field of a word made of fields. -/
theorem opcode_wordOf (op : BitVec 8) (rd ra rb fn : Fin 16) (imm8 : Byte) :
    (wordOf op rd ra rb fn imm8).extractLsb' 24 8 = op := by
  ext i hi
  simp only [wordOf, BitVec.getElem_extractLsb', BitVec.getLsbD_append]
  have h1 : ¬ 24 + i < 8 := by omega
  have h2 : ¬ 24 + i - 8 < 4 := by omega
  have h3 : ¬ 24 + i - 8 - 4 < 4 := by omega
  have h4 : ¬ 24 + i - 8 - 4 - 4 < 4 := by omega
  have h5 : ¬ 24 + i - 8 - 4 - 4 - 4 < 4 := by omega
  have h6 : 24 + i - 8 - 4 - 4 - 4 - 4 = i := by omega
  simp [*]

/-- The statement for a command whose word is made of fields. -/
theorem of_wordOf {i : Instr} {op : BitVec 8} {rd ra rb fn : Fin 16} {imm8 : Byte} (r : OpcodeRow) (hr : r ∈ opcodeTable)
    (hm : r.mnemonic = i.mnemonic) (he : Sys2Proof.encode i = wordOf op rd ra rb fn imm8) (ho : op.toNat = r.op) :
    Statement i :=
  ⟨r, hr, hm, by rw [he, opcode_wordOf, ho]⟩

theorem nop : Statement .nop := of_wordOf opcodeTable[0] (List.getElem_mem _) rfl rfl rfl
theorem zeroize : Statement .zeroize := of_wordOf opcodeTable[1] (List.getElem_mem _) rfl rfl rfl
theorem li (rd : Fin 16) (imm16 : Half) : Statement (.li rd imm16) := by
  refine ⟨opcodeTable[2], List.getElem_mem _, rfl, ?_⟩
  have : (Sys2Proof.encode (.li rd imm16)).extractLsb' 24 8 = 0x10#8 := by
    ext i hi
    simp only [Sys2Proof.encode, BitVec.getElem_extractLsb', BitVec.getLsbD_append]
    have h1 : ¬ 24 + i < 16 := by omega
    have h2 : ¬ 24 + i - 16 < 4 := by omega
    have h3 : ¬ 24 + i - 16 - 4 < 4 := by omega
    have h4 : 24 + i - 16 - 4 - 4 = i := by omega
    simp [*]
  rw [this]
  rfl
theorem montmul (rd : Fin 16) (ra : Fin 16) (rb : Fin 16) : Statement (.montmul rd ra rb) := of_wordOf opcodeTable[3] (List.getElem_mem _) rfl rfl rfl
theorem modadd (rd : Fin 16) (ra : Fin 16) (rb : Fin 16) : Statement (.modadd rd ra rb) := of_wordOf opcodeTable[4] (List.getElem_mem _) rfl rfl rfl
theorem modsub (rd : Fin 16) (ra : Fin 16) (rb : Fin 16) : Statement (.modsub rd ra rb) := of_wordOf opcodeTable[5] (List.getElem_mem _) rfl rfl rfl
theorem modneg (rd : Fin 16) (ra : Fin 16) : Statement (.modneg rd ra) := of_wordOf opcodeTable[6] (List.getElem_mem _) rfl rfl rfl
theorem padd (rd : Fin 16) (ra : Fin 16) (rb : Fin 16) : Statement (.padd rd ra rb) := of_wordOf opcodeTable[7] (List.getElem_mem _) rfl rfl rfl
theorem psub (rd : Fin 16) (ra : Fin 16) (rb : Fin 16) : Statement (.psub rd ra rb) := of_wordOf opcodeTable[8] (List.getElem_mem _) rfl rfl rfl
theorem pneg (rd : Fin 16) (ra : Fin 16) : Statement (.pneg rd ra) := of_wordOf opcodeTable[9] (List.getElem_mem _) rfl rfl rfl
theorem pmov (rd : Fin 16) (ra : Fin 16) : Statement (.pmov rd ra) := of_wordOf opcodeTable[10] (List.getElem_mem _) rfl rfl rfl
theorem ntt (rd : Fin 16) (ra : Fin 16) : Statement (.ntt rd ra) := of_wordOf opcodeTable[11] (List.getElem_mem _) rfl rfl rfl
theorem intt (rd : Fin 16) (ra : Fin 16) : Statement (.intt rd ra) := of_wordOf opcodeTable[12] (List.getElem_mem _) rfl rfl rfl
theorem basemul (rd : Fin 16) (ra : Fin 16) (rb : Fin 16) : Statement (.basemul rd ra rb) := of_wordOf opcodeTable[13] (List.getElem_mem _) rfl rfl rfl
theorem samplentt (rd : Fin 16) (ra : Fin 16) (j : Fin 16) (i : Fin 16) : Statement (.samplentt rd ra j i) := of_wordOf opcodeTable[14] (List.getElem_mem _) rfl rfl rfl
theorem cbd (rd : Fin 16) (ra : Fin 16) (eta : Fin 16) : Statement (.cbd rd ra eta) := of_wordOf opcodeTable[15] (List.getElem_mem _) rfl rfl rfl
theorem prfcbd (rd : Fin 16) (ra : Fin 16) (eta : Fin 16) (n : Byte) : Statement (.prfcbd rd ra eta n) := of_wordOf opcodeTable[16] (List.getElem_mem _) rfl rfl rfl
theorem compress (rd : Fin 16) (ra : Fin 16) (d : Fin 16) : Statement (.compress rd ra d) := of_wordOf opcodeTable[17] (List.getElem_mem _) rfl rfl rfl
theorem decompress (rd : Fin 16) (ra : Fin 16) (d : Fin 16) : Statement (.decompress rd ra d) := of_wordOf opcodeTable[18] (List.getElem_mem _) rfl rfl rfl
theorem encode (rd : Fin 16) (ra : Fin 16) (d : Fin 16) : Statement (.encode rd ra d) := of_wordOf opcodeTable[19] (List.getElem_mem _) rfl rfl rfl
theorem decode (rd : Fin 16) (ra : Fin 16) (rb : Fin 16) (d : Fin 16) : Statement (.decode rd ra rb d) := of_wordOf opcodeTable[20] (List.getElem_mem _) rfl rfl rfl
theorem kpkeKeygen : Statement .kpkeKeygen := of_wordOf opcodeTable[21] (List.getElem_mem _) rfl rfl rfl
theorem kpkeEnc : Statement .kpkeEnc := of_wordOf opcodeTable[22] (List.getElem_mem _) rfl rfl rfl
theorem kpkeDec : Statement .kpkeDec := of_wordOf opcodeTable[23] (List.getElem_mem _) rfl rfl rfl
theorem mlkemKeygen : Statement .mlkemKeygen := of_wordOf opcodeTable[24] (List.getElem_mem _) rfl rfl rfl
theorem mlkemEncaps : Statement .mlkemEncaps := of_wordOf opcodeTable[25] (List.getElem_mem _) rfl rfl rfl
theorem mlkemDecaps : Statement .mlkemDecaps := of_wordOf opcodeTable[26] (List.getElem_mem _) rfl rfl rfl

end Sys2Proof.Laws.OpcodeOfWord
end

