-- ==== Sys2Proof/Laws/Sampling.lean ====
section
/-! SUPPORT. The laws of the samplers: the loop of `SampleNTT` one turn at a time, bits and bit fields. -/

namespace Sys2Proof.Machine

/-- With 256 coefficients accepted the loop ends (`42_sampling.md` R170). -/
theorem sampleLoop_full {S : Nat → Byte} {pos : Nat} {a : List Coeff} (h : ¬ a.length < 256) :
    sampleLoop S pos a = some a := by
  rw [sampleLoop]; simp [h]

/-- With fewer it reads the next block (`42_sampling.md` R170). -/
theorem sampleLoop_next {S : Nat → Byte} {pos : Nat} {a : List Coeff} (h : a.length < 256) :
    sampleLoop S pos a = sampleLoop S (pos + 3) (sampleBlock S pos a) := by
  rw [sampleLoop]; simp [h]

/-- What `n` blocks from `pos` on make of the accepted coefficients. -/
def sampleBlocks (S : Nat → Byte) : Nat → Nat → List Coeff → List Coeff
  | 0, _, a => a
  | n + 1, pos, a => sampleBlocks S n (pos + 3) (sampleBlock S pos a)

theorem acceptCandidate_of_full {a : List Coeff} (h : ¬ a.length < 256) (d : Nat) : acceptCandidate a d = a := by
  simp [acceptCandidate, h]

theorem sampleBlock_of_full {S : Nat → Byte} {pos : Nat} {a : List Coeff} (h : ¬ a.length < 256) :
    sampleBlock S pos a = a := by
  simp [sampleBlock, acceptCandidate_of_full h]

theorem sampleBlocks_of_full {S : Nat → Byte} {a : List Coeff} (h : ¬ a.length < 256) (n pos : Nat) :
    sampleBlocks S n pos a = a := by
  induction n generalizing pos with
  | zero => rfl
  | succ n ih => rw [sampleBlocks, sampleBlock_of_full h, ih]

/-- If `n` blocks fill the element, the loop ends with what they fill it with. -/
theorem sampleLoop_of_blocks {S : Nat → Byte} (n pos : Nat) (a : List Coeff)
    (h : ¬ (sampleBlocks S n pos a).length < 256) : sampleLoop S pos a = some (sampleBlocks S n pos a) := by
  induction n generalizing pos a with
  | zero => exact sampleLoop_full h
  | succ n ih =>
    by_cases ha : a.length < 256
    · rw [sampleLoop_next ha]; exact ih (pos + 3) (sampleBlock S pos a) h
    · rw [sampleBlocks_of_full ha, sampleLoop_full ha]

/-- If the loop ends, some number of blocks filled the element. -/
theorem sampleLoop_some {S : Nat → Byte} {pos : Nat} {a r : List Coeff} (h : sampleLoop S pos a = some r) :
    ∃ n, sampleBlocks S n pos a = r ∧ ¬ r.length < 256 := by
  revert h
  refine sampleLoop.partial_correctness S (fun pos a r => ∃ n, sampleBlocks S n pos a = r ∧ ¬ r.length < 256) ?_ pos a r
  intro loop ih pos a r h
  split at h
  · obtain ⟨n, hn, hr⟩ := ih _ _ _ h
    exact ⟨n + 1, hn, hr⟩
  · next ha =>
    obtain rfl : a = r := by simpa using h
    exact ⟨0, rfl, ha⟩

/-! ## Bits -/

theorem bitOf_lt (B : Bytes) (m : Nat) : bitOf B m < 2 := Nat.mod_lt _ (by decide)

theorem bitField_lt (B : Bytes) (start len : Nat) : bitField B start len < 2 ^ len := by
  induction len generalizing start with
  | zero => simp [bitField]
  | succ n ih =>
    have h1 := bitOf_lt B start
    have h2 := ih (start + 1)
    rw [bitField, Nat.pow_succ]
    omega

theorem popcount_le (B : Bytes) (start len : Nat) : popcount B start len ≤ len := by
  induction len generalizing start with
  | zero => simp [popcount]
  | succ n ih =>
    have h1 := bitOf_lt B start
    have h2 := ih (start + 1)
    rw [popcount]
    omega

end Sys2Proof.Machine
end

