-- ==== Sys2Proof/Laws/Step.lean ====
section
/-! SUPPORT. What one step can do, said once: which turn is taken, and how a command can end. -/

namespace Sys2Proof.Machine

/-! ## Turns -/

theorem nextTurn_of_nil {s : State} (h : s.schedule = []) : nextTurn s = (.engine, s) := by
  simp [nextTurn, h]

theorem nextTurn_of_cons {s : State} {t : Turn} {rest : List Turn} (h : s.schedule = t :: rest) :
    nextTurn s = (t, { s with schedule := rest }) := by
  simp [nextTurn, h]

/-- The state the turn is taken in differs from `s` in the schedule only. -/
theorem nextTurn_state (s : State) : (nextTurn s).2 = { s with schedule := s.schedule.tail } := by
  obtain ⟨x, p, bmem, ieDone, ieErr, busy, done, busErr, err, cmdreg, pset, ecmd, einfo, cmdcnt, sch, br, ans, n⟩ := s
  cases sch <;> rfl

/-- The engine's turn with nothing pending changes nothing (`60_exceptions.md` R276). -/
theorem engineTurn_of_idle {s : State} (h : s.busy = false) : engineTurn s = .next s := by
  simp [engineTurn, h]

theorem engineTurn_of_ok {s : State} {i : Instr} (hb : s.busy = true) (h : s.fetch = .ok i) :
    engineTurn s = exec i s := by
  simp [engineTurn, hb, h]

theorem engineTurn_of_error {s : State} {e : Illegal} (hb : s.busy = true) (h : s.fetch = .error e) :
    engineTurn s = .next (s.raiseError .illegalCmd) := by
  simp [engineTurn, hb, h]

/-! ## The computations after the random requests -/

/-- How `MLKEM_KEYGEN` ends after its checks (`45_mlkem.md` R233). -/
theorem keygenAfterChecks_cases (s : State) :
    keygenAfterChecks s = s.rngRequest.2.raiseError (.randomness 0) ∨
      keygenAfterChecks s = s.rngRequest.2.rngRequest.2.raiseError (.randomness 1) ∨
      keygenAfterChecks s = s ∨
      ∃ a b, keygenAfterChecks s = ((s.rngRequest.2.rngRequest.2.store (s.outAddr 0) a).store (s.outAddr 1) b).complete := by
  unfold keygenAfterChecks
  rcases s.rngRequest with ⟨d | _, s1⟩
  · rcases h2 : s1.rngRequest with ⟨z | _, s2⟩
    · cases hk : kpkeKeyGen s.params d.toList with
      | none => simp [h2, hk]
      | some keys => exact .inr (.inr (.inr ⟨keys.1, dkOf keys.2 keys.1 z.toList, by simp [h2, hk]⟩))
    · simp [h2]
  · simp

/-- How `MLKEM_ENCAPS` ends after its checks (`45_mlkem.md` R235). -/
theorem encapsAfterChecks_cases (s : State) :
    encapsAfterChecks s = s.rngRequest.2.raiseError (.randomness 0) ∨
      encapsAfterChecks s = s ∨
      ∃ a b, encapsAfterChecks s = ((s.rngRequest.2.store (s.outAddr 0) a).store (s.outAddr 1) b).complete := by
  unfold encapsAfterChecks
  rcases s.rngRequest with ⟨m | _, s1⟩
  · cases hk : mlkemEncapsValue s.params (s.load (s.inAddr 0) s.params.ekBytes) m.toList with
    | none => simp [hk]
    | some kc => exact .inr (.inr ⟨kc.1, kc.2, by simp [hk]⟩)
  · simp

/-- An end of a computation that may be undefined: complete with a store made, or nothing. -/
theorem State.completeIfDefined_map_cases {α : Type} (s : State) (o : Option α) (f : α → State) :
    s.completeIfDefined (o.map f) = s ∨ ∃ a, o = some a ∧ s.completeIfDefined (o.map f) = (f a).complete := by
  cases o with
  | none => exact .inl rfl
  | some a => exact .inr ⟨a, rfl, rfl⟩

end Sys2Proof.Machine
end

