-- ==== Sys2Proof/Tests/Slice0.lean ====
section
/-! SUPPORT. The model's own tests. Expected values are the spec's: the worked examples of the command rules and the vectors
of `95_test_vectors.md`, named in the comments. The last part shows a state that meets the hypotheses of each statement. -/

namespace Sys2Proof.Tests

set_option Elab.async false

open Sys2Proof.Machine

/-! ## Small states -/

/-- A ring element from its first lanes. -/
def poly (l : List Nat) : RingElt := RingElt.ofLanes fun j => Coeff.reduce (l.getD j 0)

/-- A block with a command pending, its first scalar registers given. -/
def pending (x : List Nat) : State :=
  { State.reset with busy := true, x := Vector.ofFn fun i => BitVec.ofNat 16 (x.getD i.val 0) }

/-- The same with `P[0]`, `P[1]` given. -/
def pendingP (f g : List Nat) : State :=
  { pending [] with p := ((Vector.replicate 16 RingElt.zero).set 0 (poly f)).set 1 (poly g) }

/-- The same with the bytes of `BMEM` from address 0 given. -/
def pendingM (x : List Nat) (b : List Nat) : State :=
  { pending x with bmem := (⟨[]⟩ : Memory).writeBytes 0 (b.map (BitVec.ofNat 8)) }

/-- The next state of an outcome (the state after reset where there is none, which never happens). -/
def after (o : Host.Outcome State Fault Refusal) : State :=
  match o with
  | .next t => t
  | .fault _ => State.reset
  | .refused _ => State.reset

/-- The content of `X[i]` after a command. -/
def xAfter (i : Instr) (s : State) (r : RegNum) : Nat := ((after (exec i s)).x[r]).toNat

/-- Some lanes of `P[r]` after a command. -/
def lanesAfter (i : Instr) (s : State) (r : RegNum) (js : List Nat) : List Nat :=
  js.map fun j => (RingElt.lane (after (exec i s)).p[r] j).val

/-- `ERR`, `EINFO`, `CMDCNT`, `BUSY`, `DONE` after a command. -/
def endOf (i : Instr) (s : State) : Nat × Nat × Nat × Bool × Bool :=
  let t := after (exec i s)
  (t.err.toNat, t.einfo.toNat, t.cmdcnt.toNat, t.busy, t.done)

/-! ## Well-formedness refuses an ill-formed term for each check (`30_encoding.md` R92, R97 (c)) -/

theorem test_wf_cbd_eta : (Instr.cbd 0 4 1).wf = false ∧ (Instr.cbd 0 4 4).wf = false := by decide
theorem test_wf_prfcbd_eta : (Instr.prfcbd 0 4 1 7).wf = false ∧ (Instr.prfcbd 0 4 4 7).wf = false := by decide
theorem test_wf_compress_width : (Instr.compress 0 1 0).wf = false ∧ (Instr.compress 0 1 12).wf = false := by decide
theorem test_wf_decompress_width : (Instr.decompress 0 1 0).wf = false ∧ (Instr.decompress 0 1 12).wf = false := by decide
theorem test_wf_encode_width : (Instr.encode 0 1 0).wf = false ∧ (Instr.encode 0 1 13).wf = false := by decide
theorem test_wf_decode_width : (Instr.decode 0 1 2 0).wf = false ∧ (Instr.decode 0 1 2 13).wf = false := by decide

/-! ## Decoding: one word for every command, written out from the formats of `30_encoding.md` R91, R94 and the words the
command rules print -/

theorem test_decode_nop : decode 0x00000000 = .ok .nop := by decide
theorem test_decode_zeroize : decode 0x01000000 = .ok .zeroize := by decide
theorem test_decode_li : decode 0x101008ED = .ok (.li 1 2285) := by decide
theorem test_decode_montmul : decode 0x11312000 = .ok (.montmul 3 1 2) := by decide
theorem test_decode_modadd : decode 0x12312000 = .ok (.modadd 3 1 2) := by decide
theorem test_decode_modsub : decode 0x13312000 = .ok (.modsub 3 1 2) := by decide
theorem test_decode_modneg : decode 0x14210000 = .ok (.modneg 2 1) := by decide
theorem test_decode_padd : decode 0x20201000 = .ok (.padd 2 0 1) := by decide
theorem test_decode_psub : decode 0x21201000 = .ok (.psub 2 0 1) := by decide
theorem test_decode_pneg : decode 0x22100000 = .ok (.pneg 1 0) := by decide
theorem test_decode_pmov : decode 0x23300000 = .ok (.pmov 3 0) := by decide
theorem test_decode_ntt : decode 0x24100000 = .ok (.ntt 1 0) := by decide
theorem test_decode_intt : decode 0x25210000 = .ok (.intt 2 1) := by decide
theorem test_decode_basemul : decode 0x26201000 = .ok (.basemul 2 0 1) := by decide
theorem test_decode_samplentt : decode 0x30041000 = .ok (.samplentt 0 4 1 0) := by decide
theorem test_decode_cbd : decode 0x31040200 = .ok (.cbd 0 4 2) := by decide
theorem test_decode_prfcbd : decode 0x32540307 = .ok (.prfcbd 5 4 3 7) := by decide
theorem test_decode_compress : decode 0x40100A00 = .ok (.compress 1 0 10) := by decide
theorem test_decode_decompress : decode 0x41100A00 = .ok (.decompress 1 0 10) := by decide
theorem test_decode_encode : decode 0x42120C00 = .ok (.encode 1 2 12) := by decide
theorem test_decode_decode : decode 0x43045C00 = .ok (.decode 0 4 5 12) := by decide
theorem test_decode_kpke : decode 0x50000000 = .ok .kpkeKeygen ∧ decode 0x51000000 = .ok .kpkeEnc ∧
    decode 0x52000000 = .ok .kpkeDec := by decide
theorem test_decode_mlkem : decode 0x60000000 = .ok .mlkemKeygen ∧ decode 0x61000000 = .ok .mlkemEncaps ∧
    decode 0x62000000 = .ok .mlkemDecaps := by decide

/-- One bit of each must-be-zero field set: formats N, I, R3, R2, S (`30_encoding.md` R97 (b)). -/
theorem test_decode_nonzero_field : (([0x00000001, 0x00800000, 0x10010000, 0x11312001, 0x14211000, 0x30041001, 0x31041200, 0x31040201,
    0x32541307, 0x40101A00, 0x42120C80, 0x43045C01, 0x62000010] : List Word).all
    fun w => decide (decode w = .error .nonzeroField)) = true := by decide

/-- Opcodes at the edges of the reserved ranges (`30_encoding.md` R97 (a)). -/
theorem test_decode_unknown_opcode : (([0x02000000, 0x0F000000, 0x15000000, 0x1F000000, 0x27000000, 0x2F000000, 0x33000000, 0x3F000000,
    0x44000000, 0x4F000000, 0x53000000, 0x5F000000, 0x63000000, 0xFF000000] : List Word).all
    fun w => decide (decode w = .error .unknownOpcode)) = true := by decide

theorem test_decode_fn_range : (([0x31040100, 0x32540407, 0x40100000, 0x40100C00, 0x41100F00, 0x42120D00, 0x43045000] : List Word).all
    fun w => decide (decode w = .error .fnOutOfRange)) = true := by decide

/-! ## Host port, status, interrupt (`95_test_vectors.md` VB2, VB5, VB6, VB8, VB9, VB12) -/

theorem test_host_misaligned_read : (State.reset.hostRead 0x0002).statusWord = 4 := by decide
theorem test_host_x_write : ((State.reset.hostWrite 0x0040 0x12345678).x[0]).toNat = 0x5678 := by decide
theorem test_host_window_bytes : (State.reset.hostWrite 0x2004 0xAABBCCDD).bmem =
    ⟨[(4, 0xDD), (5, 0xCC), (6, 0xBB), (7, 0xAA)]⟩ := by
  decide +kernel
theorem test_host_window_read : ((State.reset.hostWrite 0x2004 0xAABBCCDD).hostRead 0x2004).busReply =
    some (.read 0xAABBCCDD true) := by decide
theorem test_host_pset : (((State.reset.hostWrite 0x0010 2).hostWrite 0x0010 3)).pset = .mlkem1024 ∧
    (State.reset.hostWrite 0x0010 0xFFFFFFF1).pset = .mlkem768 := by decide
theorem test_host_ctrl : ((State.reset.hostWrite 0x0004 0xFFFFFFFF).hostRead 0x0004).busReply = some (.read 3 true) := by
  decide
theorem test_host_busy : let s := State.reset.hostWrite 0x000C 0
    s.statusWord = 1 ∧ (s.hostRead 0x000C).busReply = some (.read 0 false) ∧
    ((s.hostWrite 0x0008 4).hostRead 0x0008).busReply = some (.read 5 true) := by decide

/-! ## One step on small states -/

/-- V10. -/
theorem test_nop : let t := after (step (State.reset.withFetchWord 32 0x00000000))
    t.statusWord = 2 ∧ t.cmdcnt = 1 := by decide +kernel
/-- V1J, in part. -/
theorem test_zeroize : let t := after (exec .zeroize { pendingM [0, 7] [255] with cmdcnt := 3, busErr := true, ieDone := true })
    t.x[1] = 0 ∧ t.bmem = ⟨[]⟩ ∧ t.statusWord = 6 ∧ t.cmdcnt = 4 ∧ t.irq = true := by decide +kernel
/-- V12. -/
theorem test_li : ((after (step (State.reset.withFetchWord 32 0x10F0FFFF))).x[15]).toNat = 65535 := by decide +kernel
/-- V13, V14, V17, V18. -/
theorem test_montmul : xAfter (.montmul 3 1 2) (pending [0, 2285, 1353]) 3 = 1353 ∧
    xAfter (.montmul 3 1 2) (pending [0, 3328, 3328]) 3 = 169 ∧
    xAfter (.montmul 3 1 2) (pending [0, 1000, 2000]) 3 = 3301 ∧
    xAfter (.montmul 1 1 2) (pending [0, 3328, 1]) 1 = 3160 := by decide +kernel
/-- V1D, V1E. -/
theorem test_modadd : xAfter (.modadd 3 1 2) (pending [0, 3000, 1000]) 3 = 671 ∧
    xAfter (.modadd 3 1 2) (pending [0, 3328, 3328]) 3 = 3327 := by decide +kernel
/-- V1F, V1G. -/
theorem test_modsub : xAfter (.modsub 3 1 2) (pending [0, 1000, 3000]) 3 = 1329 ∧
    xAfter (.modsub 3 1 2) (pending [0, 0, 1]) 3 = 3328 := by decide +kernel
/-- V1H, V1I. -/
theorem test_modneg : xAfter (.modneg 2 1) (pending [0, 17]) 2 = 3312 ∧ xAfter (.modneg 2 1) (pending [0, 0]) 2 = 0 := by
  decide +kernel
/-- `40_control_scalar.md` R131: `X[ra]` first; `EINFO` = IDX << 16 | VAL. -/
theorem test_operand_range : endOf (.modsub 3 1 2) (pending [0, 3329, 65535]) = (5, 3329, 0, false, true) ∧
    endOf (.modsub 3 1 2) (pending [0, 3328, 65535]) = (5, 0x1FFFF, 0, false, true) := by decide +kernel
/-- `41_ring_arithmetic.md` R141, R142, R143, the examples. -/
theorem test_padd : lanesAfter (.padd 2 0 1) (pendingP [3328, 1] [1, 1]) 2 [0, 1, 255] = [0, 2, 0] := by decide +kernel
theorem test_psub : lanesAfter (.psub 2 0 1) (pendingP [0, 5] [1, 5]) 2 [0, 1] = [3328, 0] := by decide +kernel
theorem test_pneg : lanesAfter (.pneg 1 0) (pendingP [0, 1, 3328] []) 1 [0, 1, 2] = [0, 3328, 1] := by decide +kernel
theorem test_pmov : lanesAfter (.pmov 7 0) (pendingP [3, 4] []) 7 [0, 1] = [3, 4] := by decide +kernel
/-- V27, pair 0 and pair 1. -/
theorem test_basemul : lanesAfter (.basemul 2 0 1) (pendingP [2, 3, 2, 3] [5, 7, 5, 7]) 2 [0, 1, 2, 3] =
    [367, 29, 2982, 29] := by decide +kernel
/-- `42_sampling.md` R170 and V30, blocks 0 and 1: 3913 and 3485 are rejected, 2944 and 3017 accepted. -/
theorem test_sample_blocks : let S : Nat → Byte := fun n => ([0x49, 0xdf, 0xd9, 0x80, 0x9b, 0xbc] : List Byte).getD n 0
    sampleBlock S 0 [] = [] ∧ sampleBlock S 3 [] = [2944, 3017] := by decide +kernel
/-- `42_sampling.md` R171: 8160 is the last address for a 32-byte seed. -/
theorem test_samplentt_address : endOf (.samplentt 0 4 1 0) (pending [0, 0, 0, 0, 8161]) = (4, 8161, 0, false, true) := by
  decide +kernel
/-- `42_sampling.md` R175, corner cases: bytes 0x03, 0x0C, 0x1B. -/
theorem test_cbd : lanesAfter (.cbd 0 4 2) (pendingM [] [0x03, 0x0C, 0x1B]) 0 [0, 1, 2, 3, 4, 5] = [2, 0, 3327, 0, 1, 1] := by
  decide +kernel
theorem test_prfcbd_errors : endOf (.prfcbd 5 4 3 7) (pending [0, 0, 0, 0, 8161]) = (4, 8161, 0, false, true) ∧
    endOf (.prfcbd 5 4 4 7) (pending []) = (1, 0, 0, false, true) := by decide +kernel
/-- `43_codec.md` R190, R192. -/
theorem test_compress : lanesAfter (.compress 1 0 10) (pendingP [1000, 3328] []) 1 [0, 1] = [308, 0] ∧
    lanesAfter (.compress 1 0 1) (pendingP [832, 833, 2496, 2497] []) 1 [0, 1, 2, 3] = [0, 1, 1, 0] := by decide +kernel
/-- `43_codec.md` R193. -/
theorem test_decompress : lanesAfter (.decompress 1 0 10) (pendingP [308, 1023] []) 1 [0, 1] = [1001, 3326] ∧
    lanesAfter (.decompress 1 0 1) (pendingP [3] []) 1 [0] = [1665] := by decide +kernel
/-- `43_codec.md` R197, the example. -/
theorem test_encode : (byteEncode 12 (poly [1, 2, 3])).take 6 = [0x01, 0x20, 0x00, 0x03, 0x00, 0x00] ∧
    (after (exec (.encode 1 0 1) (pendingP [1, 0, 1] []))).bmem = ⟨[(0, 5)]⟩ := by decide +kernel
/-- `43_codec.md` R198, the example and the corner case of reduction. -/
theorem test_decode : lanesAfter (.decode 0 4 5 12) (pendingM [0, 0, 0, 0, 0, 384] [0xFF, 0xFF, 0xFF, 1, 13, 0]) 0 [0, 1, 2, 3] =
    [766, 766, 0, 0] ∧
    endOf (.decode 0 4 5 12) (pending [0, 0, 0, 0, 9000, 383]) = (2, 383, 0, false, true) := by decide +kernel
/-- `60_exceptions.md` R261, the example: length before address. -/
theorem test_kpke_enc_order : endOf .kpkeEnc (pending [0, 0, 0, 0, 9000, 799, 0, 32, 0, 32]) = (2, 799, 0, false, true) ∧
    endOf .kpkeEnc (pending [0, 0, 0, 0, 9000, 800, 0, 32, 0, 32]) = (4, 9000, 0, false, true) := by decide +kernel
/-- `60_exceptions.md` R254, operand numbers. -/
theorem test_kpke_address_index : endOf .kpkeKeygen (pending [0, 0, 7425, 0, 0, 32]) = (4, 0x21D01, 0, false, true) ∧
    endOf .kpkeDec (pending [0, 8161, 0, 0, 0, 768, 0, 768]) = (4, 0x21FE1, 0, false, true) := by decide +kernel
/-- `45_mlkem.md` R233, R242: the second request fails; the first is not retried. -/
theorem test_mlkem_keygen_randomness :
    endOf .mlkemKeygen { pending [0, 0, 800] with rngAnswers := [.ok (Vector.replicate 32 5), .fail] } =
      (3, 0x10000, 0, false, true) ∧
    endOf .mlkemKeygen { pending [0, 0, 6561] with rngAnswers := [.fail] } = (4, 0x119A1, 0, false, true) := by
  decide +kernel
theorem test_mlkem_encaps_length : endOf .mlkemEncaps (pending [0, 0, 0, 0, 0, 1184]) = (2, 1184, 0, false, true) := by
  decide +kernel
theorem test_mlkem_decaps_lengths : endOf .mlkemDecaps (pending [0, 0, 0, 0, 0, 1632, 0, 767]) =
    (2, 0x102FF, 0, false, true) := by decide +kernel
/-- `45_mlkem.md` R238. -/
theorem test_select : select [1, 2] [1, 2] [7] [9] = [7] ∧ select [1, 2] [1, 3] [7] [9] = [9] := by decide +kernel
/-- `45_mlkem.md` R236: field 1 is 3329, the first that is not canonical. -/
theorem test_modulus_check : modulusCheck true 2 ([0, 0x10, 0xD0] ++ List.replicate 797 0) = some (.formatContent 1) := by
  decide +kernel
/-- An illegal pending word (`30_encoding.md` R97). -/
theorem test_illegal_word : let t := after (engineTurn { pending [] with cmdreg := 0x10010000 })
    t.err = 1 ∧ t.ecmd = 0x10010000 ∧ t.einfo = 0 ∧ t.cmdcnt = 0 := by decide +kernel
/-- A constant maps to itself in every even lane (V25b), and back (V25c): one lane of each transform. -/
theorem test_ntt : lanesAfter (.ntt 1 0) (pendingP [0, 0, 1] []) 1 [2] = [3312] := by decide +kernel

/-- The binomial sampler's table (`42_sampling.md` R176) and the formula give the same values. -/
theorem test_cbd_rom : ((List.range 16).map fun w => (RingElt.lane (cbdValue 2 [byteOf w]) 0).val) =
    [0, 1, 1, 2, 3328, 0, 0, 1, 3328, 0, 0, 1, 3327, 3328, 3328, 0] := by decide +kernel
/-- First and last entries of the tables of `41_ring_arithmetic.md` R146. -/
theorem test_zeta_gamma : ((List.range 16).map fun i => (zeta i).val) =
    [1, 1729, 2580, 3289, 2642, 630, 1897, 848, 1062, 1919, 193, 797, 2786, 3260, 569, 1746] ∧
    ([112, 120, 127].map fun i => (zeta i).val) = [2804, 1722, 2154] ∧
    ((List.range 8).map fun i => (gamma i).val) = [17, 3312, 2761, 568, 583, 2746, 2649, 680] ∧
    ([126, 127].map fun i => (gamma i).val) = [2154, 1175] := by decide +kernel

/-! ## A state and operands that meet the hypotheses of each statement, at boundary values -/

/-- A pending block whose calling-convention registers suit `KPKE_ENC` of ML-KEM-512, the ciphertext ending at 8192. -/
def encState : State := pending [0, 7424, 0, 0, 7392, 800, 8160, 32, 0, 32]

theorem witness_DecodingInvertsEncoding : ∀ i ∈ [Instr.nop, .li 15 0xFFFF, .samplentt 15 15 15 15, .cbd 0 0 2, .cbd 15 15 3,
    .prfcbd 0 15 3 255, .compress 0 0 1, .decompress 15 15 11, .encode 15 15 12, .decode 15 15 15 1, .mlkemDecaps],
    i.wf = true := by decide
theorem witness_DecodedCommandSpellsItsWord : decode 0x43FFFC00 = .ok (.decode 15 15 15 12) ∧
    decode 0x10F0FFFF = .ok (.li 15 0xFFFF) := by decide
theorem witness_IllegalWordEndsWithIllegalCmd : let s := { pending [] with cmdreg := 0x40100C00 }
    s.busy = true ∧ ∀ r ∈ opcodeTable, r.spells s.cmdreg = false := by decide +kernel
theorem witness_StepRunsTheDecodedCommand : let s := { pending [] with cmdreg := 0x11312000 }
    s.busy = true ∧ decode s.cmdreg = .ok (.montmul 3 1 2) ∧ s.schedule = [] ∧
    ({ s with schedule := [.engine] } : State).schedule = .engine :: [] := by decide +kernel
theorem witness_WordWrittenToCmdIsRun : let s := { State.reset with schedule := [.hostWrite 0x000C 0x01000000, .engine] }
    s.busy = false ∧ s.err = 0 ∧ decode 0x01000000 = .ok .zeroize ∧
    s.schedule = .hostWrite 0x000C 0x01000000 :: .engine :: [] := by decide +kernel
theorem witness_StepTakesTheScheduledTurn : State.reset.busy = false ∧ State.reset.schedule = [] ∧
    ∀ t ∈ [Turn.hostRead 0, .hostWrite 0x3FFC 1, .reset, .engine],
      ({ State.reset with schedule := [t] } : State).schedule = t :: [] := by decide +kernel
theorem witness_ResetLeavesEveryItemZero : let s := { pending [9] with schedule := [.reset, .engine], cmdcnt := 5 }
    s.schedule = .reset :: [.engine] := by decide +kernel
theorem witness_EveryStepKeepsTheInvariant : ∃ s t, State.Inv s ∧ s.busy = true ∧ step s = .next t :=
  ⟨{ State.reset with busy := true }, _, by constructor <;> decide, rfl, rfl⟩
theorem witness_CanonicalMemoriesWithEqualBytesAreEqual : (⟨[(0, 1), (8191, 255)]⟩ : Memory).wf = true := by decide
theorem witness_HostReadReturnsTheRegister : State.reset.busy = false ∧ State.reset.pset = .mlkem512 ∧
    ({ State.reset with pset := .mlkem768 } : State).pset = .mlkem768 ∧
    ({ State.reset with pset := .mlkem1024 } : State).pset = .mlkem1024 ∧ 8188 % 4 = 0 ∧ 8188 < 8192 := by decide +kernel
theorem witness_HostWriteStoresTheWord : State.reset.busy = false ∧ State.reset.bmem.wf = true ∧ 0 % 4 = 0 ∧ 8188 % 4 = 0 ∧
    (0xFFFFFFFC : Word).toNat % 4 = 0 ∧ (1 : Word).toNat % 4 = 1 ∧ (2 : Word).toNat % 4 = 2 ∧ (3 : Word).toNat % 4 = 3 := by
  decide +kernel
theorem witness_CtrlRegister : State.reset.busy = false ∧ 2 ≤ 31 := by decide
theorem witness_CmdRegister : State.reset.busy = false ∧ State.reset.err = 0 ∧ (pending []).busy = true ∧
    ({ State.reset with err := 5 } : State).err ≠ 0 := by decide +kernel
theorem witness_PendingBlockServesIdAndStatusOnly : (pending []).busy = true ∧ (0x0004 : BitVec 14) ≠ 0x0000 ∧
    (0x0004 : BitVec 14) ≠ 0x0008 := by decide
/-- Each ground of rejection, and addresses at the edges that are served. -/
theorem witness_RejectedAccesses : (0x0003 : BitVec 14).toNat % 4 ≠ 0 ∧ (0x003C : BitVec 14).toNat % 4 = 0 ∧
    (0x003C : BitVec 14).toNat < 0x0040 ∧ 0x0080 ≤ (0x1FFC : BitVec 14).toNat ∧ (0x1FFC : BitVec 14).toNat < 0x2000 ∧
    (pending []).busy = true ∧ ({ State.reset with err := 1 } : State).err ≠ 0 ∧ State.reset.busy = false ∧
    ¬ (0x3FFC : BitVec 14).toNat < 0x2000 := by decide +kernel
theorem witness_HostWriteReachesOnlyItsRegister : (State.reset.hostWrite 0x007C 1).x ≠ State.reset.x ∧
    (State.reset.hostWrite 0x3FFC 1).bmem ≠ State.reset.bmem ∧ (State.reset.hostWrite 0x0010 1).pset ≠ State.reset.pset ∧
    (State.reset.hostWrite 0x000C 1).cmdreg ≠ State.reset.cmdreg ∧
    (State.reset.hostWrite 0x0004 1).ieDone ≠ State.reset.ieDone ∧
    (({ State.reset with err := 1 } : State).hostWrite 0x0004 0x100).err ≠ 1 := by decide +kernel
/-- Each transition of a `STATUS` field happens. -/
theorem witness_StatusChangesOnlyAsStated : let p := State.reset.hostWrite 0x000C 0
    takeTurn State.reset (.hostWrite 0x000C 0) = .next p ∧ State.reset.busy = false ∧ p.busy = true ∧
    (after (takeTurn p .engine)).busy = false ∧ p.done = false ∧ (after (takeTurn p .engine)).done = true ∧
    ((after (takeTurn p .engine)).hostWrite 0x0008 2).done = false ∧ p.busErr = false ∧ (p.hostRead 0x0004).busErr = true ∧
    ((State.reset.hostRead 0x0001).hostWrite 0x0008 4).busErr = false ∧
    (after (engineTurn { p with cmdreg := 0x02000000 })).err ≠ p.err :=
  ⟨rfl, by decide +kernel⟩
theorem witness_OutstandingErrorStaysUntilCleared : let s := { State.reset with err := 1 }
    s.busy = false ∧ s.err ≠ 0 ∧ takeTurn s (.hostWrite 0x000C 0) = .next (s.hostWrite 0x000C 0) :=
  ⟨rfl, by decide, rfl⟩
theorem witness_CmdcntCountsSuccessfulCommands : takeTurn (pending []) .engine = .next (after (engineTurn (pending []))) ∧
    (after (engineTurn (pending []))).cmdcnt = 1 := ⟨rfl, by decide +kernel⟩
theorem witness_PendingCommandIsUndisturbed : let s := pending []
    s.busy = true ∧ takeTurn s (.hostWrite 0x0040 7) = .next (s.hostWrite 0x0040 7) ∧
    takeTurn s (.hostRead 0x0008) = .next (s.hostRead 0x0008) ∧ ∃ t, engineTurn s = .next t :=
  ⟨rfl, rfl, rfl, _, rfl⟩
theorem witness_CommandEndsOnlyAsItsRowSays : (Instr.decode 0 4 5 12).wf = true ∧
    ∃ t, exec (.decode 0 4 5 12) (pending []) = .next t := ⟨by decide, _, rfl⟩
theorem witness_CommandWritesOnlyItsDestination : Instr.montmul 3 1 2 ≠ .zeroize ∧ scalarDest (.montmul 3 1 2) ≠ some 1 ∧
    polyDest (.ntt 1 0) ≠ some 0 ∧ outputOperands (.ntt 1 0) (pending []) = [] ∧ drawsRandom .kpkeEnc = false ∧
    (∀ o ∈ outputOperands .kpkeEnc encState, 7423 < o.1.toNat ∨ o.1.toNat + o.2 ≤ 7423) ∧
    (∀ o ∈ outputOperands .kpkeEnc encState, 8192 < o.1.toNat ∨ o.1.toNat + o.2 ≤ 8192) ∧
    ∃ t, exec .kpkeEnc encState = .next t :=
  ⟨by decide, by decide, by decide, by decide, by decide, by decide +kernel, by decide +kernel, _, rfl⟩
/-- The two blocks differ in a byte outside the input operand. -/
theorem witness_CommandIsAFunctionOfItsInputs : let i := Instr.cbd 0 4 2
    let s := pendingM [] [1]
    let s' := { s with bmem := ⟨[(0, 1), (128, 9)]⟩, busErr := true, cmdcnt := 7 }
    s.bmem.wf = true ∧ s'.bmem.wf = true ∧ s.busy = true ∧ s.err = 0 ∧
    (∀ o ∈ inputOperands i s, ∀ n < o.2, s'.bmem.read (o.1.toNat + n) = s.bmem.read (o.1.toNat + n)) ∧
    (∃ t, exec i s = .next t) ∧ ∃ t', exec i s' = .next t' :=
  ⟨by decide +kernel, by decide, rfl, rfl, by decide +kernel, ⟨_, rfl⟩, _, rfl⟩
theorem witness_PrimitiveCommandsIgnorePset : isMacro (.encode 1 2 12) = false ∧
    ∃ t, exec (.encode 1 2 12) (pending []) = .next t := ⟨by decide, _, rfl⟩
theorem witness_InterruptLineFollowsStatus : let s := { pending [] with ieDone := true }
    takeTurn s .engine = .next (after (engineTurn s)) ∧ s.irq = false ∧ (after (engineTurn s)).irq = true :=
  ⟨rfl, by decide +kernel⟩
/-- First and last length register, one too long, one too short. -/
theorem witness_LengthErrorsInOperandOrder : let s := pending [0, 0, 0, 0, 0, 801, 0, 32, 0, 31]
    let s' := { s with x := s.x.set 5 800 }
    (lengthOperands .kpkeEnc s)[0]? = some (801, 800) ∧ (lengthOperands .kpkeEnc s')[2]? = some (31, 32) ∧
    (∀ o ∈ (lengthOperands .kpkeEnc s').take 2, o.1.toNat = o.2) ∧
    (lengthOperands (.decode 0 4 5 1) s)[0]? = some (801, 32) := by decide +kernel
/-- First and last operand, each one byte too far. -/
theorem witness_AddressErrorsInOperandOrder : let s := { encState with x := encState.x.set 4 7393 }
    let s' := { encState with x := encState.x.set 1 7425 }
    LengthsMatch .kpkeEnc s ∧ (inputOperands .kpkeEnc s ++ outputOperands .kpkeEnc s)[0]? = some (7393, 800) ∧
    8192 < (7393 : Half).toNat + 800 ∧ LengthsMatch .kpkeEnc s' ∧
    (inputOperands .kpkeEnc s' ++ outputOperands .kpkeEnc s')[3]? = some (7425, 768) ∧ 8192 < (7425 : Half).toNat + 768 ∧
    ∀ o ∈ (inputOperands .kpkeEnc s' ++ outputOperands .kpkeEnc s').take 3, o.1.toNat + o.2 ≤ 8192 := by decide +kernel
theorem witness_OperandRangeErrors : let s := pending [3328, 3329, 65535]
    3329 ≤ (s.x[1]).toNat ∧ 3329 ≤ (s.x[2]).toNat ∧ (s.x[0]).toNat < 3329 := by decide +kernel
theorem bitField_zeros (n start len : Nat) : bitField (State.reset.bmem.readBytes 0 n) start len = 0 := by
  induction len generalizing start with
  | zero => rfl
  | succ len ih =>
    have : (State.reset.bmem.readBytes 0 n).getD (start / 8) 0 = 0 := by
      by_cases h : start / 8 < n
      · simp [Memory.readBytes, h]; rfl
      · simp [Memory.readBytes, h]
    rw [bitField, ih, bitOf, this]; simp
theorem modulusCheck_zeros (b : Bool) : modulusCheck b 2 (State.reset.bmem.readBytes 0 800) = none := by
  cases b
  · rfl
  · simp [modulusCheck, firstNonCanonical, bitField_zeros]
theorem witness_RandomnessErrorsInRequestOrder : let s := { pending [0, 7392, 6560] with rngAnswers := [.fail] }
    let s' := { s with rngAnswers := [.ok (Vector.replicate 32 0), .fail] }
    let e := { pending [0, 8160, 7424, 0, 0, 800] with rngAnswers := [.fail] }
    OperandsFit .mlkemKeygen s ∧ s.rngAnswers = .fail :: [] ∧ OperandsFit .mlkemKeygen s' ∧
    s'.rngAnswers = .ok (Vector.replicate 32 0) :: .fail :: [] ∧ LengthsMatch .mlkemEncaps e ∧ OperandsFit .mlkemEncaps e ∧
    modulusCheck Config.ekModCheck e.params.k (e.bmem.readBytes (e.x[4]).toNat e.params.ekBytes) = none ∧
    e.rngAnswers = .fail :: [] :=
  ⟨by decide +kernel, rfl, by decide +kernel, rfl, by decide +kernel, by decide +kernel, modulusCheck_zeros _, rfl⟩
/-- `95_test_vectors.md` V65 (b): the bad field 0 (bytes 01 9D), and the bad field 261 (byte 391 high nibble and byte 392). -/
def badKeyState (b : List Nat) : State :=
  { pendingM [0, 8160, 7424, 0, 0, 800] b with cmdreg := 0x61000000, rngAnswers := [.fail] }
theorem test_encaps_modulus_error : let t := after (encapsWith true (badKeyState [0x01, 0x9D]))
    t.statusWord = 0x0202 ∧ t.ecmd = 0x61000000 ∧ t.einfo = 0x80000000 ∧ t.rngAnswers = [.fail] ∧ t.rngDraws = 0 := by
  decide +kernel
theorem test_encaps_modulus_error_position :
    (after (encapsWith true (badKeyState (List.replicate 391 0 ++ [0xF0, 0xFF])))).einfo = 0x80000105 := by decide +kernel
theorem witness_ModulusCheckIsTheReencodingTest : let s := badKeyState [0x01, 0x9D]
    LengthsMatch .mlkemEncaps s ∧ OperandsFit .mlkemEncaps s ∧
    modulusCheck true (paramRow s.pset).k (s.bmem.readBytes (s.x[4]).toNat (384 * (paramRow s.pset).k + 32)) =
      some (.formatContent 0) ∧
    (List.replicate 800 (0xFF : Byte)).length = (paramRow .mlkem512).ekBytes ∧
    (List.replicate 1568 (0 : Byte)).length = (paramRow .mlkem1024).ekBytes := by decide +kernel
theorem witness_MontgomeryMultiplier : 3328 < 3329 ∧ 0 < 3329 := by decide
theorem witness_ScalarCommandsComplete : let s := pending [0, 3328, 3328]
    (s.x[1]).toNat < 3329 ∧ (s.x[2]).toNat < 3329 := by decide +kernel
/-- The stream of zeros fills the element with 128 blocks; the stream of 0xFF bytes is the hanging one. -/
theorem witness_SampleNttTakesTheFirstAcceptedCandidates : let S : Nat → Byte := fun _ => 0
    256 ≤ (((List.range (2 * 128)).map fun c =>
      if c % 2 = 0 then (S (3 * (c / 2))).toNat + 256 * ((S (3 * (c / 2) + 1)).toNat % 16)
      else (S (3 * (c / 2) + 1)).toNat / 16 + 16 * (S (3 * (c / 2) + 2)).toNat).filter fun v => decide (v < 3329)).length ∧
    ∀ n, (fun _ => 0xFF : Nat → Byte) n = 0xFF := ⟨by decide +kernel, fun _ => rfl⟩
theorem witness_NttGivesTheResidues : 0 < 128 ∧ 127 < 128 := by decide
theorem witness_NttProductIsTheRingProduct : 0 < 256 ∧ 255 < 256 := by decide
theorem witness_SamplenttCompletes : OperandsFit (.samplentt 15 4 15 15) (pending [0, 0, 0, 0, 8160]) := by decide +kernel
theorem witness_BinomialSamplersComplete : legalEta 2 = true ∧ legalEta 3 = true ∧
    OperandsFit (.cbd 0 4 3) (pending [0, 0, 0, 0, 8000]) ∧ OperandsFit (.prfcbd 0 4 2 255) (pending [0, 0, 0, 0, 8160]) := by
  decide +kernel
theorem witness_CompressionCommandsComplete : legalWidth 11 1 = true ∧ legalWidth 11 11 = true := by decide
theorem witness_EncodeStoresThePackedLanes : let s := pending [0, 7808]
    legalWidth 12 12 = true ∧ s.bmem.wf = true ∧ OperandsFit (.encode 1 2 12) s ∧ legalWidth 12 1 = true ∧
    OperandsFit (.encode 0 2 1) s := by decide +kernel
theorem witness_DecodeLoadsThePackedFields : let s := pending [0, 7808, 384, 32]
    legalWidth 12 12 = true ∧ LengthsMatch (.decode 0 1 2 12) s ∧ OperandsFit (.decode 0 1 2 12) s ∧
    LengthsMatch (.decode 0 0 3 1) s ∧ OperandsFit (.decode 0 0 3 1) s := by decide +kernel
theorem witness_CodecRoundTrips : (1 ≤ 1 ∧ 1 ≤ 12) ∧ (1 ≤ 12 ∧ 12 ≤ 12) ∧ (List.replicate 384 (0xFF : Byte)).length = 32 * 12 ∧
    (∀ j, (h : j < 256) → (RingElt.zero[j]).val < 2 ^ 1) := by
  refine ⟨by decide, by decide, by decide +kernel, fun j h => ?_⟩
  simp [RingElt.zero]
theorem witness_KpkeCommandsComplete : let k := pending [0, 7392, 7424, 0, 8160, 32]
    let d := pending [0, 8160, 0, 0, 7424, 768, 7424, 768]
    LengthsMatch .kpkeKeygen k ∧ OperandsFit .kpkeKeygen k ∧ LengthsMatch .kpkeEnc encState ∧ OperandsFit .kpkeEnc encState ∧
    LengthsMatch .kpkeDec d ∧ OperandsFit .kpkeDec d := by decide +kernel
theorem witness_ObjectLengths : (List.replicate 32 (0xFF : Byte)).length = 32 := by decide
theorem witness_MlkemKeygenCompletes : let b := Vector.replicate 32 (0 : Byte)
    let s := { pending [0, 7392, 6560] with rngAnswers := [.ok b, .ok b] }
    OperandsFit .mlkemKeygen s ∧ s.rngAnswers = .ok b :: .ok b :: [] := ⟨by decide +kernel, rfl⟩
theorem witness_MlkemEncapsCompletes : let b := Vector.replicate 32 (0 : Byte)
    let s := { pending [0, 8160, 7424, 0, 0, 800] with rngAnswers := [.ok b] }
    LengthsMatch .mlkemEncaps s ∧ OperandsFit .mlkemEncaps s ∧
    modulusCheck Config.ekModCheck (paramRow s.pset).k (s.bmem.readBytes (s.x[4]).toNat (384 * (paramRow s.pset).k + 32)) = none ∧
    s.rngAnswers = .ok b :: [] := ⟨by decide +kernel, by decide +kernel, modulusCheck_zeros _, rfl⟩
theorem witness_SelectionByMask : [1, 2].length = [1, 3].length ∧ (List.replicate 32 (0 : Byte)).length = 32 := by decide
theorem witness_MlkemDecapsCompletesByImplicitRejection : let s := pending [0, 8160, 0, 0, 6560, 1632, 7424, 768]
    LengthsMatch .mlkemDecaps s ∧ OperandsFit .mlkemDecaps s := by decide +kernel
theorem witness_DecapsStatusTellsNothing : let s := pending [0, 8160, 0, 0, 6560, 1632, 7424, 768]
    s.busy = true ∧ (∃ t, exec .mlkemDecaps s = .next t) ∧
    ∃ t, exec .mlkemDecaps { s with bmem := ⟨[(7424, 1)]⟩ } = .next t := ⟨rfl, ⟨_, rfl⟩, _, rfl⟩

end Sys2Proof.Tests
end

section
/-! Turns of the schedule, the host's accesses to `CTRL`, `CMD` and `ID`, and the state reset leaves: the obligations on
single registers of `10_state.md`. -/

namespace Sys2Proof.Machine

/-! ## Turns -/

/-- A step takes the first turn of the schedule (`20_memory.md` R74). -/
theorem step_of_cons {s : State} {t : Turn} {rest : List Turn} (h : s.schedule = t :: rest) :
    step s = takeTurn { s with schedule := rest } t := by
  simp [step, nextTurn_of_cons h]

/-! ## Host accesses to a register whose address is known -/

theorem regAddr_id : regAddr 0x0000 = some .id := rfl
theorem regAddr_ctrl : regAddr 0x0004 = some .ctrl := rfl
theorem regAddr_cmd : regAddr 0x000C = some .cmd := rfl

section HostAccess

variable {s : State} {addr : BitVec 14} {r : RegAddr} (hr : regAddr addr = some r)
include hr

/-- A register that may be read now is served and changes nothing but the bus's reply. -/
theorem State.hostRead_of_readable (h : s.busy = false ∨ readableWhileBusy r = true) :
    s.hostRead addr = { s with busReply := some (.read (s.readData r) true) } := by
  rcases h with h | h <;> simp [State.hostRead, hr, h]

/-- An idle block makes the write that the register admits. -/
theorem State.hostWrite_of_writeReg_some {t : State} {w : Word} (hb : s.busy = false) (hw : s.writeReg w r = some t) :
    s.hostWrite addr w = { t with busReply := some (.write true) } := by
  simp [State.hostWrite, hb, hr, hw]

/-- An idle block rejects the write that the register does not admit. -/
theorem State.hostWrite_of_writeReg_none {w : Word} (hb : s.busy = false) (hw : s.writeReg w r = none) :
    s.hostWrite addr w = s.rejectWrite := by
  simp [State.hostWrite, hb, hr, hw]

end HostAccess

/-! ## `CTRL` -/

/-- The fields of a write to `CTRL`, whether or not it clears the error (`10_state.md` R28). -/
theorem State.writeCtrl_eq (s : State) (w : Word) : s.writeCtrl w =
    { s with
      ieDone := w.getLsbD 0, ieErr := w.getLsbD 1, err := if w.getLsbD 8 then 0 else s.err,
      ecmd := if w.getLsbD 8 then 0 else s.ecmd, einfo := if w.getLsbD 8 then 0 else s.einfo } := by
  unfold State.writeCtrl
  cases w.getLsbD 8 <;> rfl

/-- The bits of `CTRL` as the host reads it (`10_state.md` R28). -/
theorem State.getLsbD_ctrlWord (s : State) (n : Nat) :
    s.ctrlWord.getLsbD n = if n = 0 then s.ieDone else if n = 1 then s.ieErr else false := by
  simp only [State.ctrlWord, BitVec.getLsbD_append, BitVec.getLsbD_ofBool, BitVec.getLsbD_zero]
  rcases n with _ | _ | n <;> simp

/-! ## The state after reset (`10_state.md` R45) -/

/-- A step whose turn is reset ends in the reset state (`70_reset_and_hazards.md` R290). -/
theorem step_of_reset {s : State} {rest : List Turn} (h : s.schedule = .reset :: rest) :
    step s = .next ({ s with schedule := rest } : State).resetBlock := step_of_cons h

/-- The empty list of cells is the memory of zeros (`10_state.md` R40). -/
@[simp] theorem Memory.read_empty (a : Nat) : (⟨[]⟩ : Memory).read a = 0 := rfl

theorem State.reset_ctrlWord : State.reset.ctrlWord = 0 := by decide
theorem State.reset_statusWord : State.reset.statusWord = 0 := by decide
theorem State.reset_psetWord : State.reset.psetWord = 0 := by decide

/-- Settles O10: the reset turn leaves the reset state but for the environment's fields, which no item reads. -/
theorem resetLeavesEveryItemZero : Obligations.ResetLeavesEveryItemZero := by
  intro s rest h
  refine ⟨_, step_of_reset h, fun i => ?xreg, fun i j _ => ?preg, fun a _ => Memory.read_empty a, State.reset_ctrlWord,
    State.reset_statusWord, rfl, State.reset_psetWord, rfl, rfl, rfl, ?id, rfl⟩
  case xreg => simp [State.resetBlock, State.reset]
  case preg => simp [State.resetBlock, State.reset]
  case id => rw [State.hostRead_of_readable regAddr_id (.inr rfl)]; rfl

/-- Settles O16, from what a write to `CTRL` stores and the bits a read of it gives. -/
theorem ctrlRegister : Obligations.CtrlRegister := by
  refine fun s => ⟨fun hb w => ?_, fun hb => ⟨s.ctrlWord, ?_, ?_, ?_, fun n hn => ?_⟩, ?_, State.reset_ctrlWord⟩
  · rw [State.hostWrite_of_writeReg_some regAddr_ctrl hb rfl, State.writeCtrl_eq]
  · exact State.hostRead_of_readable regAddr_ctrl (.inl hb)
  · exact s.getLsbD_ctrlWord 0
  · exact s.getLsbD_ctrlWord 1
  · rw [State.getLsbD_ctrlWord, if_neg (by omega), if_neg (by omega)]
  · rw [State.irq, bne, decide_not, ← beq_eq_decide]

/-- Settles O17, by what an idle block's write to `CMD` does for each value of `ERR`; a pending block rejects every write. -/
theorem cmdRegister : Obligations.CmdRegister := by
  refine fun s w => ⟨fun hb he => ?_, fun h => ?_, fun hb => ?_, rfl⟩
  · have hw : s.writeReg w .cmd = some (s.acceptCommand w) := if_pos he
    rw [State.hostWrite_of_writeReg_some regAddr_cmd hb hw]
    rfl
  · by_cases hb : s.busy = true
    · exact State.hostWrite_of_busy hb _ w
    · have hw : s.writeReg w .cmd = none := if_neg (h.resolve_left hb)
      exact State.hostWrite_of_writeReg_none regAddr_cmd (Bool.eq_false_of_not_eq_true hb) hw
  · exact State.hostRead_of_readable regAddr_cmd (.inl hb)

end Sys2Proof.Machine
end

section
/-! The host's address map read as an equation, and which accesses the block rejects: the obligations on rejected accesses
of `20_memory.md`. -/

namespace Sys2Proof.Machine

/-! ## The address map (`20_memory.md` R64) -/

/-- The address of what the host's map names. -/
def RegAddr.address : RegAddr → Nat
  | .id => 0x0000
  | .ctrl => 0x0004
  | .status => 0x0008
  | .cmd => 0x000C
  | .pset => 0x0010
  | .ecmd => 0x0014
  | .einfo => 0x0018
  | .cmdcnt => 0x001C
  | .xreg i => 0x0040 + 4 * i.val
  | .window o => 0x2000 + o

theorem regAddr_status : regAddr 0x0008 = some .status := rfl
theorem regAddr_ecmd : regAddr 0x0014 = some .ecmd := rfl
theorem regAddr_einfo : regAddr 0x0018 = some .einfo := rfl
theorem regAddr_cmdcnt : regAddr 0x001C = some .cmdcnt := rfl

/-- A register is found at its own address, a multiple of 4. -/
theorem regAddr_some {a : BitVec 14} {r : RegAddr} (h : regAddr a = some r) :
    a.toNat % 4 = 0 ∧ a.toNat = r.address := by
  dsimp only [regAddr] at h
  obtain ⟨haligned, h⟩ := Option.ite_none_left_eq_some.mp h
  refine ⟨not_not.mp haligned, ?_⟩
  iterate 8
    rcases ite_eq_iff.mp h with ⟨ha, ⟨⟩⟩ | ⟨-, h⟩
    · exact ha
  rcases dite_eq_iff.mp h with ⟨ha, ⟨⟩⟩ | ⟨-, h⟩
  · dsimp only [RegAddr.address]; omega
  · obtain ⟨ha, ⟨⟩⟩ := Option.ite_none_right_eq_some.mp h
    exact (Nat.add_sub_of_le ha).symm

/-- Nothing is mapped at the misaligned and at the reserved addresses, and only there (`20_memory.md` R64, R65). -/
theorem regAddr_eq_none_iff {a : BitVec 14} : regAddr a = none ↔
    a.toNat % 4 ≠ 0 ∨ (0x0020 ≤ a.toNat ∧ a.toNat < 0x0040) ∨ (0x0080 ≤ a.toNat ∧ a.toNat < 0x2000) := by
  refine ⟨fun h => ?unmapped, fun h => Option.eq_none_iff_forall_ne_some.mpr fun r hr => ?mapped⟩
  case unmapped =>
    dsimp only [regAddr] at h
    rcases ite_eq_iff.mp h with ⟨ha, -⟩ | ⟨haligned, h⟩
    · exact .inl ha
    · iterate 8 rcases ite_eq_iff.mp h with ⟨-, ⟨⟩⟩ | ⟨_, h⟩
      rcases dite_eq_iff.mp h with ⟨-, ⟨⟩⟩ | ⟨_, h⟩
      rcases ite_eq_iff.mp h with ⟨-, ⟨⟩⟩ | ⟨_, -⟩
      omega
  case mapped =>
    obtain ⟨haligned, ha⟩ := regAddr_some hr
    cases r <;> dsimp only [RegAddr.address] at ha <;> omega

/-- No two addresses name the same register. -/
theorem regAddr_eq_some_iff {a c : BitVec 14} {r : RegAddr} (hc : regAddr c = some r) : regAddr a = some r ↔ a = c := by
  refine ⟨fun ha => BitVec.eq_of_toNat_eq ?_, fun h => h ▸ hc⟩
  rw [(regAddr_some ha).right, (regAddr_some hc).right]

/-! ## Rejected accesses (`20_memory.md` R67, R68) -/

theorem readableWhileBusy_iff {r : RegAddr} : readableWhileBusy r = true ↔ r = .id ∨ r = .status := by
  cases r <;> simp [readableWhileBusy]

/-- A read where nothing is mapped is rejected. -/
theorem State.hostRead_of_unmapped {a : BitVec 14} (s : State) (ha : regAddr a = none) : s.hostRead a = s.rejectRead := by
  simp [State.hostRead, ha]

/-- A write where nothing is mapped is rejected. -/
theorem State.hostWrite_of_unmapped {a : BitVec 14} (s : State) (w : Word) (ha : regAddr a = none) :
    s.hostWrite a w = s.rejectWrite := by
  simp [State.hostWrite, ha]

/-- While a command is pending a read of any address but those of `ID` and `STATUS` is rejected. -/
theorem State.hostRead_of_busy {s : State} (hb : s.busy = true) {a : BitVec 14} (hid : a ≠ 0x0000) (hst : a ≠ 0x0008) :
    s.hostRead a = s.rejectRead := by
  rcases s.hostRead_cases a with h | ⟨r, hr, hserved, -⟩
  · exact h
  · rcases readableWhileBusy_iff.mp (hserved.resolve_left (by simp [hb])) with rfl | rfl
    · exact absurd ((regAddr_eq_some_iff regAddr_id).mp hr) hid
    · exact absurd ((regAddr_eq_some_iff regAddr_status).mp hr) hst

/-- A mapped address is served to a read unless a command is pending and it is neither that of `ID` nor that of `STATUS`. -/
theorem State.exists_hostRead_eq_served {s : State} {a : BitVec 14} (ha : regAddr a ≠ none)
    (h : ¬ (s.busy = true ∧ a ≠ 0x0000 ∧ a ≠ 0x0008)) : ∃ d, s.hostRead a = { s with busReply := some (.read d true) } := by
  obtain ⟨r, hr⟩ := Option.ne_none_iff_exists'.mp ha
  refine ⟨_, State.hostRead_of_readable hr ?_⟩
  by_cases hb : s.busy = true
  · have hread : r = .id ∨ r = .status := by
      by_cases hid : a = 0x0000
      · exact .inl (Option.some.inj (hr.symm.trans (hid ▸ regAddr_id)))
      · have hst : a = 0x0008 := by_contra fun hst => h ⟨hb, hid, hst⟩
        exact .inr (Option.some.inj (hr.symm.trans (hst ▸ regAddr_status)))
    exact .inr (readableWhileBusy_iff.mpr hread)
  · exact .inl (Bool.eq_false_of_not_eq_true hb)

/-- The registers an idle block does not let the host write. -/
theorem State.writeReg_eq_none_iff {s : State} {w : Word} {r : RegAddr} : s.writeReg w r = none ↔
    r ∈ [.id, .ecmd, .einfo, .cmdcnt] ∨ (r = .cmd ∧ s.err ≠ 0) := by
  cases r <;> simp [State.writeReg]

/-- The same registers by their addresses (`20_memory.md` R64, R67 (c), (e)). -/
theorem State.writeReg_eq_none_iff_address {s : State} {w : Word} {a : BitVec 14} {r : RegAddr} (hr : regAddr a = some r) :
    s.writeReg w r = none ↔ a ∈ [0x0000, 0x0014, 0x0018, 0x001C] ∨ (a = 0x000C ∧ s.err ≠ 0) := by
  have at_iff {c : BitVec 14} {q : RegAddr} (hc : regAddr c = some q) : r = q ↔ a = c := by
    rw [← regAddr_eq_some_iff hc, hr, Option.some_inj]
  simp only [State.writeReg_eq_none_iff, List.mem_cons, List.not_mem_nil, or_false, at_iff regAddr_id, at_iff regAddr_ecmd,
    at_iff regAddr_einfo, at_iff regAddr_cmdcnt, at_iff regAddr_cmd]

/-- A served write leaves `BUSERR`, unless it writes 1 to it in `STATUS` (`10_state.md` R29). -/
theorem State.busErr_of_writeReg_some {s t : State} {w : Word} {r : RegAddr} (h : s.writeReg w r = some t) :
    t.busErr = s.busErr ∨ (r = .status ∧ w.getLsbD 2 = true) := by
  rcases State.writeReg_some h with ⟨-, rfl⟩ | ⟨rfl, rfl⟩ | ⟨-, -, rfl⟩ | ⟨-, rfl⟩ | ⟨i, -, rfl⟩ | ⟨o, -, rfl⟩
  case inr.inl =>
    cases hw : w.getLsbD 2
    · exact .inl (by rw [State.writeStatus_busErr, hw, Bool.not_false, Bool.and_true])
    · exact .inr ⟨rfl, rfl⟩
  case inl => exact .inl (by rw [State.writeCtrl_eq])
  all_goals exact .inl rfl

/-- An idle block serves a write to a mapped address that is neither read-only nor `CMD` while an error is pending. -/
theorem State.hostWrite_served {s : State} {a : BitVec 14} (w : Word) (hb : s.busy = false) (ha : regAddr a ≠ none)
    (h : ¬ (a ∈ [0x0000, 0x0014, 0x0018, 0x001C] ∨ (a = 0x000C ∧ s.err ≠ 0))) :
    (s.hostWrite a w).busReply = some (.write true) ∧
      ((s.hostWrite a w).busErr = s.busErr ∨ (a = 0x0008 ∧ w.getLsbD 2 = true)) := by
  obtain ⟨r, hr⟩ := Option.ne_none_iff_exists'.mp ha
  obtain ⟨t, ht⟩ := Option.ne_none_iff_exists'.mp fun hw => h ((State.writeReg_eq_none_iff_address (w := w) hr).mp hw)
  rw [State.hostWrite_of_writeReg_some hr hb ht]
  refine ⟨rfl, (State.busErr_of_writeReg_some ht).imp_right fun ⟨hst, hw⟩ => ⟨?_, hw⟩⟩
  exact (regAddr_eq_some_iff regAddr_status).mp (hst ▸ hr)

/-- A write that meets one of the grounds (a) to (e) is rejected. -/
theorem State.hostWrite_rejected {s : State} {a : BitVec 14} (w : Word) (h : regAddr a = none ∨ s.busy = true ∨
    a ∈ [0x0000, 0x0014, 0x0018, 0x001C] ∨ (a = 0x000C ∧ s.err ≠ 0)) : s.hostWrite a w = s.rejectWrite := by
  rcases h with ha | hb | hro
  · exact s.hostWrite_of_unmapped w ha
  · exact State.hostWrite_of_busy hb a w
  · rcases s.hostWrite_cases a w with hw | ⟨r, t, -, hr, ht, -⟩
    · exact hw
    · have hnone : s.writeReg w r = none := (State.writeReg_eq_none_iff_address hr).mpr hro
      exact absurd (ht.symm.trans hnone) (Option.some_ne_none t)

/-- Settles O19: the grounds are nothing mapped at the address, a command pending, and a register not open to the write;
each grounds a rejection, and without them the access is served. -/
theorem rejectedAccesses : Obligations.RejectedAccesses := by
  intro s a w reserved readRejected writeRejected
  have hread : readRejected ↔ regAddr a = none ∨ (s.busy = true ∧ a ≠ 0x0000 ∧ a ≠ 0x0008) := by
    rw [regAddr_eq_none_iff, or_assoc]
  have hwrite : writeRejected ↔ regAddr a = none ∨ s.busy = true ∨
      a ∈ [0x0000, 0x0014, 0x0018, 0x001C] ∨ (a = 0x000C ∧ s.err ≠ 0) := by
    rw [regAddr_eq_none_iff, or_assoc, or_left_comm (a := s.busy = true)]
  refine ⟨fun h => ?_, fun h => ?_, fun h => State.hostWrite_rejected w (hwrite.mp h), fun h => ?_⟩
  · rcases hread.mp h with ha | ⟨hb, hid, hst⟩
    · exact s.hostRead_of_unmapped ha
    · exact State.hostRead_of_busy hb hid hst
  · obtain ⟨ha, hopen⟩ := not_or.mp (mt hread.mpr h)
    exact State.exists_hostRead_eq_served ha hopen
  · obtain ⟨ha, hrest⟩ := not_or.mp (mt hwrite.mpr h)
    obtain ⟨hb, hopen⟩ := not_or.mp hrest
    exact State.hostWrite_served w (Bool.eq_false_of_not_eq_true hb) ha hopen

/-- Settles O18: `ID` and `STATUS` are readable while a command is pending, and every other access is rejected. -/
theorem pendingBlockServesIdAndStatusOnly : Obligations.PendingBlockServesIdAndStatusOnly := fun _ hb =>
  ⟨State.hostRead_of_readable regAddr_id (.inr rfl), State.hostRead_of_readable regAddr_status (.inr rfl),
    fun _ hid hst => State.hostRead_of_busy hb hid hst, State.hostWrite_of_busy hb⟩

end Sys2Proof.Machine
end

section
/-! The decoder read as the opcode map: what it answers to a word with the opcode of a row, and to one with no row's
opcode; which words are illegal (`30_encoding.md` R94, R95, R97), and the worked encodings (R102). -/

namespace Sys2Proof

/-! ## Fields of a word -/

/-- The opcode field is the word's highest byte. -/
theorem opcode_toNat (w : Word) : (w.extractLsb' 24 8).toNat = w.toNat / 2 ^ 24 := by
  rw [BitVec.extractLsb'_toNat, Nat.shiftRight_eq_div_pow, Nat.mod_eq_of_lt]
  omega

theorem field4_val (w : Word) (lo : Nat) : (field4 w lo).val = w.toNat / 2 ^ lo % 16 := by
  rw [field4, ← BitVec.toNat, BitVec.extractLsb'_toNat, Nat.shiftRight_eq_div_pow]

/-- The mask of the field of `len` bits from bit `lo` on. -/
def fieldMask (lo len : Nat) : Word := (BitVec.allOnes len).setWidth 32 <<< lo

theorem getLsbD_fieldMask (lo len n : Nat) :
    (fieldMask lo len).getLsbD n = true ↔ n < 32 ∧ lo ≤ n ∧ n < lo + len := by
  simp only [fieldMask, BitVec.getLsbD_shiftLeft, BitVec.getLsbD_setWidth, BitVec.getLsbD_allOnes, Bool.and_eq_true,
    Bool.not_eq_true', decide_eq_true_iff, decide_eq_false_iff_not]
  omega

/-- A field is 0 iff its mask meets no bit of the word. -/
theorem and_fieldMask_eq_zero_iff (w : Word) (lo len : Nat) :
    w &&& fieldMask lo len = 0#32 ↔ w.extractLsb' lo len = 0#len := by
  simp only [BitVec.zero_iff_eq_false, ← Bool.not_eq_true, BitVec.getLsbD_and, BitVec.getLsbD_extractLsb', Bool.and_eq_true,
    decide_eq_true_iff, getLsbD_fieldMask, not_and]
  constructor
  · exact fun h n hn hw => h (lo + n) hw (BitVec.lt_of_getLsbD hw) (by omega) (by omega)
  · intro h n hw _ hlo hhi
    exact h (n - lo) (by omega) (by rwa [Nat.add_sub_cancel' hlo])

/-- The conjunction distributes over the exclusive or. -/
theorem xor_and_distrib (x y m : Word) : (x ^^^ y) &&& m = x &&& m ^^^ y &&& m :=
  BitVec.eq_of_getElem_eq (by simp [Bool.and_xor_distrib_right])

theorem zeroField_eq (w : Word) (lo len : Nat) : zeroField w lo len = (w &&& fieldMask lo len == 0) := by
  rw [zeroField, Bool.eq_iff_iff, beq_iff_eq, beq_iff_eq]
  exact (and_fieldMask_eq_zero_iff w lo len).symm

theorem zeroField_and_zeroField (w : Word) (lo len lo' len' : Nat) :
    (zeroField w lo len && zeroField w lo' len') = (w &&& (fieldMask lo len ||| fieldMask lo' len') == 0) := by
  rw [zeroField_eq, zeroField_eq, Bool.eq_iff_iff, Bool.and_eq_true, beq_iff_eq, beq_iff_eq, beq_iff_eq,
    BitVec.and_or_distrib_left]
  exact BitVec.or_eq_zero_iff.symm

/-! ## Rows of the opcode map -/

/-- The bits of the must-be-zero fields of a row: its mask below the opcode. -/
def OpcodeRow.zeroMask (r : OpcodeRow) : Word := r.mask &&& fieldMask 0 24

/-- Does the word's `fn` meet the row's constraint? -/
def OpcodeRow.fnLegal (r : OpcodeRow) (w : Word) : Bool :=
  decide (r.fnLo ≤ (field4 w 8).val) && decide ((field4 w 8).val ≤ r.fnHi)

theorem OpcodeRow.fnLegal_iff (r : OpcodeRow) (w : Word) :
    r.fnLegal w = true ↔ r.fnLo ≤ w.toNat / 2 ^ 8 % 16 ∧ w.toNat / 2 ^ 8 % 16 ≤ r.fnHi := by
  rw [OpcodeRow.fnLegal, field4_val, Bool.and_eq_true, decide_eq_true_iff, decide_eq_true_iff]

theorem OpcodeRow.spells_iff (r : OpcodeRow) (w : Word) :
    r.spells w = true ↔ w &&& r.mask = r.pattern ∧ r.fnLegal w = true := by
  rw [OpcodeRow.spells, Bool.and_assoc, Bool.and_eq_true, beq_iff_eq, OpcodeRow.fnLegal]

/-- Mask and match of every row are the opcode field and the must-be-zero fields. -/
theorem opcodeTable_masks : ∀ r ∈ opcodeTable, r.mask = fieldMask 24 8 ||| r.zeroMask ∧
    (r.pattern.extractLsb' 24 8).toNat = r.op ∧ r.pattern &&& r.mask = r.pattern ∧ r.pattern &&& r.zeroMask = 0#32 := by
  decide

/-- A word meets mask and match of a row iff it has the row's opcode and its must-be-zero fields are 0. -/
theorem and_mask_eq_pattern_iff {r : OpcodeRow} (hr : r ∈ opcodeTable) (w : Word) :
    w &&& r.mask = r.pattern ↔ r.op = w.toNat / 2 ^ 24 ∧ w &&& r.zeroMask = 0#32 := by
  obtain ⟨hmask, hop, hself, hzero⟩ := opcodeTable_masks r hr
  have hopcode : w.extractLsb' 24 8 ^^^ r.pattern.extractLsb' 24 8 = 0#8 ↔ r.op = w.toNat / 2 ^ 24 := by
    rw [BitVec.xor_eq_zero_iff, ← BitVec.toNat_inj, hop, opcode_toNat, eq_comm]
  have hfields : (w ^^^ r.pattern) &&& r.zeroMask = w &&& r.zeroMask := by
    rw [xor_and_distrib, hzero, BitVec.xor_zero]
  calc w &&& r.mask = r.pattern
      ↔ (w ^^^ r.pattern) &&& r.mask = 0#32 := by rw [xor_and_distrib, hself, BitVec.xor_eq_zero_iff]
    _ ↔ (w ^^^ r.pattern).extractLsb' 24 8 = 0#8 ∧ (w ^^^ r.pattern) &&& r.zeroMask = 0#32 := by
      rw [hmask, BitVec.and_or_distrib_left, BitVec.or_eq_zero_iff, and_fieldMask_eq_zero_iff]
    _ ↔ r.op = w.toNat / 2 ^ 24 ∧ w &&& r.zeroMask = 0#32 := by rw [BitVec.extractLsb'_xor, hopcode, hfields]

/-! ## The decoder's answer -/

/-! A word with a known opcode is checked for its must-be-zero fields first, then for its constraint. -/

@[simp] theorem legalIf_eq_nonzeroField_iff {z : Bool} {i : Instr} : legalIf z i = .error .nonzeroField ↔ z = false := by
  cases z <;> cases h : i.wf <;> simp [legalIf, h]

@[simp] theorem legalIf_eq_fnOutOfRange_iff {z : Bool} {i : Instr} :
    legalIf z i = .error .fnOutOfRange ↔ z = true ∧ i.wf = false := by
  cases z <;> cases h : i.wf <;> simp [legalIf, h]

@[simp] theorem legalIf_ne_unknownOpcode {z : Bool} {i : Instr} : legalIf z i ≠ .error .unknownOpcode := by
  cases z <;> cases h : i.wf <;> simp [legalIf, h]

/-- `d` is what row `r` says a decoder answers to a word `w` with its opcode: the row's command `i` if the must-be-zero
fields are 0 and `fn` meets the constraint. -/
def OpcodeRow.Answers (r : OpcodeRow) (w : Word) (d : Except Illegal Instr) : Prop :=
  ∃ i : Instr, i.mnemonic = r.mnemonic ∧ i.wf = r.fnLegal w ∧ d = legalIf (w &&& r.zeroMask == 0) i

section Rows

variable {r : OpcodeRow} {w : Word} {i : Instr} {lo len lo' len' : Nat}

/-- η in `fn`. -/
theorem legalEta_eq_fnLegal (hlo : r.fnLo = 2) (hhi : r.fnHi = 3) : legalEta (field4 w 8) = r.fnLegal w := by
  rw [legalEta, OpcodeRow.fnLegal, hlo, hhi, Bool.eq_iff_iff]
  simp only [Bool.or_eq_true, beq_iff_eq, Bool.and_eq_true, decide_eq_true_iff]
  omega

/-- No constraint on `fn`: it is at most 15. -/
theorem OpcodeRow.fnLegal_of_full_range (hlo : r.fnLo = 0) (hhi : r.fnHi = 15) : r.fnLegal w = true := by
  have hfn : (field4 w 8).val ≤ 15 := Nat.le_of_lt_succ (field4 w 8).isLt
  simp [OpcodeRow.fnLegal, hlo, hhi, hfn]

namespace OpcodeRow.Answers

/-- A row with one must-be-zero field. -/
theorem oneField (hname : i.mnemonic = r.mnemonic) (hmask : r.zeroMask = fieldMask lo len) (hfn : i.wf = r.fnLegal w) :
    r.Answers w (legalIf (zeroField w lo len) i) :=
  ⟨i, hname, hfn, by rw [zeroField_eq, hmask]⟩

/-- A row with two must-be-zero fields. -/
theorem twoFields (hname : i.mnemonic = r.mnemonic) (hmask : r.zeroMask = fieldMask lo len ||| fieldMask lo' len')
    (hfn : i.wf = r.fnLegal w) : r.Answers w (legalIf (zeroField w lo len && zeroField w lo' len') i) :=
  ⟨i, hname, hfn, by rw [zeroField_and_zeroField, hmask]⟩

/-- A row with one must-be-zero field and no constraint on `fn`. -/
theorem free (hname : i.mnemonic = r.mnemonic) (hmask : r.zeroMask = fieldMask lo len) (hwf : i.wf = true)
    (hlo : r.fnLo = 0) (hhi : r.fnHi = 15) : r.Answers w (legalIf (zeroField w lo len) i) :=
  oneField hname hmask (hwf.trans (fnLegal_of_full_range hlo hhi).symm)

end OpcodeRow.Answers

end Rows

/-- The decoder's answer to a word with the opcode of a row is the row's (`30_encoding.md` R95). One line per family of
opcodes below, in the order of the table. -/
theorem decode_of_row {r : OpcodeRow} (hr : r ∈ opcodeTable) {w : Word} (hop : r.op = w.toNat / 2 ^ 24) :
    r.Answers w (decode w) := by
  unfold decode
  rw [opcode_toNat, ← hop]
  clear hop
  revert r
  simp only [opcodeTable, opcodeRowsArithmetic, opcodeRowsObjects, List.cons_append, List.nil_append, List.forall_mem_cons]
  exact ⟨.free rfl rfl rfl rfl rfl, .free rfl rfl rfl rfl rfl,
    .free rfl rfl rfl rfl rfl, .free rfl rfl rfl rfl rfl, .free rfl rfl rfl rfl rfl, .free rfl rfl rfl rfl rfl,
      .free rfl rfl rfl rfl rfl,
    .free rfl rfl rfl rfl rfl, .free rfl rfl rfl rfl rfl, .free rfl rfl rfl rfl rfl, .free rfl rfl rfl rfl rfl,
      .free rfl rfl rfl rfl rfl, .free rfl rfl rfl rfl rfl, .free rfl rfl rfl rfl rfl,
    .free rfl rfl rfl rfl rfl, .twoFields rfl rfl (legalEta_eq_fnLegal rfl rfl),
      .oneField rfl rfl (legalEta_eq_fnLegal rfl rfl),
    .twoFields rfl rfl rfl, .twoFields rfl rfl rfl, .twoFields rfl rfl rfl, .oneField rfl rfl rfl,
    .free rfl rfl rfl rfl rfl, .free rfl rfl rfl rfl rfl, .free rfl rfl rfl rfl rfl,
    .free rfl rfl rfl rfl rfl, .free rfl rfl rfl rfl rfl, .free rfl rfl rfl rfl rfl, List.forall_mem_nil _⟩

/-- A word whose opcode is in no row (`30_encoding.md` R97 (a)). -/
theorem decode_of_no_row {w : Word} (h : ∀ r ∈ opcodeTable, r.op ≠ w.toNat / 2 ^ 24) : decode w = .error .unknownOpcode := by
  have hop : (w.extractLsb' 24 8).toNat ∉ opcodeTable.map fun r => r.op := by
    rw [opcode_toNat]
    exact List.forall_mem_ne'.mp (List.forall_mem_map.mpr h)
  unfold decode
  split
  case h_28 => rfl
  all_goals
    next heq => exact absurd (by rw [heq]; decide) hop

/-! ## Illegal words (`30_encoding.md` R97) -/

section RowOfOpcode

variable {r : OpcodeRow} (hr : r ∈ opcodeTable) {w : Word} (hop : r.op = w.toNat / 2 ^ 24)
include hr hop

theorem and_zeroMask_beq_iff_of_row : (w &&& r.zeroMask == 0) = true ↔ w &&& r.mask = r.pattern := by
  rw [beq_iff_eq, and_mask_eq_pattern_iff hr w]
  exact (and_iff_right hop).symm

theorem decode_ne_unknownOpcode_of_row : decode w ≠ .error .unknownOpcode := by
  obtain ⟨i, -, -, hd⟩ := decode_of_row hr hop
  rw [hd]
  exact legalIf_ne_unknownOpcode

theorem decode_eq_nonzeroField_iff_of_row : decode w = .error .nonzeroField ↔ w &&& r.mask ≠ r.pattern := by
  obtain ⟨i, -, -, hd⟩ := decode_of_row hr hop
  rw [hd, legalIf_eq_nonzeroField_iff, ← Bool.not_eq_true, and_zeroMask_beq_iff_of_row hr hop]

theorem decode_eq_fnOutOfRange_iff_of_row :
    decode w = .error .fnOutOfRange ↔ w &&& r.mask = r.pattern ∧ ¬ r.fnLegal w = true := by
  obtain ⟨i, -, hfn, hd⟩ := decode_of_row hr hop
  rw [hd, legalIf_eq_fnOutOfRange_iff, and_zeroMask_beq_iff_of_row hr hop, hfn, Bool.not_eq_true]

/-- A word that does not spell the row of its opcode is no command. -/
theorem decode_error_of_row (h : r.spells w = false) : ∃ e, decode w = .error e := by
  by_cases hmask : w &&& r.mask = r.pattern
  · have hfn : ¬ r.fnLegal w = true := fun hfn =>
      Bool.eq_false_iff.mp h ((r.spells_iff w).mpr ⟨hmask, hfn⟩)
    exact ⟨_, (decode_eq_fnOutOfRange_iff_of_row hr hop).mpr ⟨hmask, hfn⟩⟩
  · exact ⟨_, (decode_eq_nonzeroField_iff_of_row hr hop).mpr hmask⟩

end RowOfOpcode

theorem length_opcodes_in_no_row :
    ((List.range 256).filter fun op => !(opcodeTable.map fun r => r.op).contains op).length = 229 := by
  rfl

/-- Kind (a): the opcode is in no row. -/
theorem decode_eq_unknownOpcode_iff (w : Word) :
    decode w = .error .unknownOpcode ↔ ∀ r ∈ opcodeTable, r.op ≠ w.toNat / 2 ^ 24 :=
  ⟨fun h _ hr hop => decode_ne_unknownOpcode_of_row hr hop h, decode_of_no_row⟩

/-- A word is of kind (a), or its opcode is that of a row. -/
theorem unknownOpcode_or_row (w : Word) :
    decode w = .error .unknownOpcode ∨ ∃ r ∈ opcodeTable, r.op = w.toNat / 2 ^ 24 := by
  rcases em (∃ r ∈ opcodeTable, r.op = w.toNat / 2 ^ 24) with hrow | hno
  · exact .inr hrow
  · exact .inl (decode_of_no_row fun r hr hop => hno ⟨r, hr, hop⟩)

/-- Kind (b): the opcode is a row's, and mask and match of that row are not met. -/
theorem decode_eq_nonzeroField_iff (w : Word) : decode w = .error .nonzeroField ↔
    ∃ r ∈ opcodeTable, r.op = w.toNat / 2 ^ 24 ∧ w &&& r.mask ≠ r.pattern := by
  constructor
  · intro h
    rcases unknownOpcode_or_row w with hno | ⟨r, hr, hop⟩
    · simp [h] at hno
    · exact ⟨r, hr, hop, (decode_eq_nonzeroField_iff_of_row hr hop).mp h⟩
  · rintro ⟨r, hr, hop, hmask⟩
    exact (decode_eq_nonzeroField_iff_of_row hr hop).mpr hmask

/-- Kind (c): mask and match of a row are met, and its constraint on `fn` is not. -/
theorem decode_eq_fnOutOfRange_iff (w : Word) : decode w = .error .fnOutOfRange ↔
    ∃ r ∈ opcodeTable, w &&& r.mask = r.pattern ∧ ¬ r.fnLegal w = true := by
  constructor
  · intro h
    rcases unknownOpcode_or_row w with hno | ⟨r, hr, hop⟩
    · simp [h] at hno
    · exact ⟨r, hr, (decode_eq_fnOutOfRange_iff_of_row hr hop).mp h⟩
  · rintro ⟨r, hr, hmask, hfn⟩
    obtain ⟨hop, -⟩ := (and_mask_eq_pattern_iff hr w).mp hmask
    exact (decode_eq_fnOutOfRange_iff_of_row hr hop).mpr ⟨hmask, hfn⟩

/-- A word that spells no row is no command (`30_encoding.md` R95). -/
theorem decode_error_of_spells_none {w : Word} (h : ∀ r ∈ opcodeTable, r.spells w = false) : ∃ e, decode w = .error e := by
  rcases unknownOpcode_or_row w with hno | ⟨r, hr, hop⟩
  · exact ⟨_, hno⟩
  · exact decode_error_of_row hr hop (h r hr)

/-- Settles O5: the row of a word's opcode, if there is one, says which of the decoder's errors it meets, and every one of
them ends the engine's turn with `ILLEGAL_CMD`. -/
theorem illegalWordEndsWithIllegalCmd : Obligations.IllegalWordEndsWithIllegalCmd := by
  refine ⟨fun s hb h => ?_, length_opcodes_in_no_row, decode_eq_unknownOpcode_iff, decode_eq_nonzeroField_iff, fun w => ?_⟩
  · obtain ⟨e, he⟩ := decode_error_of_spells_none h
    exact Machine.engineTurn_of_error hb he
  · simp only [decode_eq_fnOutOfRange_iff, OpcodeRow.fnLegal_iff]

/-- Settles O4: the ten words and commands, evaluated. -/
theorem workedEncodings : Obligations.WorkedEncodings := by
  unfold Obligations.WorkedEncodings
  decide

end Sys2Proof
end

section
/-! The scalar arithmetic commands of `40_control_scalar.md`: the range check of their operands, and the Montgomery
multiplier as a product modulo q. -/

namespace Sys2Proof.Machine

/-! ## The range check (`40_control_scalar.md` R131) -/

/-- Fields side by side are the sum of their values at their places. -/
theorem toNat_append_eq_add {m n : Nat} (x : BitVec m) (y : BitVec n) : (x ++ y).toNat = x.toNat * 2 ^ n + y.toNat := by
  rw [BitVec.toNat_append, ← Nat.shiftLeft_add_eq_or_of_lt y.isLt, Nat.shiftLeft_eq]

/-- `EINFO` as the sum of its fields at their places (`10_state.md` R33). -/
theorem einfoWord_eq_ofNat (content : Bool) (idx : BitVec 4) (val : Half) :
    einfoWord content idx val = BitVec.ofNat 32 (content.toNat * 2 ^ 31 + idx.toNat * 2 ^ 16 + val.toNat) := by
  apply BitVec.eq_of_toNat_eq
  have hcontent := content.toNat_le
  simp only [einfoWord, toNat_append_eq_add, BitVec.toNat_ofBool, BitVec.toNat_ofNat]
  omega

/-- What `OPERAND_RANGE` records (`60_exceptions.md` R254, R262). -/
theorem State.raiseError_operandRange (s : State) (idx : BitVec 4) (val : Half) :
    s.raiseError (.operandRange idx val) = s.failedWith 5 0 idx.toNat val := by
  simp only [State.raiseError, State.failedWith, CmdError.code, CmdError.info, einfoWord_eq_ofNat, Bool.toNat_false]

theorem rangeCheck_of_ge {idx : BitVec 4} {v : Half} (h : 3329 ≤ v.toNat) :
    rangeCheck idx v = some (.operandRange idx v) := if_neg (Nat.not_lt.mpr h)

section RangeCheck

variable {s : State} {ra : RegNum}

/-- A command whose first check is the range check of `X[ra]` ends with it when it fails, whatever comes after. -/
theorem State.checked_of_first_out_of_range (ha : 3329 ≤ (s.x[ra]).toNat) (checks : List (Option CmdError)) (t : State) :
    s.checked (rangeCheck 0 (s.readX ra) :: checks) t = .next (s.failedWith 5 0 0 s.x[ra]) := by
  have hfail : firstError (rangeCheck 0 (s.readX ra) :: checks) = some (.operandRange 0 s.x[ra]) := by
    rw [State.readX, rangeCheck_of_ge ha, firstError_some]
  rw [State.checked_of_some hfail, State.raiseError_operandRange]
  rfl

/-- A three-register command reports `X[rb]` when `X[ra]` is canonical and `X[rb]` is not. -/
theorem scalarBinary_of_second_out_of_range (f : Nat → Nat → Nat) (rd : RegNum) {rb : RegNum}
    (ha : (s.x[ra]).toNat < 3329) (hb : 3329 ≤ (s.x[rb]).toNat) :
    scalarBinary f rd ra rb s = .next (s.failedWith 5 0 1 s.x[rb]) := by
  have hfail : firstError [rangeCheck 0 (s.readX ra), rangeCheck 1 (s.readX rb)] = some (.operandRange 1 s.x[rb]) := by
    rw [State.readX, rangeCheck_eq_none.mpr ha, firstError_none, State.readX, rangeCheck_of_ge hb, firstError_some]
  rw [scalarBinary, State.checked_of_some hfail, State.raiseError_operandRange]
  rfl

end RangeCheck

/-- Settles O33: the range checks are the only checks of the four commands, that of `X[ra]` first. -/
theorem operandRangeErrors : Obligations.OperandRangeErrors := by
  refine fun s rd ra rb => ⟨fun ha => ?first, fun ha hb => ?second⟩
  case first =>
    have hends := State.checked_of_first_out_of_range ha
    exact ⟨hends _ _, hends _ _, hends _ _, hends _ _⟩
  case second =>
    have hends f := scalarBinary_of_second_out_of_range f rd ha hb
    exact ⟨hends montmul, hends modadd, hends modsub⟩

/-! ## The Montgomery multiplier (`40_control_scalar.md` R124) -/

/-- Line `t` of the multiplier for the product `T`, before its last correction. -/
def montgomeryQuotient (T : Nat) : Nat := (T + T % 2 ^ 16 * 3327 % 2 ^ 16 * 3329) / 2 ^ 16

theorem montmul_eq_ite (a b : Nat) : montmul a b =
    if 3329 ≤ montgomeryQuotient (a * b) then montgomeryQuotient (a * b) - 3329 else montgomeryQuotient (a * b) := rfl

/-- The multiple of q that is added clears the low 16 bits, as 3327·3329 is -1 modulo 2^16 (R125 (1)). -/
theorem montgomery_sum_mod_eq_zero (T : Nat) : (T + T % 2 ^ 16 * 3327 % 2 ^ 16 * 3329) % 2 ^ 16 = 0 := by
  omega

theorem montgomeryQuotient_mul (T : Nat) : montgomeryQuotient T * 2 ^ 16 = T + T % 2 ^ 16 * 3327 % 2 ^ 16 * 3329 :=
  Nat.div_mul_cancel (Nat.dvd_of_mod_eq_zero (montgomery_sum_mod_eq_zero T))

/-- 169 is the inverse of 2^16 modulo q, so the division by 2^16 multiplies by 169 (R125 (2)). -/
theorem montgomeryQuotient_modEq (T : Nat) : montgomeryQuotient T ≡ T * 169 [MOD 3329] := by
  have hinv : 2 ^ 16 * 169 ≡ 1 [MOD 3329] := by decide
  calc montgomeryQuotient T
      = montgomeryQuotient T * 1 := (Nat.mul_one _).symm
    _ ≡ montgomeryQuotient T * (2 ^ 16 * 169) [MOD 3329] := hinv.symm.mul_left _
    _ = (T + T % 2 ^ 16 * 3327 % 2 ^ 16 * 3329) * 169 := by rw [← Nat.mul_assoc, montgomeryQuotient_mul]
    _ ≡ T * 169 [MOD 3329] := Nat.ModEq.mul_right _ (by simp [Nat.ModEq])

/-- One subtraction of q is enough (R125 (3)). -/
theorem montgomeryQuotient_lt {T : Nat} (h : T ≤ 3328 * 3328) : montgomeryQuotient T < 2 * 3329 := by
  have hmul := montgomeryQuotient_mul T
  omega

section Montmul

variable {a b : Nat} (ha : a < 3329) (hb : b < 3329)
include ha hb

theorem mul_le_of_canonical : a * b ≤ 3328 * 3328 := Nat.mul_le_mul (Nat.le_of_lt_succ ha) (Nat.le_of_lt_succ hb)

/-- The multiplier's closed form on canonical inputs (`40_control_scalar.md` R124). -/
theorem montmul_eq : montmul a b = a * b * 169 % 3329 := by
  have hlt := montgomeryQuotient_lt (mul_le_of_canonical ha hb)
  have hmod : montmul a b = montgomeryQuotient (a * b) % 3329 := by
    rw [montmul_eq_ite]
    split <;> omega
  rw [hmod]
  exact montgomeryQuotient_modEq (a * b)

theorem montmul_lt : montmul a b < 3329 := montmul_eq ha hb ▸ Nat.mod_lt _ (by decide)

end Montmul

/-! ## Exact products made from it (`40_control_scalar.md` R132) -/

section ExactProducts

variable {a : Nat} (ha : a < 3329)
include ha

/-- A constant kept in Montgomery form, `c·2285`, gives the product by `c`: 2285·169 is 1 modulo q. -/
theorem montmul_montgomeryForm (c : Nat) : montmul a (c * 2285 % 3329) = a * c % 3329 := by
  have hinv : 2285 * 169 ≡ 1 [MOD 3329] := by decide
  rw [montmul_eq ha (Nat.mod_lt _ (by decide))]
  calc a * (c * 2285 % 3329) * 169
      ≡ a * (c * 2285) * 169 [MOD 3329] := ((Nat.mod_modEq _ _).mul_left a).mul_right 169
    _ = a * c * (2285 * 169) := by ring
    _ ≡ a * c * 1 [MOD 3329] := hinv.mul_left _
    _ = a * c := Nat.mul_one _

/-- A second multiplication, by 1353, takes the factor 169 out again: 169·1353·169 is 1 modulo q. -/
theorem montmul_montmul_1353 {b : Nat} (hb : b < 3329) : montmul (montmul a b) 1353 = a * b % 3329 := by
  have hinv : 169 * 1353 * 169 ≡ 1 [MOD 3329] := by decide
  rw [montmul_eq (montmul_lt ha hb) (by decide), montmul_eq ha hb]
  calc a * b * 169 % 3329 * 1353 * 169
      ≡ a * b * 169 * 1353 * 169 [MOD 3329] := ((Nat.mod_modEq _ _).mul_right 1353).mul_right 169
    _ = a * b * (169 * 1353 * 169) := by ring
    _ ≡ a * b * 1 [MOD 3329] := hinv.mul_left _
    _ = a * b := Nat.mul_one _

end ExactProducts

/-- Settles O37: the closed form by R125's three facts about the quotient, and from it the exact products; 512 is the
Montgomery form of 3303. -/
theorem montgomeryMultiplier : Obligations.MontgomeryMultiplier := fun a b ha hb =>
  ⟨mul_le_of_canonical ha hb, montgomery_sum_mod_eq_zero (a * b), montmul_eq_ite a b, montmul_lt ha hb, montmul_eq ha hb,
    montmul_montgomeryForm ha b, montmul_montmul_1353 ha hb, montmul_montgomeryForm ha 3303, rfl⟩

end Sys2Proof.Machine
end

section
/-! The selection at the end of `MLKEM_DECAPS` (`45_mlkem.md` R238): what the OR of the differences says, the two values of
the mask, and what each of them keeps. -/

namespace Sys2Proof.Machine

/-! ## The difference of two byte strings -/

theorem foldl_or_eq_zero_iff (l : Bytes) (acc : Byte) :
    l.foldl (fun acc x => acc ||| x) acc = 0 ↔ acc = 0 ∧ l.Forall (· = 0) := by
  induction l generalizing acc with
  | nil => simp
  | cons x xs ih =>
    rw [List.foldl_cons, ih, List.forall_cons, ← and_assoc]
    exact and_congr_left' BitVec.or_eq_zero_iff

theorem diffBytes_eq_zero_iff {c c' : Bytes} (hlen : c.length = c'.length) : diffBytes c c' = 0 ↔ c' = c := by
  calc diffBytes c c' = 0
      ↔ (List.zipWith (fun a b => a ^^^ b) c c').Forall (· = 0) := by
        rw [diffBytes, foldl_or_eq_zero_iff, eq_self, true_and]
    _ ↔ List.Forall₂ (fun a b => a ^^^ b = 0) c c' := List.forall_zipWith hlen
    _ ↔ List.Forall₂ Eq c c' := by simp only [BitVec.ofNat_eq_ofNat, BitVec.xor_eq_zero_iff]
    _ ↔ c' = c := by rw [List.forall₂_eq_eq_eq, eq_comm]

/-! ## The mask and what it keeps -/

/-- The mask without a branch is the mask with one: 256 - d reaches 2^8 only where d is 0. -/
theorem maskOf_eq_ite (d : Byte) : maskOf d = if d = 0 then 0x00 else 0xFF := by
  split
  · next hzero => rw [hzero]; rfl
  · next hne =>
    have hpos : d.toNat ≠ 0 := fun h => hne (BitVec.eq_of_toNat_eq h)
    have hshift : (256 - d.toNat) / 2 ^ 8 = 0 := Nat.div_eq_of_lt (by omega)
    rw [maskOf, hshift]
    rfl

theorem maskOf_diffBytes {c c' : Bytes} (hlen : c.length = c'.length) :
    maskOf (diffBytes c c') = if c' = c then 0x00 else 0xFF := by
  simp only [maskOf_eq_ite, diffBytes_eq_zero_iff hlen]

section Select

variable {c c' K' Kbar : Bytes} (hkeys : K'.length = Kbar.length)
include hkeys

theorem select_of_mask_eq_zero (hmask : maskOf (diffBytes c c') = 0x00) : select c c' K' Kbar = K' := by
  have hbyte (a b : Byte) : (a &&& ~~~0x00) ||| (b &&& 0x00) = a := by
    rw [show ~~~(0x00 : Byte) = BitVec.allOnes 8 from rfl, BitVec.and_allOnes]
    simp
  simp only [select, hmask, hbyte]
  rw [← List.map_uncurry_zip_eq_zipWith]
  exact List.map_fst_zip hkeys.le

theorem select_of_mask_eq_allOnes (hmask : maskOf (diffBytes c c') = 0xFF) : select c c' K' Kbar = Kbar := by
  have hbyte (a b : Byte) : (a &&& ~~~0xFF) ||| (b &&& 0xFF) = b := by
    rw [show (0xFF : Byte) = BitVec.allOnes 8 from rfl, BitVec.and_allOnes]
    simp
  simp only [select, hmask, hbyte]
  rw [← List.map_uncurry_zip_eq_zipWith]
  exact List.map_snd_zip hkeys.ge

end Select

/-- Settles O58: the mask is 0x00 exactly where every byte of the two ciphertexts agrees, and each of its two values keeps
one key whole. -/
theorem selectionByMask : Obligations.SelectionByMask := by
  intro c c' K' Kbar hlen hK' hKbar
  have hkeys : K'.length = Kbar.length := hK'.trans hKbar.symm
  have hmask := maskOf_diffBytes hlen
  refine ⟨?_, hmask⟩
  split
  · next heq => exact select_of_mask_eq_zero hkeys (hmask.trans (if_pos heq))
  · next hne => exact select_of_mask_eq_allOnes hkeys (hmask.trans (if_neg hne))

end Sys2Proof.Machine
end

section
/-! The encoder and the decoder undo each other, and both follow the opcode map (`30_encoding.md` R91, R94, R95). -/

namespace Sys2Proof

/-! ## Words made of fields -/

section WordOf

variable (op : BitVec 8) (rd ra rb fn : Fin 16) (imm8 : Byte)

/-- A word made of fields is the sum of the fields at their places. -/
theorem toNat_wordOf : (wordOf op rd ra rb fn imm8).toNat =
    op.toNat * 2 ^ 24 + rd.val * 2 ^ 20 + ra.val * 2 ^ 16 + rb.val * 2 ^ 12 + fn.val * 2 ^ 8 + imm8.toNat := by
  simp only [wordOf, Machine.toNat_append_eq_add, BitVec.toNat_ofFin]
  ring

theorem field4_wordOf_rd : field4 (wordOf op rd ra rb fn imm8) 20 = rd := by
  apply Fin.ext
  rw [field4_val, toNat_wordOf]
  omega

theorem field4_wordOf_ra : field4 (wordOf op rd ra rb fn imm8) 16 = ra := by
  apply Fin.ext
  rw [field4_val, toNat_wordOf]
  omega

theorem field4_wordOf_rb : field4 (wordOf op rd ra rb fn imm8) 12 = rb := by
  apply Fin.ext
  rw [field4_val, toNat_wordOf]
  omega

theorem field4_wordOf_fn : field4 (wordOf op rd ra rb fn imm8) 8 = fn := by
  apply Fin.ext
  rw [field4_val, toNat_wordOf]
  omega

theorem imm8_wordOf : (wordOf op rd ra rb fn imm8).extractLsb' 0 8 = imm8 := by
  apply BitVec.eq_of_toNat_eq
  rw [BitVec.extractLsb'_toNat, Nat.shiftRight_eq_div_pow, toNat_wordOf]
  omega

end WordOf

/-- The bits of a field are 0 iff its value is. -/
theorem zeroField_iff (w : Word) (lo len : Nat) : zeroField w lo len = true ↔ w.toNat / 2 ^ lo % 2 ^ len = 0 := by
  rw [zeroField, beq_iff_eq, ← BitVec.toNat_inj, BitVec.extractLsb'_toNat, Nat.shiftRight_eq_div_pow]
  simp

theorem toNat_encode_li (rd : RegNum) (imm16 : Half) :
    (encode (.li rd imm16)).toNat = 0x10 * 2 ^ 24 + rd.val * 2 ^ 20 + imm16.toNat := by
  simp only [encode, Machine.toNat_append_eq_add, BitVec.toNat_ofFin, BitVec.toNat_ofNat]
  omega

/-! ## Decoding an encoded command -/

/-- A field of a word made of fields is 0 if it is 0 in the sum. -/
theorem zeroField_wordOf_of_toNat {op : BitVec 8} {rd ra rb fn : Fin 16} {imm8 : Byte} {lo len : Nat}
    (h : (op.toNat * 2 ^ 24 + rd.val * 2 ^ 20 + ra.val * 2 ^ 16 + rb.val * 2 ^ 12 + fn.val * 2 ^ 8 + imm8.toNat) / 2 ^ lo
      % 2 ^ len = 0) : zeroField (wordOf op rd ra rb fn imm8) lo len = true :=
  (zeroField_iff _ lo len).mpr (toNat_wordOf op rd ra rb fn imm8 ▸ h)

/-! Each format reads its own fields back (`30_encoding.md` R91). -/

theorem formatN_wordOf (op : BitVec 8) (i : Instr) (hwf : i.wf = true) : formatN (wordOf op 0 0 0 0 0) i = .ok i := by
  have hzero : zeroField (wordOf op 0 0 0 0 0) 0 24 = true := zeroField_wordOf_of_toNat (by simp)
  simp only [formatN, legalIf, hzero, hwf, if_true]

section Formats

variable (op : BitVec 8) (rd ra rb fn : Fin 16)

theorem formatR3_wordOf (mk : RegNum → RegNum → RegNum → Instr) (hwf : (mk rd ra rb).wf = true) :
    formatR3 (wordOf op rd ra rb 0 0) mk = .ok (mk rd ra rb) := by
  have hzero : zeroField (wordOf op rd ra rb 0 0) 0 12 = true := zeroField_wordOf_of_toNat (by simp; omega)
  simp only [formatR3, legalIf, hzero, field4_wordOf_rd, field4_wordOf_ra, field4_wordOf_rb, hwf, if_true]

theorem formatR2_wordOf (mk : RegNum → RegNum → Instr) (hwf : (mk rd ra).wf = true) :
    formatR2 (wordOf op rd ra 0 0 0) mk = .ok (mk rd ra) := by
  have hzero : zeroField (wordOf op rd ra 0 0 0) 0 16 = true := zeroField_wordOf_of_toNat (by simp; omega)
  simp only [formatR2, legalIf, hzero, field4_wordOf_rd, field4_wordOf_ra, hwf, if_true]

theorem zeroField_wordOf_imm8 : zeroField (wordOf op rd ra rb fn 0) 0 8 = true :=
  zeroField_wordOf_of_toNat (by simp; omega)

theorem zeroField_wordOf_rb (imm8 : Byte) : zeroField (wordOf op rd ra 0 fn imm8) 12 4 = true :=
  zeroField_wordOf_of_toNat (by simp; omega)

theorem formatSfn_wordOf (mk : RegNum → RegNum → Fin 16 → Instr) (hwf : (mk rd ra fn).wf = true) :
    formatSfn (wordOf op rd ra 0 fn 0) mk = .ok (mk rd ra fn) := by
  simp only [formatSfn, legalIf, zeroField_wordOf_imm8, zeroField_wordOf_rb, field4_wordOf_rd, field4_wordOf_ra,
    field4_wordOf_fn, hwf, Bool.and_self, if_true]

/-- Format S where every field but `imm8` is an operand. -/
theorem formatS_wordOf_fields (mk : RegNum → RegNum → Fin 16 → Fin 16 → Instr) (hwf : (mk rd ra rb fn).wf = true) :
    let w := wordOf op rd ra rb fn 0
    legalIf (zeroField w 0 8) (mk (field4 w 20) (field4 w 16) (field4 w 12) (field4 w 8)) = .ok (mk rd ra rb fn) := by
  simp only [legalIf, zeroField_wordOf_imm8, field4_wordOf_rd, field4_wordOf_ra, field4_wordOf_rb, field4_wordOf_fn, hwf,
    if_true]

/-- Format S where every field but `rb` is an operand. -/
theorem formatS_wordOf_imm8 (imm8 : Byte) (mk : RegNum → RegNum → Fin 16 → Byte → Instr) (hwf : (mk rd ra fn imm8).wf = true) :
    let w := wordOf op rd ra 0 fn imm8
    legalIf (zeroField w 12 4) (mk (field4 w 20) (field4 w 16) (field4 w 8) (w.extractLsb' 0 8)) = .ok (mk rd ra fn imm8) := by
  simp only [legalIf, zeroField_wordOf_rb, field4_wordOf_rd, field4_wordOf_ra, field4_wordOf_fn, imm8_wordOf, hwf, if_true]

end Formats

theorem decode_encode_li (rd : RegNum) (imm16 : Half) : decode (encode (.li rd imm16)) = .ok (.li rd imm16) := by
  have hword := toNat_encode_li rd imm16
  have hop : ((encode (.li rd imm16)).extractLsb' 24 8).toNat = 0x10 := by rw [opcode_toNat]; omega
  have hzero : zeroField (encode (.li rd imm16)) 16 4 = true := (zeroField_iff _ 16 4).mpr (by omega)
  have hrd : field4 (encode (.li rd imm16)) 20 = rd := Fin.ext (by rw [field4_val]; omega)
  have himm : (encode (.li rd imm16)).extractLsb' 0 16 = imm16 := by
    apply BitVec.eq_of_toNat_eq
    rw [BitVec.extractLsb'_toNat, Nat.shiftRight_eq_div_pow]
    omega
  rw [decode, hop]
  simp [legalIf, hzero, hrd, himm, Instr.wf]

/-- Settles O1: the opcode names the format, and the format reads each field back from the place it was written to. -/
theorem decodingInvertsEncoding : Obligations.DecodingInvertsEncoding := by
  intro i hwf
  cases i
  case li rd imm16 => exact decode_encode_li rd imm16
  all_goals rw [encode, decode, Laws.OpcodeOfWord.opcode_wordOf]
  case nop | zeroize | kpkeKeygen | kpkeEnc | kpkeDec | mlkemKeygen | mlkemEncaps | mlkemDecaps =>
    exact formatN_wordOf _ _ rfl
  case montmul | modadd | modsub | padd | psub | basemul => exact formatR3_wordOf _ _ _ _ _ rfl
  case modneg | pneg | pmov | ntt | intt => exact formatR2_wordOf _ _ _ _ rfl
  case cbd | compress | decompress | encode => exact formatSfn_wordOf _ _ _ _ _ hwf
  case samplentt | decode => exact formatS_wordOf_fields _ _ _ _ _ _ hwf
  case prfcbd => exact formatS_wordOf_imm8 _ _ _ _ _ _ hwf

/-! ## The one spelling of a decoded command -/

theorem legalIf_eq_ok_iff {z : Bool} {j i : Instr} : legalIf z j = .ok i ↔ z = true ∧ j.wf = true ∧ j = i := by
  cases z <;> cases h : j.wf <;> simp [legalIf, h]

/-- A decoded command is well-formed, and spells the word if its fields do whenever the must-be-zero fields are 0. -/
theorem spells_of_legalIf {w : Word} {z : Bool} {j i : Instr} (h : legalIf z j = .ok i) (hw : z = true → encode j = w) :
    encode i = w ∧ i.wf = true := by
  obtain ⟨hz, hwf, rfl⟩ := legalIf_eq_ok_iff.mp h
  exact ⟨hw hz, hwf⟩

section Fields

variable {w : Word} {n : Nat} (hop : (w.extractLsb' 24 8).toNat = n)
include hop

/-- A word whose fields have these values is made of them. -/
theorem wordOf_eq {rd ra rb fn : Fin 16} {imm8 : Byte} (hrd : rd.val = w.toNat / 2 ^ 20 % 16) (hra : ra.val = w.toNat / 2 ^ 16 % 16)
    (hrb : rb.val = w.toNat / 2 ^ 12 % 16) (hfn : fn.val = w.toNat / 2 ^ 8 % 16) (himm8 : imm8.toNat = w.toNat % 2 ^ 8) :
    wordOf (BitVec.ofNat 8 n) rd ra rb fn imm8 = w := by
  apply BitVec.eq_of_toNat_eq
  rw [toNat_wordOf, ← hop, BitVec.ofNat_toNat, BitVec.setWidth_eq, opcode_toNat, hrd, hra, hrb, hfn, himm8]
  omega

theorem wordOf_eq_of_formatN (hz : zeroField w 0 24 = true) : wordOf (BitVec.ofNat 8 n) 0 0 0 0 0 = w := by
  rw [zeroField_iff] at hz
  apply wordOf_eq hop <;> simp <;> omega

theorem wordOf_eq_of_formatR3 (hz : zeroField w 0 12 = true) :
    wordOf (BitVec.ofNat 8 n) (field4 w 20) (field4 w 16) (field4 w 12) 0 0 = w := by
  rw [zeroField_iff] at hz
  apply wordOf_eq hop <;> simp [field4_val] <;> omega

theorem wordOf_eq_of_formatR2 (hz : zeroField w 0 16 = true) :
    wordOf (BitVec.ofNat 8 n) (field4 w 20) (field4 w 16) 0 0 0 = w := by
  rw [zeroField_iff] at hz
  apply wordOf_eq hop <;> simp [field4_val] <;> omega

theorem wordOf_eq_of_imm8 (hz : zeroField w 0 8 = true) :
    wordOf (BitVec.ofNat 8 n) (field4 w 20) (field4 w 16) (field4 w 12) (field4 w 8) 0 = w := by
  rw [zeroField_iff] at hz
  apply wordOf_eq hop <;> simp [field4_val]
  omega

theorem wordOf_eq_of_rb (hz : zeroField w 12 4 = true) :
    wordOf (BitVec.ofNat 8 n) (field4 w 20) (field4 w 16) 0 (field4 w 8) (w.extractLsb' 0 8) = w := by
  rw [zeroField_iff] at hz
  apply wordOf_eq hop <;> simp [field4_val]
  omega

theorem wordOf_eq_of_formatSfn (hz : (zeroField w 12 4 && zeroField w 0 8) = true) :
    wordOf (BitVec.ofNat 8 n) (field4 w 20) (field4 w 16) 0 (field4 w 8) 0 = w := by
  rw [Bool.and_eq_true, zeroField_iff, zeroField_iff] at hz
  apply wordOf_eq hop <;> simp [field4_val] <;> omega

end Fields

theorem encode_li_eq {w : Word} (hop : (w.extractLsb' 24 8).toNat = 0x10) (hz : zeroField w 16 4 = true) :
    encode (.li (field4 w 20) (w.extractLsb' 0 16)) = w := by
  rw [zeroField_iff] at hz
  rw [opcode_toNat] at hop
  apply BitVec.eq_of_toNat_eq
  rw [toNat_encode_li, field4_val, BitVec.extractLsb'_toNat, Nat.shiftRight_eq_div_pow]
  omega

/-- Settles O2: the command is made of the word's fields, and the fields it is not made of are 0. -/
theorem decodedCommandSpellsItsWord : Obligations.DecodedCommandSpellsItsWord := by
  intro w i h
  unfold decode at h
  split at h
  case h_28 => cases h
  case h_3 hop => exact spells_of_legalIf h (encode_li_eq hop)
  case h_1 hop | h_2 hop | h_22 hop | h_23 hop | h_24 hop | h_25 hop | h_26 hop | h_27 hop =>
    exact spells_of_legalIf h (wordOf_eq_of_formatN hop)
  case h_4 hop | h_5 hop | h_6 hop | h_8 hop | h_9 hop | h_14 hop => exact spells_of_legalIf h (wordOf_eq_of_formatR3 hop)
  case h_7 hop | h_10 hop | h_11 hop | h_12 hop | h_13 hop => exact spells_of_legalIf h (wordOf_eq_of_formatR2 hop)
  case h_16 hop | h_18 hop | h_19 hop | h_20 hop => exact spells_of_legalIf h (wordOf_eq_of_formatSfn hop)
  case h_15 hop | h_21 hop => exact spells_of_legalIf h (wordOf_eq_of_imm8 hop)
  case h_17 hop => exact spells_of_legalIf h (wordOf_eq_of_rb hop)

/-! ## The opcode map (`30_encoding.md` R94) -/

theorem opcodeTable_ops_nodup : (opcodeTable.map fun r => r.op).Nodup := by decide

theorem opcodeTable_mnemonics_nodup : (opcodeTable.map fun r => r.mnemonic).Nodup := by decide

/-- A word that spells a row has its opcode. -/
theorem op_eq_of_spells {r : OpcodeRow} (hr : r ∈ opcodeTable) {w : Word} (h : r.spells w = true) :
    r.op = w.toNat / 2 ^ 24 :=
  ((and_mask_eq_pattern_iff hr w).mp ((r.spells_iff w).mp h).1).1

/-- The row of a word's opcode is spelled iff the decoder reads a command. -/
theorem spells_iff_decode_ok {r : OpcodeRow} (hr : r ∈ opcodeTable) {w : Word} (hop : r.op = w.toNat / 2 ^ 24) :
    r.spells w = true ↔ ∃ i, decode w = .ok i ∧ i.mnemonic = r.mnemonic := by
  obtain ⟨i, hname, hwf, hd⟩ := decode_of_row hr hop
  rw [hd, r.spells_iff, ← and_zeroMask_beq_iff_of_row hr hop, ← hwf]
  simp only [legalIf_eq_ok_iff]
  exact ⟨fun ⟨hz, hi⟩ => ⟨i, ⟨hz, hi, rfl⟩, hname⟩, fun ⟨_, ⟨hz, hi, _⟩, _⟩ => ⟨hz, hi⟩⟩

/-- A decoded command has the mnemonic of the row of the word's opcode, so of no other. -/
theorem op_eq_of_decode {r : OpcodeRow} (hr : r ∈ opcodeTable) {w : Word} {i : Instr} (hd : decode w = .ok i)
    (hname : i.mnemonic = r.mnemonic) : r.op = w.toNat / 2 ^ 24 := by
  rcases unknownOpcode_or_row w with hno | ⟨r', hr', hop⟩
  · rw [hd] at hno; cases hno
  · obtain ⟨j, hj, -, hdj⟩ := decode_of_row hr' hop
    obtain ⟨-, -, rfl⟩ := legalIf_eq_ok_iff.mp (hdj.symm.trans hd)
    rwa [List.inj_on_of_nodup_map opcodeTable_mnemonics_nodup hr hr' (hname.symm.trans hj)]

/-- Settles O3: the word's opcode names the row, and that row's mask, match and constraint are what the decoder checks. -/
theorem decodingFollowsTheOpcodeMap : Obligations.DecodingFollowsTheOpcodeMap := by
  refine ⟨rfl, opcodeTable_ops_nodup, fun r hr w h => (op_eq_of_spells hr h).symm, fun r hr w => ⟨fun h => ?_, ?_⟩⟩
  · exact (spells_iff_decode_ok hr (op_eq_of_spells hr h)).mp h
  · rintro ⟨i, hd, hname⟩
    exact (spells_iff_decode_ok hr (op_eq_of_decode hr hd hname)).mpr ⟨i, hd, hname⟩

end Sys2Proof
end

section
/-! Bits and bytes: bit fields of byte strings, the codec's round trips (`43_codec.md` R194 to R196, R200), and the error
bound of compression. -/

namespace Sys2Proof.Machine

/-! ## Bits of a byte string -/

theorem bitOf_of_lt {B : Bytes} {m : Nat} (h : m / 8 < B.length) : bitOf B m = B[m / 8].toNat / 2 ^ (m % 8) % 2 := by
  rw [bitOf, List.getD_eq_getElem _ _ h]

/-- Bit `m` of bytes read from memory. -/
theorem bitOf_readBytes (m : Memory) {a n k : Nat} (h : k / 8 < n) :
    bitOf (m.readBytes a n) k = (m.read (a + k / 8)).toNat / 2 ^ (k % 8) % 2 := by
  rw [bitOf_of_lt (by simpa using h), Memory.readBytes_getElem]

/-- The number of 1 bits as a sum over the window. -/
theorem popcount_eq_sum (B : Bytes) (start len : Nat) :
    popcount B start len = ((List.range len).map fun t => bitOf B (start + t)).sum := by
  induction len generalizing start with
  | zero => rfl
  | succ n ih => simp [popcount, ih, List.range_succ_eq_map, Function.comp_def, Nat.add_assoc, Nat.add_comm 1]

/-- A bit field as the sum of its bits at their places. -/
theorem bitField_eq_sum (B : Bytes) (start len : Nat) :
    bitField B start len = ((List.range len).map fun j => bitOf B (start + j) * 2 ^ j).sum := by
  induction len generalizing start with
  | zero => rfl
  | succ n ih =>
    simp only [bitField, ih, List.range_succ_eq_map, List.map_cons, List.map_map, List.sum_cons, Function.comp_def,
      ← List.sum_map_mul_left, Nat.add_assoc, Nat.add_comm 1, Nat.pow_succ]
    simp [Nat.mul_comm, Nat.mul_assoc]

/-- The bits of a bit field are the bits of the byte string. -/
theorem bitField_div_mod_two (B : Bytes) (start : Nat) {j len : Nat} (h : j < len) :
    bitField B start len / 2 ^ j % 2 = bitOf B (start + j) := by
  induction len generalizing start j with
  | zero => exact absurd h (Nat.not_lt_zero j)
  | succ n ih =>
    have hbit := bitOf_lt B start
    rw [bitField]
    cases j with
    | zero => simp only [Nat.pow_zero, Nat.div_one, Nat.add_zero]; omega
    | succ j =>
      rw [Nat.pow_succ', ← Nat.div_div_eq_div_mul, Nat.add_mul_div_left _ _ (by decide), Nat.div_eq_of_lt hbit, Nat.zero_add,
        ih (start + 1) (Nat.lt_of_succ_lt_succ h)]
      congr 1
      omega

/-- A bit field whose bits are those of a number is the number's low part. -/
theorem bitField_eq_mod {B : Bytes} {start len v : Nat} (h : ∀ j < len, bitOf B (start + j) = v / 2 ^ j % 2) :
    bitField B start len = v % 2 ^ len := by
  induction len generalizing start v with
  | zero => simp [bitField, Nat.mod_one]
  | succ n ih =>
    have hfirst : bitOf B start = v % 2 := by simpa using h 0 (Nat.succ_pos n)
    have hrest : bitField B (start + 1) n = v / 2 % 2 ^ n := ih fun j hj => by
      rw [Nat.div_div_eq_div_mul, ← Nat.pow_succ', ← h (j + 1) (Nat.succ_lt_succ hj)]
      congr 1
      omega
    rw [bitField, hfirst, hrest, Nat.pow_succ', Nat.mod_mul]

/-- Two bytes with the same 8 bits are equal. -/
theorem byte_eq_of_bits {a b : Byte} (h : ∀ u < 8, a.toNat / 2 ^ u % 2 = b.toNat / 2 ^ u % 2) : a = b := by
  apply BitVec.eq_of_toNat_eq
  apply Nat.eq_of_testBit_eq
  intro u
  rcases Nat.lt_or_ge u 8 with hu | hu
  · rw [Nat.testBit_eq_decide_div_mod_eq, Nat.testBit_eq_decide_div_mod_eq, h u hu]
  · rw [BitVec.testBit_toNat, BitVec.testBit_toNat, BitVec.getLsbD_of_ge _ _ hu, BitVec.getLsbD_of_ge _ _ hu]

/-- Two byte strings of one length with the same bits are equal. -/
theorem bytes_eq_of_bits {B B' : Bytes} (hlen : B.length = B'.length) (h : ∀ m < 8 * B.length, bitOf B m = bitOf B' m) :
    B = B' := by
  refine List.ext_getElem hlen fun t ht ht' => byte_eq_of_bits fun u hu => ?_
  have hdiv : (8 * t + u) / 8 = t := by omega
  have hmod : (8 * t + u) % 8 = u := by omega
  have hbit := h (8 * t + u) (by omega)
  rw [bitOf_of_lt (by omega), bitOf_of_lt (by omega)] at hbit
  simpa only [hdiv, hmod] using hbit

/-! ## Bits of an encoded element (`43_codec.md` R194) -/

theorem encodeBit_lt (d : Nat) (f : RingElt) (m : Nat) : encodeBit d f m < 2 := Nat.mod_lt _ (by decide)

/-- The bits of a byte made of bits. -/
theorem byteOfBits_bit {b : Nat → Nat} (hb : ∀ m, b m < 2) (t : Nat) {u : Nat} (hu : u < 8) :
    (byteOfBits b t).toNat / 2 ^ u % 2 = b (8 * t + u) := by
  have h0 := hb (8 * t)
  have h1 := hb (8 * t + 1)
  have h2 := hb (8 * t + 2)
  have h3 := hb (8 * t + 3)
  have h4 := hb (8 * t + 4)
  have h5 := hb (8 * t + 5)
  have h6 := hb (8 * t + 6)
  have h7 := hb (8 * t + 7)
  rw [byteOfBits, byteOf, BitVec.toNat_ofNat]
  rcases Nat.eq_zero_or_pos u with rfl | hpos
  · simp only [Nat.add_zero]; omega
  · interval_cases u <;> omega

theorem byteEncode_getElem {d : Nat} {f : RingElt} {t : Nat} (h : t < (byteEncode d f).length) :
    (byteEncode d f)[t] = byteOfBits (encodeBit d f) t := by
  simp [byteEncode]

theorem bitOf_byteEncode (d : Nat) (f : RingElt) {m : Nat} (h : m < 256 * d) : bitOf (byteEncode d f) m = encodeBit d f m := by
  rw [bitOf_of_lt (by rw [byteEncode_length]; omega), byteEncode_getElem,
    byteOfBits_bit (encodeBit_lt d f) _ (Nat.mod_lt _ (by decide)), Nat.div_add_mod]

/-- Field `n` of an encoded element is the low part of its lane `n`. -/
theorem bitField_byteEncode {d : Nat} (f : RingElt) {n : Nat} (hn : n < 256) :
    bitField (byteEncode d f) (n * d) d = (RingElt.lane f n).val % 2 ^ d := by
  rw [bitField_eq_mod (v := (RingElt.lane f n).val % 2 ^ d), Nat.mod_mod]
  intro j hj
  have hlt : n * d + j < 256 * d := by nlinarith
  have hdiv : (n * d + j) / d = n := by rw [Nat.mul_comm, Nat.mul_add_div (by omega), Nat.div_eq_of_lt hj, Nat.add_zero]
  have hmod : (n * d + j) % d = j := by rw [Nat.mul_comm, Nat.mul_add_mod, Nat.mod_eq_of_lt hj]
  rw [bitOf_byteEncode d f hlt, encodeBit, hdiv, hmod]

/-! ## Round trips (`43_codec.md` R200) -/

theorem lane_byteDecode (d : Nat) (B : Bytes) {i : Nat} (hi : i < 256) :
    (RingElt.lane (byteDecode d B) i).val = bitField B (i * d) d % 3329 := by
  rw [byteDecode, RingElt.lane_ofLanes _ hi, Coeff.reduce_val]

/-- A field of fewer than 12 bits is canonical. -/
theorem bitField_lt_q {d : Nat} (hd : d < 12) (B : Bytes) (start : Nat) : bitField B start d < 3329 :=
  calc bitField B start d < 2 ^ d := bitField_lt B start d
    _ ≤ 2 ^ 11 := Nat.pow_le_pow_right (by decide) (by omega)
    _ < 3329 := by decide

/-- Decoding inverts encoding on elements whose lanes fit the width. -/
theorem byteDecode_byteEncode {d : Nat} {f : RingElt} (h : ∀ j < 256, (RingElt.lane f j).val < 2 ^ d) :
    byteDecode d (byteEncode d f) = f := by
  refine RingElt.ext_lane fun j hj => Fin.ext ?_
  rw [lane_byteDecode d _ hj, bitField_byteEncode f hj, Nat.mod_eq_of_lt (h j hj), Nat.mod_eq_of_lt (RingElt.lane f j).isLt]

theorem byteDecode_byteEncode_twelve (f : RingElt) : byteDecode 12 (byteEncode 12 f) = f :=
  byteDecode_byteEncode fun j _ => Nat.lt_trans (RingElt.lane f j).isLt (by decide)

/-- Encoding inverts decoding on byte strings whose fields are canonical. -/
theorem byteEncode_byteDecode {d : Nat} (hd : 0 < d) {B : Bytes} (hlen : B.length = 32 * d)
    (h : ∀ n < 256, bitField B (n * d) d < 3329) : byteEncode d (byteDecode d B) = B := by
  refine bytes_eq_of_bits ((byteEncode_length d _).trans hlen.symm) fun m hm => ?_
  rw [byteEncode_length] at hm
  have hn : m / d < 256 := Nat.div_lt_of_lt_mul (by rw [Nat.mul_comm]; omega)
  rw [bitOf_byteEncode d _ (by omega), encodeBit, lane_byteDecode d B hn, Nat.mod_eq_of_lt (h _ hn),
    Nat.mod_eq_of_lt (bitField_lt B _ d), bitField_div_mod_two B _ (Nat.mod_lt m hd), Nat.div_add_mod']

/-- On 384 bytes encoding inverts decoding exactly where every 12-bit field is canonical. -/
theorem byteEncode_byteDecode_twelve_iff {B : Bytes} (hlen : B.length = 32 * 12) :
    byteEncode 12 (byteDecode 12 B) = B ↔ ∀ n < 256, bitField B (n * 12) 12 < 3329 := by
  refine ⟨fun h n hn => ?_, byteEncode_byteDecode (by decide) hlen⟩
  rw [← h, bitField_byteEncode _ hn]
  exact Nat.lt_of_le_of_lt (Nat.mod_le _ _) (RingElt.lane _ n).isLt

/-- Settles O51: a field of an encoded element is the lane, and the bits of a decoded byte string are its own where the
reduction modulo q changes no field. -/
theorem codecRoundTrips : Obligations.CodecRoundTrips := by
  refine fun d hpos hd => ⟨fun f => ⟨byteEncode_length d f, ?_⟩, fun B hlen => ?_⟩
  · rintro (rfl | hfit)
    · exact byteDecode_byteEncode_twelve f
    · exact byteDecode_byteEncode fun j hj => RingElt.lane_eq_getElem f hj ▸ hfit j hj
  · rcases Nat.lt_or_eq_of_le hd with hlt | rfl
    · exact iff_of_true (byteEncode_byteDecode hpos hlen fun n _ => bitField_lt_q hlt B _) (.inl hlt)
    · rw [byteEncode_byteDecode_twelve_iff hlen, or_iff_right (by decide)]
      simp only [Nat.mul_comm 12]

/-! ## The error bound of compression (`43_codec.md` R200 (c), (d)) -/

/-- The shortest distance modulo q between two numbers, as R200 (c) writes it. -/
def distModQ (u x : Nat) : Nat := min ((u + 3329 - x) % 3329) (3329 - (u + 3329 - x) % 3329)

/-- Numbers that differ by at most `b`, as they stand or by way of q, are at distance at most `b`. -/
theorem distModQ_le {u x b : Nat} (hx : x < 3329) (hu : u < 3329)
    (h : (u ≤ x + b ∧ x ≤ u + b) ∨ u + 3329 ≤ x + b) : distModQ u x ≤ b := by
  rw [distModQ, min_le_iff]
  omega

section Compression

variable {d : Nat}

theorem two_pow_eq (hd : 1 ≤ d) : 2 ^ d = 2 * 2 ^ (d - 1) := by
  rw [← Nat.pow_succ', Nat.succ_eq_add_one, Nat.sub_add_cancel hd]

/-- The quotient that `Compress_d` reduces is the number nearest to `2^d·x/q`. -/
theorem compress_quotient (d x : Nat) : let z := (2 ^ (d + 1) * x + 3329) / (2 * 3329)
    2 * 3329 * z ≤ 2 * (2 ^ d * x) + 3329 ∧ 2 * (2 ^ d * x) + 3329 < 2 * 3329 * z + 2 * 3329 := by
  rw [Nat.pow_succ', Nat.mul_assoc]
  omega

/-- `Decompress_d(y)` is the number nearest to `q·y/2^d`. -/
theorem decompress_quotient (hd : 1 ≤ d) (y : Nat) : 2 * (2 ^ d * decompressNat d y) ≤ 2 * (3329 * y) + 2 ^ d ∧
    2 * (3329 * y) < 2 * (2 ^ d * decompressNat d y) + 2 ^ d := by
  have hpow := two_pow_eq hd
  have hpos : 0 < 2 ^ d := by positivity
  have hdiv := Nat.div_add_mod (3329 * y + 2 ^ (d - 1)) (2 ^ d)
  have hmod := Nat.mod_lt (3329 * y + 2 ^ (d - 1)) hpos
  rw [decompressNat]
  omega

/-- Compression inverts decompression where the width's numbers are fewer than q. -/
theorem compressNat_decompressNat (hd : 1 ≤ d) (hq : 2 ^ d < 3329) {y : Nat} (hy : y < 2 ^ d) :
    compressNat d (decompressNat d y) = y := by
  have hdec := decompress_quotient hd y
  have hcomp := compress_quotient d (decompressNat d y)
  have hz : (2 ^ (d + 1) * decompressNat d y + 3329) / (2 * 3329) = y := by omega
  rw [compressNat, hz, Nat.mod_eq_of_lt hy]

theorem decompressNat_lt (hd : 1 ≤ d) (hq : 2 ^ d < 3329) {y : Nat} (hy : y < 2 ^ d) : decompressNat d y < 3329 := by
  have hdec := decompress_quotient hd y
  by_contra hge
  have hmul : 2 ^ d * 3329 ≤ 2 ^ d * decompressNat d y := Nat.mul_le_mul_left _ (Nat.le_of_not_lt hge)
  omega

/-- From a distance scaled by `2^(d+1)` to the distance. -/
theorem le_add_of_scaled {u x : Nat} (h : 2 * (2 ^ d * u) ≤ 2 * (2 ^ d * x) + (3329 + 2 ^ d)) :
    u ≤ x + (3329 + 2 ^ d) / 2 ^ (d + 1) := by
  rcases Nat.le_total u x with hle | hle
  · exact Nat.le_add_right_of_le hle
  · obtain ⟨k, rfl⟩ := Nat.exists_eq_add_of_le hle
    have hk : k * 2 ^ (d + 1) ≤ 3329 + 2 ^ d := by rw [Nat.pow_succ', Nat.mul_comm, Nat.mul_assoc]; rw [Nat.mul_add] at h; omega
    exact Nat.add_le_add_left ((Nat.le_div_iff_mul_le (by positivity)).mpr hk) x

/-- The error of a compression is at most half a step and the rounding of the two divisions. A quotient of `2^d` is
reduced to 0, so there `x` is near q, which is 0 modulo q. -/
theorem compression_error_le (hd : 1 ≤ d) (hq : 2 ^ d < 3329) {x : Nat} (hx : x < 3329) :
    distModQ (decompressNat d (compressNat d x)) x ≤ (3329 + 2 ^ d) / 2 ^ (d + 1) := by
  have hy : compressNat d x < 2 ^ d := Nat.mod_lt _ (by positivity)
  refine distModQ_le hx (decompressNat_lt hd hq hy) ?_
  have hdec := decompress_quotient hd (compressNat d x)
  have hcomp := compress_quotient d x
  rw [compressNat] at hdec ⊢
  generalize (2 ^ (d + 1) * x + 3329) / (2 * 3329) = z at hdec hcomp ⊢
  have hx' : 2 ^ d * x ≤ 2 ^ d * 3328 := Nat.mul_le_mul_left _ (Nat.le_of_lt_succ hx)
  rcases Nat.lt_or_eq_of_le (show z ≤ 2 ^ d by omega) with hz | rfl
  · rw [Nat.mod_eq_of_lt hz] at hdec ⊢
    exact .inl ⟨le_add_of_scaled (by omega), le_add_of_scaled (by omega)⟩
  · have hzero : decompressNat d 0 = 0 := by
      rw [decompressNat, Nat.mul_zero, Nat.zero_add, Nat.div_eq_of_lt (Nat.pow_lt_pow_right (by decide) (by omega))]
    rw [Nat.mod_self, hzero, Nat.zero_add]
    exact .inr (le_add_of_scaled (by omega))

end Compression

/-- The widths of R200 (c) with their bounds. -/
def errorBounds : List (Nat × Nat) :=
  [(1, 832), (2, 416), (3, 208), (4, 104), (5, 52), (6, 26), (7, 13), (8, 7), (9, 3), (10, 2), (11, 1)]

theorem errorBounds_eq : ∀ p ∈ errorBounds, 1 ≤ p.1 ∧ 2 ^ p.1 < 3329 ∧ p.2 = (3329 + 2 ^ p.1) / 2 ^ (p.1 + 1) := by
  decide

/-- One of these coefficients reaches the bound of each width. -/
theorem errorBounds_reached : ∀ p ∈ errorBounds, ∃ x ∈ [832, 416, 208, 104, 52, 26, 13, 1658, 3, 5, 1],
    x < 3329 ∧ distModQ (decompressNat p.1 (compressNat p.1 x)) x = p.2 := by
  decide

/-- Settles O52: the bound is a fact about the two quotients at every width, and the table's numbers are its values. -/
theorem compressionErrorBound : Obligations.CompressionErrorBound := by
  intro p hp dist
  obtain ⟨hd, hq, hbound⟩ := errorBounds_eq p hp
  obtain ⟨x, -, hx, hreached⟩ := errorBounds_reached p hp
  exact ⟨hbound, fun x hx => hbound ▸ compression_error_le hd hq hx, ⟨x, hx, hreached⟩,
    fun y hy => compressNat_decompressNat hd hq hy⟩

end Sys2Proof.Machine
end

section
/-! The values of K-PKE, element by element, and the lengths of its objects (`44_kpke.md` R210 to R221). -/

namespace Sys2Proof.Machine

/-! ## Slices -/

theorem slice_zero (B : Bytes) (n : Nat) : slice B 0 n = B.take n := rfl

/-- A slice given by its start and its length. -/
theorem slice_add (B : Bytes) (a n : Nat) : slice B a (a + n) = (B.drop a).take n := by
  rw [slice, Nat.add_sub_cancel_left]

theorem slice_upper_half {B : Bytes} (h : B.length = 64) : slice B 32 64 = B.drop 32 := by
  rw [slice, List.take_of_length_le (by simp [h])]

/-- Element `i` of the first elements of a byte string is element `i` of the whole. -/
theorem slice_take_element (B : Bytes) (c : Nat) {i k : Nat} (h : i < k) :
    slice (B.take (c * k)) (c * i) (c * (i + 1)) = (B.drop (c * i)).take c := by
  have hfit : c ≤ c * k - c * i := by
    rw [← Nat.mul_sub]
    exact Nat.le_mul_of_pos_right c (by omega)
  rw [Nat.mul_succ, slice_add, List.drop_take, List.take_take, Nat.min_eq_left hfit]

/-! ## Elements of vectors -/

section Vectors

variable {k i : Nat} (h : i < k)

@[simp] theorem noiseVec_length (eta : Nat) (seed : Bytes) (n0 k : Nat) : (noiseVec eta seed n0 k).length = k := by
  simp [noiseVec]

@[simp] theorem matVec_length (A : List (List RingElt)) (v : List RingElt) : (matVec A v).length = A.length := by
  simp [matVec]

@[simp] theorem matTVec_length (k : Nat) (A : List (List RingElt)) (v : List RingElt) : (matTVec k A v).length = k := by
  simp [matTVec]

@[simp] theorem decodeVec_length (d k : Nat) (B : Bytes) : (decodeVec d k B).length = k := by
  simp [decodeVec]

include h

theorem getD_map_nttValue_noiseVec (eta : Nat) (seed : Bytes) (n0 : Nat) :
    ((noiseVec eta seed n0 k).map nttValue).getD i RingElt.zero = nttValue (noisePoly eta seed (BitVec.ofNat 8 (n0 + i))) := by
  simp [noiseVec, byteOf, h]

/-- Element `i` of a decoded vector is decoded from the bytes of element `i`. -/
theorem getD_decodeVec (d : Nat) (B : Bytes) : (decodeVec d k (B.take (32 * d * k))).getD i RingElt.zero =
    byteDecode d ((B.drop (32 * d * i)).take (32 * d)) := by
  simp [decodeVec, h, slice_take_element B (32 * d) h]

end Vectors

/-- Decoding element `i` of an encoded vector gives the element, if its lanes fit the width. -/
theorem byteDecode_encodeVec_element {d i : Nat} {v : List RingElt} (rest : Bytes) (hi : i < v.length)
    (hfit : ∀ j < 256, (RingElt.lane v[i] j).val < 2 ^ d) :
    byteDecode d (((encodeVec d v ++ rest).drop (32 * d * i)).take (32 * d)) = v[i] := by
  rw [encodeVec_element d v rest hi, byteDecode_byteEncode hfit]

/-- A coefficient fits 12 bits. -/
theorem lane_lt_twelve_bits (f : RingElt) (j : Nat) : (RingElt.lane f j).val < 2 ^ 12 :=
  Nat.lt_trans (RingElt.lane f j).isLt (by decide)

/-! ## The values, given the matrix -/

/-- `G(d ‖ byte(k))` of key generation (R213). -/
def keygenHash (ps : ParamRow) (d : Bytes) : Bytes := (Config.hashG (d ++ [BitVec.ofNat 8 ps.k])).toList

@[simp] theorem keygenHash_length (ps : ParamRow) (d : Bytes) : (keygenHash ps d).length = 64 := by simp [keygenHash]

/-- The transformed secret and error vectors of key generation (R213). -/
def noiseHat (ps : ParamRow) (seed : Bytes) (n0 : Nat) : List RingElt := (noiseVec ps.eta1 seed n0 ps.k).map nttValue

@[simp] theorem noiseHat_length (ps : ParamRow) (seed : Bytes) (n0 : Nat) : (noiseHat ps seed n0).length = ps.k := by
  simp [noiseHat]

/-- The public vector `Â·ŝ + ê` (R213). -/
def publicVec (ps : ParamRow) (A : List (List RingElt)) (seed : Bytes) : List RingElt :=
  List.zipWith RingElt.add (matVec A (noiseHat ps seed 0)) (noiseHat ps seed ps.k)

theorem kpkeKeyGen_eq (ps : ParamRow) (d : Bytes) : kpkeKeyGen ps d =
    (matrix ps.k ((keygenHash ps d).take 32)).map fun A =>
      (encodeVec 12 (publicVec ps A ((keygenHash ps d).drop 32)) ++ (keygenHash ps d).take 32,
        encodeVec 12 (noiseHat ps ((keygenHash ps d).drop 32) 0)) := by
  rw [← slice_upper_half (keygenHash_length ps d)]
  rfl

/-- The compressed vector `u` of a ciphertext before compression: `INTT(Âᵀ·ŷ) + e1` (R215). -/
def cipherVec (ps : ParamRow) (A : List (List RingElt)) (r : Bytes) : List RingElt :=
  List.zipWith RingElt.add ((matTVec ps.k A (noiseHat ps r 0)).map inttValue) (noiseVec ps.eta2 r ps.k ps.k)

/-- The element `v` of a ciphertext before compression: `INTT(t̂ᵀ·ŷ) + e2 + μ` (R215). -/
def cipherElt (ps : ParamRow) (ek m r : Bytes) : RingElt :=
  RingElt.add (RingElt.add (inttValue (dot (decodeVec 12 ps.k (ek.take (384 * ps.k))) (noiseHat ps r 0)))
    (noisePoly ps.eta2 r (BitVec.ofNat 8 (2 * ps.k)))) (decompressValue 1 (byteDecode 1 m))

/-- The ciphertext (R215). -/
def cipherBytes (ps : ParamRow) (A : List (List RingElt)) (ek m r : Bytes) : Bytes :=
  encodeVec ps.du ((cipherVec ps A r).map (compressValue ps.du)) ++
    byteEncode ps.dv (compressValue ps.dv (cipherElt ps ek m r))

theorem kpkeEncrypt_eq (ps : ParamRow) (ek m r : Bytes) : kpkeEncrypt ps ek m r =
    (matrix ps.k ((ek.drop (384 * ps.k)).take 32)).map fun A => cipherBytes ps A ek m r := by
  rw [← slice_add]
  rfl

/-- A value made from an optional one is undefined exactly where that is. -/
theorem option_map_cases {α β : Type} (o : Option α) (f : α → β) :
    (o = none ∧ o.map f = none) ∨ ∃ a, o = some a ∧ o.map f = some (f a) := by
  cases o with
  | none => exact .inl ⟨rfl, rfl⟩
  | some a => exact .inr ⟨a, rfl, rfl⟩

/-! ## Lengths (`44_kpke.md` R221, `45_mlkem.md` R240 (d)) -/

theorem matrix_length {k : Nat} {rho : Bytes} {A : List (List RingElt)} (h : matrix k rho = some A) : A.length = k := by
  rcases matrix_cases k rho with ⟨hnone, -⟩ | ⟨A', hsome, hlen, -⟩
  · rw [h] at hnone; cases hnone
  · obtain rfl : A = A' := by simpa [h] using hsome
    exact hlen

theorem kpkeKeyGen_lengths {ps : ParamRow} {d : Bytes} {keys : Bytes × Bytes} (h : kpkeKeyGen ps d = some keys) :
    keys.1.length = 384 * ps.k + 32 ∧ keys.2.length = 384 * ps.k := by
  rw [kpkeKeyGen_eq, Option.map_eq_some_iff] at h
  obtain ⟨A, hA, rfl⟩ := h
  constructor <;> simp [encodeVec_length, publicVec, matrix_length hA]

theorem cipherBytes_length (ps : ParamRow) (A : List (List RingElt)) (ek m r : Bytes) : (cipherBytes ps A ek m r).length = 32 * (ps.du * ps.k + ps.dv) := by
  simp [cipherBytes, encodeVec_length, cipherVec]
  ring

theorem kpkeEncrypt_length {ps : ParamRow} {ek m r c : Bytes} (h : kpkeEncrypt ps ek m r = some c) :
    c.length = 32 * (ps.du * ps.k + ps.dv) := by
  rw [kpkeEncrypt_eq, Option.map_eq_some_iff] at h
  obtain ⟨A, -, rfl⟩ := h
  exact cipherBytes_length ps A ek m r

@[simp] theorem kpkeDecrypt_length (ps : ParamRow) (dk c : Bytes) : (kpkeDecrypt ps dk c).length = 32 := by
  simp [kpkeDecrypt]

theorem dkOf_length {ps : ParamRow} {d z : Bytes} {keys : Bytes × Bytes} (h : kpkeKeyGen ps d = some keys) (hz : z.length = 32) :
    (dkOf keys.2 keys.1 z).length = 768 * ps.k + 96 := by
  obtain ⟨hek, hdk⟩ := kpkeKeyGen_lengths h
  simp [dkOf, hek, hdk, hz]
  omega

/-- Settles O54: both functions are the matrix's value put through an encoder, whose length is that of its vector. -/
theorem objectLengths : Obligations.ObjectLengths := by
  intro ps d z ek m r dk c hz row rho
  refine ⟨?keygen, ?encrypt, kpkeDecrypt_length row dk c⟩
  case keygen =>
    have hvalue := kpkeKeyGen_eq row d
    rcases option_map_cases (matrix row.k rho) _ with ⟨hA, hnone⟩ | ⟨A, hA, hsome⟩
    · exact .inl ⟨hA, hvalue.trans hnone⟩
    · have hkeys := hvalue.trans hsome
      obtain ⟨hek, hdk⟩ := kpkeKeyGen_lengths hkeys
      exact .inr ⟨A, _, hA, hkeys, hek.trans (paramRow_ekBytes ps).symm, hdk.trans (paramRow_dkPkeBytes ps).symm,
        (dkOf_length hkeys hz).trans (paramRow_dkBytes ps).symm⟩
  case encrypt =>
    have hvalue := kpkeEncrypt_eq row ek m r
    rcases option_map_cases (matrix row.k ((ek.drop (384 * row.k)).take 32)) _ with ⟨hA, hnone⟩ | ⟨A, hA, hsome⟩
    · exact .inl ⟨hA, hvalue.trans hnone⟩
    · exact .inr ⟨A, _, hA, hvalue.trans hsome, (cipherBytes_length row A ek m r).trans (paramRow_ctBytes ps).symm⟩

/-! ## The equations (`44_kpke.md` R213, R215, R217) -/

section Equations

variable {ps : ParamRow} {i : Nat} (hi : i < ps.k)
include hi

theorem getD_noiseHat (seed : Bytes) (n0 : Nat) : (noiseHat ps seed n0).getD i RingElt.zero =
    nttValue (noisePoly ps.eta1 seed (BitVec.ofNat 8 (n0 + i))) :=
  getD_map_nttValue_noiseVec hi ps.eta1 seed n0

end Equations

theorem noiseHat_getElem (ps : ParamRow) (seed : Bytes) {i : Nat} (h : i < (noiseHat ps seed 0).length) :
    (noiseHat ps seed 0)[i] = nttValue (noisePoly ps.eta1 seed (BitVec.ofNat 8 i)) := by
  simp [noiseHat, noiseVec, byteOf]

/-- A dot product as the sum over the indices, each term given. -/
theorem dot_eq_sum_of_terms {k : Nat} {u v : List RingElt} {term : Nat → RingElt} (hu : u.length = k) (hv : v.length = k)
    (h : ∀ j < k, baseMul (u.getD j RingElt.zero) (v.getD j RingElt.zero) = term j) :
    dot u v = ((List.range k).map term).foldl RingElt.add RingElt.zero := by
  rw [dot_eq_sum hu hv, List.map_congr_left fun j hj => h j (List.mem_range.mp hj)]

/-- Element `i` of the vector an `ek` encodes (R213). -/
theorem publicVec_getElem {ps : ParamRow} {A : List (List RingElt)} (seed : Bytes) {i : Nat} (hi : i < ps.k)
    (hrow : (A.getD i []).length = ps.k) (h : i < (publicVec ps A seed).length) : (publicVec ps A seed)[i] =
    RingElt.add (((List.range ps.k).map fun j => baseMul ((A.getD i []).getD j RingElt.zero)
        (nttValue (noisePoly ps.eta1 seed (BitVec.ofNat 8 j)))).foldl RingElt.add RingElt.zero)
      (nttValue (noisePoly ps.eta1 seed (BitVec.ofNat 8 (ps.k + i)))) := by
  have hA : i < A.length := by
    simp [publicVec] at h
    exact h.1
  rw [← getD_noiseHat hi, ← dot_eq_sum_of_terms hrow (noiseHat_length ps seed 0) fun j hj => by
    rw [getD_noiseHat hj, Nat.zero_add]]
  simp [publicVec, matVec, List.getD, hA, hi]

/-- Element `i` of the vector a ciphertext encodes, before compression (R215). -/
theorem cipherVec_getElem {ps : ParamRow} {A : List (List RingElt)} (r : Bytes) {i : Nat}
    (hA : A.length = ps.k) (h : i < (cipherVec ps A r).length) : (cipherVec ps A r)[i] =
    RingElt.add (inttValue (((List.range ps.k).map fun j => baseMul ((A.getD j []).getD i RingElt.zero)
        (nttValue (noisePoly ps.eta1 r (BitVec.ofNat 8 j)))).foldl RingElt.add RingElt.zero))
      (noisePoly ps.eta2 r (BitVec.ofNat 8 (ps.k + i))) := by
  have hcolumn : (A.map fun row => row.getD i RingElt.zero).length = ps.k := by simpa using hA
  rw [← dot_eq_sum_of_terms hcolumn (noiseHat_length ps r 0) fun j hj => by
    rw [getD_noiseHat hj, Nat.zero_add]; simp [List.getD, hA, hj]]
  simp [cipherVec, matTVec, noiseVec, byteOf]

/-- The decoded vector of a key times a transformed vector. -/
theorem dot_decodeVec {k : Nat} (B : Bytes) {v : List RingElt} {elt : Nat → RingElt} (hv : v.length = k)
    (h : ∀ j < k, v.getD j RingElt.zero = elt j) : dot (decodeVec 12 k (B.take (384 * k))) v =
    ((List.range k).map fun j => baseMul (byteDecode 12 ((B.drop (32 * 12 * j)).take (32 * 12))) (elt j)).foldl
      RingElt.add RingElt.zero :=
  dot_eq_sum_of_terms (decodeVec_length 12 k _) hv fun j hj => by
    rw [h j hj]
    exact congrArg (baseMul · _) (getD_decodeVec hj 12 B)

/-- A message bit becomes 0 or 1665 (R215). -/
theorem decompressValue_one_byteDecode_one (m : Bytes) : decompressValue 1 (byteDecode 1 m) =
    RingElt.ofLanes fun i => Coeff.reduce (1665 * ((m.getD (i / 8) 0).toNat / 2 ^ (i % 8) % 2)) := by
  refine RingElt.ext_lane fun i hi => ?_
  have hbit := bitOf_lt m i
  rw [decompressValue, RingElt.lane_ofLanes _ hi, RingElt.lane_ofLanes _ hi, lane_byteDecode 1 m hi]
  change Coeff.reduce _ = Coeff.reduce (1665 * bitOf m i)
  have hlane : bitField m (i * 1) 1 = bitOf m i := by simp [bitField]
  rw [hlane]
  refine congrArg Coeff.reduce ?_
  rw [decompressNat]
  omega

/-- The element a decrypted message encodes, before compression: `v' - INTT(ŝᵀ·NTT(u'))` (R217). -/
def messageElt (ps : ParamRow) (dk c : Bytes) : RingElt :=
  RingElt.sub (decompressValue ps.dv (byteDecode ps.dv ((c.drop (32 * ps.du * ps.k)).take (32 * ps.dv))))
    (inttValue (dot (decodeVec 12 ps.k (dk.take (384 * ps.k)))
      (((decodeVec ps.du ps.k (c.take (32 * ps.du * ps.k))).map (decompressValue ps.du)).map nttValue)))

theorem kpkeDecrypt_eq (ps : ParamRow) (dk c : Bytes) :
    kpkeDecrypt ps dk c = byteEncode 1 (compressValue 1 (messageElt ps dk c)) := by
  have hend : 32 * (ps.du * ps.k + ps.dv) = 32 * ps.du * ps.k + 32 * ps.dv := by ring
  rw [messageElt, ← slice_add, ← hend]
  rfl

/-- Bytes that encode one compressed element decode to it. -/
theorem byteDecode_byteEncode_compressValue (d : Nat) (f : RingElt) (n : Nat) :
    byteDecode d (((byteEncode d (compressValue d f)).drop (n * 0)).take (32 * d)) = compressValue d f := by
  rw [Nat.mul_zero, List.drop_zero, List.take_of_length_le (byteEncode_length d _).le,
    byteDecode_byteEncode fun j _ => lane_compressValue_lt d f j]

/-- The bytes of a ciphertext after those of its vector (R215). -/
theorem cipherBytes_drop (ps : ParamRow) (A : List (List RingElt)) (ek m r : Bytes) :
    (cipherBytes ps A ek m r).drop (32 * ps.du * ps.k) = byteEncode ps.dv (compressValue ps.dv (cipherElt ps ek m r)) :=
  List.drop_left' (by simp [encodeVec_length, cipherVec])

/-- Element `i` of a ciphertext (R215). -/
theorem byteDecode_cipherBytes {ps : ParamRow} {A : List (List RingElt)} (ek m r : Bytes) {i : Nat}
    (h : i < (cipherVec ps A r).length) :
    byteDecode ps.du (((cipherBytes ps A ek m r).drop (32 * ps.du * i)).take (32 * ps.du)) =
      compressValue ps.du (cipherVec ps A r)[i] := by
  have hmap : i < ((cipherVec ps A r).map (compressValue ps.du)).length := by simpa using h
  rw [cipherBytes, byteDecode_encodeVec_element _ hmap, List.getElem_map]
  intro j _
  rw [List.getElem_map]
  exact lane_compressValue_lt _ _ j

/-- The element `v`, its dot product written as a sum (R215). -/
theorem cipherElt_eq (ps : ParamRow) (ek m r : Bytes) : cipherElt ps ek m r =
    RingElt.add (RingElt.add (inttValue (((List.range ps.k).map fun j =>
        baseMul (byteDecode 12 ((ek.drop (32 * 12 * j)).take (32 * 12)))
          (nttValue (noisePoly ps.eta1 r (BitVec.ofNat 8 j)))).foldl RingElt.add RingElt.zero))
      (noisePoly ps.eta2 r (BitVec.ofNat 8 (2 * ps.k))))
      (RingElt.ofLanes fun i => Coeff.reduce (1665 * ((m.getD (i / 8) 0).toNat / 2 ^ (i % 8) % 2))) := by
  rw [cipherElt, decompressValue_one_byteDecode_one, dot_decodeVec ek (noiseHat_length ps r 0) fun j hj => ?_]
  rw [getD_noiseHat hj, Nat.zero_add]

/-- The element a decrypted message encodes, its dot product written as a sum (R217). -/
theorem messageElt_eq (ps : ParamRow) (dk c : Bytes) : messageElt ps dk c =
    RingElt.sub (decompressValue ps.dv (byteDecode ps.dv
        (((c.drop (32 * ps.du * ps.k)).drop (32 * ps.dv * 0)).take (32 * ps.dv))))
      (inttValue (((List.range ps.k).map fun j => baseMul (byteDecode 12 ((dk.drop (32 * 12 * j)).take (32 * 12)))
        (nttValue (decompressValue ps.du (byteDecode ps.du ((c.drop (32 * ps.du * j)).take (32 * ps.du)))))).foldl
          RingElt.add RingElt.zero)) := by
  rw [messageElt, Nat.mul_zero, List.drop_zero, dot_decodeVec dk (by simp) fun j hj => ?_]
  rw [← getD_decodeVec hj]
  simp [List.getD, hj]

/-- Settles O55: where the matrix is defined each object is an encoded vector, and its elements decode to the vector's. -/
theorem kpkeFunctionsObeyTheirEquations : Obligations.KpkeFunctionsObeyTheirEquations := by
  intro ps rho d ek m r dk c row k element entry total noise g sample
  refine ⟨?matrix, ?keys, ?ciphertext, ?message⟩
  case matrix =>
    rcases matrix_cases k rho with hnone | ⟨A, hA, -, hrows⟩
    · exact .inl hnone
    · exact .inr ⟨A, hA, fun i hi => (hrows i hi).2⟩
  case keys =>
    have hvalue := kpkeKeyGen_eq row d
    rcases matrix_cases k (g.take 32) with ⟨hA, -⟩ | ⟨A, hA, hlen, hrows⟩
    · exact .inl ⟨hA, hvalue.trans (congrArg (Option.map _) hA)⟩
    · have hpublic : (publicVec row A (g.drop 32)).length = k := by simp [publicVec, hlen, k]
      refine .inr ⟨A, _, _, hA, hvalue.trans (congrArg (Option.map _) hA), ?_, fun i hi => ⟨?_, ?_⟩⟩
      · exact List.drop_left' (by rw [encodeVec_length]; exact congrArg _ hpublic)
      · have hi' : i < (noiseHat row (g.drop 32) 0).length := by simpa using hi
        rw [← noiseHat_getElem row (g.drop 32) hi', ← List.append_nil (encodeVec 12 _)]
        exact byteDecode_encodeVec_element [] hi' fun j _ => lane_lt_twelve_bits _ j
      · have hi' : i < (publicVec row A (g.drop 32)).length := hpublic ▸ hi
        rw [← publicVec_getElem (g.drop 32) hi (hrows i hi).1 hi']
        exact byteDecode_encodeVec_element _ hi' fun j _ => lane_lt_twelve_bits _ j
  case ciphertext =>
    have hvalue := kpkeEncrypt_eq row ek m r
    rcases matrix_cases k ((ek.drop (384 * k)).take 32) with ⟨hA, -⟩ | ⟨A, hA, hlen, -⟩
    · exact .inl ⟨hA, hvalue.trans (congrArg (Option.map _) hA)⟩
    · refine .inr ⟨A, _, hA, hvalue.trans (congrArg (Option.map _) hA), fun i hi => ?_, ?_⟩
      · have hi' : i < (cipherVec row A r).length := by simpa [cipherVec, k] using hi
        exact (byteDecode_cipherBytes ek m r hi').trans (congrArg _ (cipherVec_getElem r hlen hi'))
      · rw [← cipherElt_eq]
        exact (congrArg (element row.dv · 0) (cipherBytes_drop row A ek m r)).trans
          (byteDecode_byteEncode_compressValue row.dv _ _)
  case message =>
    rw [← messageElt_eq, kpkeDecrypt_eq]
    exact byteDecode_byteEncode_compressValue 1 _ _

end Sys2Proof.Machine
end

section
/-! The modulus check of `45_mlkem.md` R236: which keys pass it, and the field it reports. -/

namespace Sys2Proof.Machine

/-! ## Bit fields of parts of a byte string -/

theorem bitField_congr {B B' : Bytes} {start start' len : Nat} (h : ∀ j < len, bitOf B (start + j) = bitOf B' (start' + j)) :
    bitField B start len = bitField B' start' len := by
  rw [bitField_eq_sum, bitField_eq_sum, List.map_congr_left fun j hj => by rw [h j (List.mem_range.mp hj)]]

theorem bitOf_take_drop (B : Bytes) (a : Nat) {c m : Nat} (h : m / 8 < c) :
    bitOf ((B.drop a).take c) m = bitOf B (8 * a + m) := by
  have hdiv : (8 * a + m) / 8 = a + m / 8 := by omega
  have hmod : (8 * a + m) % 8 = m % 8 := by omega
  rw [bitOf, bitOf, hdiv, hmod, List.getD_eq_getElem?_getD, List.getD_eq_getElem?_getD, List.getElem?_take_of_lt h,
    List.getElem?_drop]

/-- Field `n` of element `i` of a key is field `256·i + n` of the key. -/
theorem bitField_element (B : Bytes) (i : Nat) {n : Nat} (hn : n < 256) :
    bitField ((B.drop (32 * 12 * i)).take (32 * 12)) (n * 12) 12 = bitField B (12 * (256 * i + n)) 12 := by
  refine bitField_congr fun j hj => ?_
  rw [bitOf_take_drop B _ (by omega)]
  congr 1
  omega

/-! ## Re-encoding a decoded vector -/

/-- A byte string is its elements one after the other. -/
theorem flatMap_slice (B : Bytes) (c k : Nat) :
    (List.range k).flatMap (fun i => (B.drop (c * i)).take c) = B.take (c * k) := by
  induction k with
  | zero => rfl
  | succ k ih => simp [List.range_succ, ih, Nat.mul_succ, List.take_add]

/-- Re-encoding gives the bytes back iff it does for every element. -/
theorem encodeVec_decodeVec_iff {d k : Nat} {B : Bytes} (hlen : B.length = 32 * d * k) :
    encodeVec d (decodeVec d k B) = B ↔
      ∀ i < k, byteEncode d (byteDecode d ((B.drop (32 * d * i)).take (32 * d))) = (B.drop (32 * d * i)).take (32 * d) := by
  have helt {i : Nat} (hi : i < k) : (decodeVec d k B)[i]'(by simpa using hi) =
      byteDecode d ((B.drop (32 * d * i)).take (32 * d)) := by
    simp [decodeVec, Nat.mul_succ, slice_add]
  constructor
  · intro h i hi
    rw [← helt hi, ← encodeVec_element d _ [] (by simpa using hi), List.append_nil, h]
  · intro h
    calc encodeVec d (decodeVec d k B)
        = (List.range k).flatMap (fun i => byteEncode d (byteDecode d ((B.drop (32 * d * i)).take (32 * d)))) := by
          simp only [encodeVec, decodeVec, List.flatMap_map, Nat.mul_succ, slice_add]
      _ = (List.range k).flatMap (fun i => (B.drop (32 * d * i)).take (32 * d)) :=
          List.flatMap_congr fun i hi => h i (List.mem_range.mp hi)
      _ = B := by rw [flatMap_slice, ← hlen, List.take_length]

/-! ## The check -/

theorem modulusCheck_eq_none_iff {k : Nat} {ek : Bytes} :
    modulusCheck true k ek = none ↔ ∀ n < 256 * k, bitField ek (12 * n) 12 < 3329 := by
  simp [modulusCheck, firstNonCanonical]

/-- The fields of a vector are those of its elements. -/
theorem forall_fields_iff {k : Nat} {p : Nat → Prop} : (∀ n < 256 * k, p n) ↔ ∀ i < k, ∀ n < 256, p (256 * i + n) := by
  refine ⟨fun h i hi n hn => h _ (by omega), fun h n hn => ?_⟩
  have := h (n / 256) (by omega) (n % 256) (Nat.mod_lt _ (by decide))
  rwa [Nat.div_add_mod] at this

/-- The check passes iff re-encoding the decoded key gives it back. -/
theorem modulusCheck_eq_none_iff_reencode {k : Nat} {ek : Bytes} (hlen : 384 * k ≤ ek.length) :
    modulusCheck true k ek = none ↔ encodeVec 12 (decodeVec 12 k (ek.take (384 * k))) = ek.take (384 * k) := by
  have htake : (ek.take (384 * k)).length = 32 * 12 * k := by simpa using hlen
  rw [modulusCheck_eq_none_iff, forall_fields_iff, encodeVec_decodeVec_iff htake]
  refine forall₂_congr fun i hi => ?_
  have helt : ((ek.take (384 * k)).drop (32 * 12 * i)).take (32 * 12) = (ek.drop (32 * 12 * i)).take (32 * 12) := by
    rw [List.drop_take, List.take_take, Nat.min_eq_left (by omega)]
  rw [helt, byteEncode_byteDecode_twelve_iff (by simp; omega)]
  exact forall₂_congr fun n hn => by rw [bitField_element ek i hn]

/-- The check reports a field iff it is the first that is not canonical. -/
theorem modulusCheck_eq_some_iff {k : Nat} (hk : 256 * k ≤ 65536) {ek : Bytes} {n : Nat} :
    modulusCheck true k ek = some (.formatContent (BitVec.ofNat 16 n)) ∧ n < 65536 ↔
      n < 256 * k ∧ 3329 ≤ bitField ek (12 * n) 12 ∧ ∀ m < n, bitField ek (12 * m) 12 < 3329 := by
  have hfirst : firstNonCanonical k ek = some n ↔
      n < 256 * k ∧ 3329 ≤ bitField ek (12 * n) 12 ∧ ∀ m < n, bitField ek (12 * m) 12 < 3329 := by
    simp [firstNonCanonical, List.find?_range_eq_some, and_left_comm]
  rw [← hfirst, modulusCheck, if_pos rfl, Option.map_eq_some_iff]
  constructor
  · rintro ⟨⟨p, hp, heq⟩, hn⟩
    have hlt : p < 256 * k := List.mem_range.mp (List.mem_of_find?_eq_some hp)
    have hval := congrArg BitVec.toNat (CmdError.formatContent.inj heq)
    rw [BitVec.toNat_ofNat, BitVec.toNat_ofNat, Nat.mod_eq_of_lt (by omega), Nat.mod_eq_of_lt hn] at hval
    rwa [← hval]
  · intro h
    exact ⟨⟨n, h, rfl⟩, Nat.lt_of_lt_of_le (List.mem_range.mp (List.mem_of_find?_eq_some h)) hk⟩

/-- A parameter set has at most 4 elements a vector (`00_scope.md` R12). -/
theorem paramRow_k_le (ps : ParamSet) : (paramRow ps).k ≤ 4 := by cases ps <;> decide

end Sys2Proof.Machine
end

section
/-! Every command in one form: its checks in the order of `60_exceptions.md` R260, then its end. From it, how a command can
end and what it leaves unchanged. -/

namespace Sys2Proof.Machine

/-! ## The checks of a command (`60_exceptions.md` R257 to R261) -/

/-- The comparisons of length registers, numbered in operand order. -/
def lengthChecks (l : List (Half × Nat)) : List (Option CmdError) :=
  l.mapIdx fun n o => lengthCheck (BitVec.ofNat 4 n) o.1 o.2

/-- The checks of addresses, numbered in operand order. -/
def addressChecks (l : List (Half × Nat)) : List (Option CmdError) :=
  l.mapIdx fun n o => addressCheck (BitVec.ofNat 4 n) o.1 o.2

/-- The checks of values: the ranges of scalar operands and the modulus check. -/
def valueChecks (i : Instr) (s : State) : List (Option CmdError) :=
  match i with
  | .montmul _ ra rb | .modadd _ ra rb | .modsub _ ra rb => [rangeCheck 0 s.x[ra], rangeCheck 1 s.x[rb]]
  | .modneg _ ra => [rangeCheck 0 s.x[ra]]
  | .mlkemEncaps =>
    [modulusCheck Config.ekModCheck (paramRow s.pset).k (s.load s.x[4] (384 * (paramRow s.pset).k + 32))]
  | _ => []

/-- All checks of a command: the constraint on `fn`, the lengths, the addresses, the values. -/
def commandChecks (i : Instr) (s : State) : List (Option CmdError) :=
  fieldCheck i.wf :: (lengthChecks (lengthOperands i s) ++
    (addressChecks (inputOperands i s ++ outputOperands i s) ++ valueChecks i s))

/-- The end of a command whose checks have passed. -/
def commandEnd (i : Instr) (s : State) : State :=
  let ps := paramRow s.pset
  match i with
  | .nop => s.complete
  | .zeroize => s.zeroize.complete
  | .li rd imm16 => (s.writeX rd imm16).complete
  | .montmul rd ra rb => (s.writeX rd (BitVec.ofNat 16 (montmul (s.x[ra]).toNat (s.x[rb]).toNat))).complete
  | .modadd rd ra rb => (s.writeX rd (BitVec.ofNat 16 (modadd (s.x[ra]).toNat (s.x[rb]).toNat))).complete
  | .modsub rd ra rb => (s.writeX rd (BitVec.ofNat 16 (modsub (s.x[ra]).toNat (s.x[rb]).toNat))).complete
  | .modneg rd ra => (s.writeX rd (BitVec.ofNat 16 (modneg (s.x[ra]).toNat))).complete
  | .padd rd ra rb => (s.writeP rd (RingElt.add s.p[ra] s.p[rb])).complete
  | .psub rd ra rb => (s.writeP rd (RingElt.sub s.p[ra] s.p[rb])).complete
  | .pneg rd ra => (s.writeP rd (RingElt.neg s.p[ra])).complete
  | .pmov rd ra => (s.writeP rd s.p[ra]).complete
  | .ntt rd ra => (s.writeP rd (nttValue s.p[ra])).complete
  | .intt rd ra => (s.writeP rd (inttValue s.p[ra])).complete
  | .basemul rd ra rb => (s.writeP rd (baseMul s.p[ra] s.p[rb])).complete
  | .samplentt rd ra col row =>
    s.completeIfDefined ((sampleNTT (matrixStream (s.load s.x[ra] 32) row.val col.val)).map (s.writeP rd))
  | .cbd rd ra eta => (s.writeP rd (cbdValue eta.val (s.load s.x[ra] (64 * eta.val)))).complete
  | .prfcbd rd ra eta n => (s.writeP rd (noisePoly eta.val (s.load s.x[ra] 32) n)).complete
  | .compress rd ra d => (s.writeP rd (compressValue d.val s.p[ra])).complete
  | .decompress rd ra d => (s.writeP rd (decompressValue d.val s.p[ra])).complete
  | .encode rd ra d => (s.store s.x[rd] (byteEncode d.val s.p[ra])).complete
  | .decode rd ra _ d => (s.writeP rd (byteDecode d.val (s.load s.x[ra] (32 * d.val)))).complete
  | .kpkeKeygen => s.completeIfDefined ((kpkeKeyGen ps (s.load s.x[4] 32)).map fun keys =>
      (s.store s.x[1] keys.1).store s.x[2] keys.2)
  | .kpkeEnc => s.completeIfDefined ((kpkeEncrypt ps (s.load s.x[4] (384 * ps.k + 32)) (s.load s.x[6] 32)
      (s.load s.x[8] 32)).map (s.store s.x[1]))
  | .kpkeDec => (s.store s.x[1] (kpkeDecrypt ps (s.load s.x[4] (384 * ps.k))
      (s.load s.x[6] (32 * (ps.du * ps.k + ps.dv))))).complete
  | .mlkemKeygen => keygenAfterChecks s
  | .mlkemEncaps => encapsAfterChecks s
  | .mlkemDecaps => s.completeIfDefined ((mlkemDecapsValue ps (s.load s.x[4] (768 * ps.k + 96))
      (s.load s.x[6] (32 * (ps.du * ps.k + ps.dv)))).map (s.store s.x[1]))

/-- `MLKEM_ENCAPS` with either value of the open parameter (log entry 5). -/
theorem encapsWith_eq_checked (modCheck : Bool) (s : State) : encapsWith modCheck s =
    s.checked (lengthChecks (lengthOperands .mlkemEncaps s) ++
      (addressChecks (inputOperands .mlkemEncaps s ++ outputOperands .mlkemEncaps s) ++
        [modulusCheck modCheck (paramRow s.pset).k (s.load s.x[4] (384 * (paramRow s.pset).k + 32))]))
      (encapsAfterChecks s) := by
  simp only [encapsWith, State.params, paramRow_ekBytes, paramRow_ctBytes]
  rfl

/-- Every command is its checks, then its end. -/
theorem exec_eq_checked (i : Instr) (s : State) : exec i s = s.checked (commandChecks i s) (commandEnd i s) := by
  cases i
  case mlkemEncaps => exact encapsWith_eq_checked Config.ekModCheck s
  case kpkeKeygen | kpkeEnc | kpkeDec | mlkemKeygen | mlkemDecaps =>
    simp only [exec, execKpkeKeygen, execKpkeEnc, execKpkeDec, execMlkemKeygen, execMlkemDecaps, State.params,
      paramRow_ekBytes, paramRow_ctBytes, paramRow_dkPkeBytes, paramRow_dkBytes]
    rfl
  all_goals rfl

/-! ## The first check that fails -/

theorem firstError_eq_none_iff {l : List (Option CmdError)} : firstError l = none ↔ ∀ c ∈ l, c = none := by
  induction l with
  | nil => simp
  | cons c l ih => simp [ih]

theorem mem_of_firstError {l : List (Option CmdError)} {e : CmdError} (h : firstError l = some e) : some e ∈ l := by
  induction l with
  | nil => cases h
  | cons c l ih =>
    cases c with
    | none => exact List.mem_cons_of_mem _ (ih h)
    | some d => exact h ▸ List.mem_cons_self

theorem firstError_append_of_none {l : List (Option CmdError)} (h : firstError l = none) (l' : List (Option CmdError)) :
    firstError (l ++ l') = firstError l' := by
  induction l with
  | nil => rfl
  | cons c l ih =>
    obtain ⟨rfl, hl⟩ := firstError_cons_eq_none.mp h
    exact ih hl

theorem firstError_append_of_some {l : List (Option CmdError)} {e : CmdError} (h : firstError l = some e)
    (l' : List (Option CmdError)) : firstError (l ++ l') = some e := by
  induction l with
  | nil => cases h
  | cons c l ih =>
    cases c with
    | none => exact ih h
    | some d => exact h

/-- Numbered checks fail first at the first operand that does not pass. -/
theorem firstError_mapIdx {α : Type} {f : Nat → α → Option CmdError} {l : List α} {n : Nat} {a : α} {e : CmdError}
    (ha : l[n]? = some a) (hfail : f n a = some e) (hpass : ∀ k, ∀ b ∈ l.take n, f k b = none) :
    firstError (l.mapIdx f) = some e := by
  induction l generalizing n f with
  | nil => cases ha
  | cons b l ih =>
    rw [List.mapIdx_cons]
    cases n with
    | zero =>
      obtain rfl : b = a := by simpa using ha
      rw [hfail, firstError_some]
    | succ n =>
      rw [List.take_succ_cons] at hpass
      rw [hpass 0 b List.mem_cons_self, firstError_none]
      exact ih (by simpa using ha) hfail fun k c hc => hpass (k + 1) c (List.mem_cons_of_mem _ hc)

theorem firstError_lengthChecks_eq_none {l : List (Half × Nat)} (h : ∀ o ∈ l, o.1.toNat = o.2) :
    firstError (lengthChecks l) = none := by
  refine firstError_eq_none_iff.mpr fun c hc => ?_
  obtain ⟨k, hk, rfl⟩ := List.mem_mapIdx.mp hc
  exact lengthCheck_eq_none.mpr (h _ (List.getElem_mem hk))

theorem firstError_addressChecks_eq_none {l : List (Half × Nat)} (h : ∀ o ∈ l, o.1.toNat + o.2 ≤ 8192) :
    firstError (addressChecks l) = none := by
  refine firstError_eq_none_iff.mpr fun c hc => ?_
  obtain ⟨k, hk, rfl⟩ := List.mem_mapIdx.mp hc
  exact addressCheck_eq_none.mpr (h _ (List.getElem_mem hk))

/-- A well-formed command's checks begin with the lengths. -/
theorem firstError_commandChecks {i : Instr} (hwf : i.wf = true) (s : State) : firstError (commandChecks i s) =
    firstError (lengthChecks (lengthOperands i s) ++
      (addressChecks (inputOperands i s ++ outputOperands i s) ++ valueChecks i s)) := by
  rw [commandChecks, hwf]
  rfl

/-- With lengths and addresses right a well-formed command ends, if its value checks pass. -/
theorem exec_of_operands_right {i : Instr} {s : State} (hwf : i.wf = true) (hlen : LengthsMatch i s) (hfit : OperandsFit i s)
    (hval : firstError (valueChecks i s) = none) : exec i s = .next (commandEnd i s) := by
  rw [exec_eq_checked, State.checked_of_none]
  rw [firstError_commandChecks hwf, firstError_append_of_none (firstError_lengthChecks_eq_none hlen),
    firstError_append_of_none (firstError_addressChecks_eq_none hfit), hval]

/-! ## What an error records (`60_exceptions.md` R254, R262) -/

section Records

variable (s : State) (val : Half) {n : Nat}

theorem State.raiseError_formatLength (hn : n < 16) :
    s.raiseError (.formatLength (BitVec.ofNat 4 n) val) = s.failedWith 2 0 n val := by
  simp only [State.raiseError, State.failedWith, CmdError.code, CmdError.info, einfoWord_eq_ofNat, Bool.toNat_false,
    BitVec.toNat_ofNat, Nat.mod_eq_of_lt (show n < 2 ^ 4 from hn)]

theorem State.raiseError_address (hn : n < 16) :
    s.raiseError (.address (BitVec.ofNat 4 n) val) = s.failedWith 4 0 n val := by
  simp only [State.raiseError, State.failedWith, CmdError.code, CmdError.info, einfoWord_eq_ofNat, Bool.toNat_false,
    BitVec.toNat_ofNat, Nat.mod_eq_of_lt (show n < 2 ^ 4 from hn)]

theorem State.raiseError_formatContent : s.raiseError (.formatContent val) = s.failedWith 2 1 0 val := by
  simp only [State.raiseError, State.failedWith, CmdError.code, CmdError.info, einfoWord_eq_ofNat]
  rfl

theorem State.raiseError_randomness (idx : BitVec 4) : s.raiseError (.randomness idx) = s.failedWith 3 0 idx.toNat 0 := by
  simp only [State.raiseError, State.failedWith, CmdError.code, CmdError.info, einfoWord_eq_ofNat, Bool.toNat_false]

end Records

theorem lengthOperands_length_le (i : Instr) (s : State) : (lengthOperands i s).length ≤ 3 := by
  cases i <;> simp [lengthOperands]

theorem operands_length_le (i : Instr) (s : State) : (inputOperands i s ++ outputOperands i s).length ≤ 4 := by
  cases i <;> simp [inputOperands, outputOperands]

/-- Settles O31: the comparisons of lengths stand before every other check that can fail. -/
theorem lengthErrorsInOperandOrder : Obligations.LengthErrorsInOperandOrder := by
  intro i s n held want hwf hn hne hpass
  obtain ⟨hlt, -⟩ := List.getElem?_eq_some_iff.mp hn
  have hn16 : n < 16 := by have := lengthOperands_length_le i s; omega
  have hfail : firstError (lengthChecks (lengthOperands i s)) = some (.formatLength (BitVec.ofNat 4 n) held) :=
    firstError_mapIdx hn (if_neg hne) fun _ o ho => lengthCheck_eq_none.mpr (hpass o ho)
  rw [exec_eq_checked, State.checked_of_some, State.raiseError_formatLength s held hn16]
  rw [firstError_commandChecks hwf, firstError_append_of_some hfail]

/-- Settles O32: with the lengths right the checks of addresses come first, inputs before outputs. -/
theorem addressErrorsInOperandOrder : Obligations.AddressErrorsInOperandOrder := by
  intro i s n addr len hwf hlen hn hout hpass
  obtain ⟨hlt, -⟩ := List.getElem?_eq_some_iff.mp hn
  have hn16 : n < 16 := by have := operands_length_le i s; omega
  have hfail : firstError (addressChecks (inputOperands i s ++ outputOperands i s)) =
      some (.address (BitVec.ofNat 4 n) addr) :=
    firstError_mapIdx hn (if_neg (Nat.not_le.mpr hout)) fun _ o ho => addressCheck_eq_none.mpr (hpass o ho)
  rw [exec_eq_checked, State.checked_of_some, State.raiseError_address s addr hn16]
  rw [firstError_commandChecks hwf, firstError_append_of_none (firstError_lengthChecks_eq_none hlen),
    firstError_append_of_some hfail]

/-- Settles O35: the check is the test on each 12-bit field, re-encoding changes exactly the fields it finds, and
`MLKEM_ENCAPS` makes it after its other checks and before its request. -/
theorem modulusCheckIsTheReencodingTest : Obligations.ModulusCheckIsTheReencodingTest := by
  refine ⟨fun ps ek hlen => ⟨?reencode, fun n => ?first, rfl⟩, fun s => rfl, fun modCheck s n hlen hfit hbad => ?encaps⟩
  case reencode => exact modulusCheck_eq_none_iff_reencode (by rw [hlen, paramRow_ekBytes]; omega)
  case first =>
    have hk := paramRow_k_le ps
    exact modulusCheck_eq_some_iff (by omega)
  case encaps =>
    rw [encapsWith_eq_checked, State.checked_of_some, State.raiseError_formatContent]
    rw [firstError_append_of_none (firstError_lengthChecks_eq_none hlen),
      firstError_append_of_none (firstError_addressChecks_eq_none hfit)]
    exact congrArg (fun c => firstError [c]) hbad

end Sys2Proof.Machine
end

section
/-! How the commands complete: the values they write and their frames, for operands that pass the checks. -/

namespace Sys2Proof.Machine

/-! ## Control and scalar commands -/

/-- Settles O36: the three commands make no check; the memory of `ZEROIZE` is the empty one. -/
theorem controlCommandsComplete : Obligations.ControlCommandsComplete := by
  refine fun s => ⟨rfl, fun rd imm => rfl, s.zeroize, rfl, fun i => ?x, fun i j _ => ?p, Memory.read_empty, Memory.empty_wf⟩
  case x => simp
  case p => simp

section ScalarValues

variable {a b : Nat} (ha : a < 3329) (hb : b < 3329)
include ha

theorem modneg_eq : modneg a = (3329 - a) % 3329 := by
  rw [modneg, modsub]
  split <;> omega

include hb

theorem modadd_eq : modadd a b = (a + b) % 3329 := by
  dsimp only [modadd]
  split <;> omega

theorem modsub_eq : modsub a b = (a + 3329 - b) % 3329 := by
  rw [modsub]
  split <;> omega

end ScalarValues

/-- A command without memory operands ends if its value checks pass. -/
theorem exec_of_values_right {i : Instr} {s : State} (hwf : i.wf = true) (hlen : lengthOperands i s = [])
    (hin : inputOperands i s = []) (hout : outputOperands i s = []) (hval : firstError (valueChecks i s) = none) :
    exec i s = .next (commandEnd i s) := by
  refine exec_of_operands_right hwf ?_ ?_ hval
  · simp [LengthsMatch, hlen]
  · simp [OperandsFit, hin, hout]

/-- Settles O38: canonical operands pass the range checks, and each command's function has its closed form on them. -/
theorem scalarCommandsComplete : Obligations.ScalarCommandsComplete := by
  intro s rd ra rb ha a b done
  have hfirst : rangeCheck 0 s.x[ra] = none := rangeCheck_eq_none.mpr ha
  refine ⟨?_, fun hb => ?_⟩
  · rw [← modneg_eq ha]
    exact exec_of_values_right (i := .modneg rd ra) rfl rfl rfl rfl (firstError_cons_eq_none.mpr ⟨hfirst, rfl⟩)
  · have hval : firstError [rangeCheck 0 s.x[ra], rangeCheck 1 s.x[rb]] = none := by
      rw [hfirst, firstError_none, rangeCheck_eq_none.mpr hb]; rfl
    rw [← montmul_eq ha hb, ← modadd_eq ha hb, ← modsub_eq ha hb]
    exact ⟨exec_of_values_right (i := .montmul rd ra rb) rfl rfl rfl rfl hval,
      exec_of_values_right (i := .modadd rd ra rb) rfl rfl rfl rfl hval,
      exec_of_values_right (i := .modsub rd ra rb) rfl rfl rfl rfl hval⟩

/-! ## Ring arithmetic -/

/-- Settles O39: the commands make no check, and each lane of their result is the operation on the source lanes. -/
theorem laneCommandsComplete : Obligations.LaneCommandsComplete := by
  intro s rd ra rb completesWith
  refine ⟨⟨_, rfl, fun j hj => ?add⟩, ⟨_, rfl, fun j hj => ?sub⟩, ⟨_, rfl, fun j hj => ?neg⟩, ⟨_, rfl, fun j hj => rfl⟩⟩
  case add =>
    simp only [RingElt.add, RingElt.getElem_ofLanes, Coeff.add_val, RingElt.lane_eq_getElem _ hj]
    rfl
  case sub =>
    have hlt := (s.p[rb])[j].isLt
    simp only [RingElt.sub, RingElt.getElem_ofLanes, Coeff.sub_val, RingElt.lane_eq_getElem _ hj]
    exact congrArg (· % 3329) (Nat.add_sub_assoc hlt.le _).symm
  case neg =>
    simp only [RingElt.neg, RingElt.getElem_ofLanes, Coeff.neg_val, RingElt.lane_eq_getElem _ hj]
    rfl

/-- Settles O40: the commands make no check. -/
theorem transformCommandsComplete : Obligations.TransformCommandsComplete := fun _ _ _ => ⟨rfl, rfl⟩

/-- The two lanes of product `n` (`41_ring_arithmetic.md` R151). -/
theorem lane_baseMul (f g : RingElt) {n : Nat} (hn : n < 128) :
    RingElt.lane (baseMul f g) (2 * n) = Coeff.reduce ((RingElt.lane f (2 * n)).val * (RingElt.lane g (2 * n)).val +
      (RingElt.lane f (2 * n + 1)).val * (RingElt.lane g (2 * n + 1)).val * (gamma n).val) ∧
    RingElt.lane (baseMul f g) (2 * n + 1) = Coeff.reduce ((RingElt.lane f (2 * n)).val * (RingElt.lane g (2 * n + 1)).val +
      (RingElt.lane f (2 * n + 1)).val * (RingElt.lane g (2 * n)).val) := by
  have hodd : (2 * n + 1) / 2 = n := by omega
  constructor
  · rw [baseMul, RingElt.lane_ofLanes _ (by omega)]
    simp [baseCaseMultiply]
  · rw [baseMul, RingElt.lane_ofLanes _ (by omega)]
    simp [baseCaseMultiply, hodd]

/-- Settles O41: the command makes no check, and its lanes are those of the products. -/
theorem basemulCompletes : Obligations.BasemulCompletes := by
  refine fun s rd ra rb => ⟨_, rfl, fun n hn => ?_⟩
  obtain ⟨heven, hodd⟩ := lane_baseMul s.p[ra] s.p[rb] hn
  simp only [RingElt.lane_eq_getElem _ (show 2 * n < 256 by omega), RingElt.lane_eq_getElem _ (show 2 * n + 1 < 256 by omega)]
    at heven hodd
  refine ⟨(congrArg Fin.val heven).trans ?_, congrArg Fin.val hodd⟩
  exact ((Nat.mod_modEq _ _).mul_left _).add_left _

/-! ## Sampling -/

/-- A computation that may be undefined ends complete where it is defined and leaves the state where it is not. -/
theorem State.completeIfDefined_map {α : Type} (s : State) (o : Option α) (f : α → State) :
    s.completeIfDefined (o.map f) = o.elim s fun a => (f a).complete := by
  cases o <;> rfl

theorem lengthsMatch_of_nil {i : Instr} {s : State} (h : lengthOperands i s = []) : LengthsMatch i s := by
  simp [LengthsMatch, h]

/-- Settles O46: the address is right, so the command ends, in one of the two ways. -/
theorem samplenttCompletes : Obligations.SamplenttCompletes := by
  intro s rd ra j i hfit seed
  rw [exec_of_operands_right rfl (lengthsMatch_of_nil rfl) hfit rfl]
  exact congrArg Host.Outcome.next (s.completeIfDefined_map _ _)

/-- Lane `j` of a sampled noise element (`42_sampling.md` R174). -/
theorem cbdValue_getElem {eta : Nat} (heta : eta < 16) (B : Bytes) {j : Nat} (hj : j < 256) : ((cbdValue eta B)[j]).val =
    (popcount B (2 * j * eta) eta + 3329 - popcount B (2 * j * eta + eta) eta) % 3329 := by
  have hone := popcount_le B (2 * j * eta) eta
  have hother := popcount_le B (2 * j * eta + eta) eta
  rw [cbdValue, RingElt.getElem_ofLanes, Coeff.reduce_val, modsub_eq (by omega) (by omega), Nat.mod_mod]

/-- The popcount of a window of bytes read from memory, as a sum over the window. -/
theorem popcount_readBytes (m : Memory) {a n start len : Nat} (h : start + len ≤ 8 * n) :
    popcount (m.readBytes a n) start len =
      ((List.range len).map fun t => (m.read (a + (start + t) / 8)).toNat / 2 ^ ((start + t) % 8) % 2).sum := by
  rw [popcount_eq_sum, List.map_congr_left fun t ht => bitOf_readBytes m (by have := List.mem_range.mp ht; omega)]

/-- Settles O47: the checks pass, and the windows of lane j lie inside the 64·η bytes. -/
theorem binomialSamplersComplete : Obligations.BinomialSamplersComplete := by
  intro s rd ra eta n heta completesWith
  refine ⟨fun hfit => ⟨_, exec_of_operands_right heta (lengthsMatch_of_nil rfl) hfit rfl, fun j hj => ?cbd⟩,
    fun hfit => ⟨_, exec_of_operands_right heta (lengthsMatch_of_nil rfl) hfit rfl, fun j hj => ?prfcbd⟩⟩
  case cbd =>
    have hwindow : 2 * j * eta.val + eta.val + eta.val ≤ 8 * (64 * eta.val) := by nlinarith [eta.val.zero_le]
    refine (cbdValue_getElem eta.isLt _ hj).trans ?_
    rw [State.load, popcount_readBytes _ (by omega), popcount_readBytes _ (by omega)]
  case prfcbd =>
    refine (cbdValue_getElem eta.isLt _ hj).trans ?_
    rw [popcount_eq_sum, popcount_eq_sum]
    rfl

/-! ## The codec -/

theorem legalWidth_iff {hi : Nat} {d : Fin 16} : legalWidth hi d = true ↔ 1 ≤ d.val ∧ d.val ≤ hi := by
  simp [legalWidth]

/-- The numbers of a width of at most 11 bits are fewer than q. -/
theorem two_pow_lt_q {d : Nat} (hd : d ≤ 11) : 2 ^ d < 3329 :=
  Nat.lt_of_le_of_lt (Nat.pow_le_pow_right (by decide) hd) (by decide)

/-- Settles O48: the constraint on the width passes, and neither formula reaches q. -/
theorem compressionCommandsComplete : Obligations.CompressionCommandsComplete := by
  intro s rd ra d hlegal completesWith
  obtain ⟨hpos, hle⟩ := legalWidth_iff.mp hlegal
  have hq := two_pow_lt_q hle
  have hfit {i : Instr} (hin : inputOperands i s = []) (hout : outputOperands i s = []) : OperandsFit i s := by
    simp [OperandsFit, hin, hout]
  refine ⟨⟨_, exec_of_operands_right hlegal (lengthsMatch_of_nil rfl) (hfit rfl rfl) rfl, fun j hj => ?compress⟩,
    ⟨_, exec_of_operands_right hlegal (lengthsMatch_of_nil rfl) (hfit rfl rfl) rfl, fun j hj => ?decompress⟩⟩
  case compress =>
    have hlt : compressNat d.val (s.p[ra])[j].val < 3329 := Nat.lt_trans (Nat.mod_lt _ (by positivity)) hq
    rw [compressValue, RingElt.getElem_ofLanes, RingElt.lane_eq_getElem _ hj]
    exact Nat.mod_eq_of_lt hlt
  case decompress =>
    have hlt := decompressNat_lt hpos hq (Nat.mod_lt (s.p[ra])[j].val (show 0 < 2 ^ d.val by positivity))
    rw [decompressValue, RingElt.getElem_ofLanes, RingElt.lane_eq_getElem _ hj]
    exact Nat.mod_eq_of_lt hlt

/-- A bit below the width is a bit of the number itself. -/
theorem mod_two_pow_div_mod_two (x : Nat) {j d : Nat} (h : j < d) : x % 2 ^ d / 2 ^ j % 2 = x / 2 ^ j % 2 := by
  have hsub : d = j + (d - j) := by omega
  rw [hsub, Nat.pow_add, Nat.mod_mul_right_div_self, Nat.mod_mod_of_dvd]
  exact dvd_pow_self 2 (by omega)

/-- Settles O49: the stored bytes are the encoding, whose bits are those of the lanes. -/
theorem encodeStoresThePackedLanes : Obligations.EncodeStoresThePackedLanes := by
  intro s rd ra d hlegal hwf hfit
  obtain ⟨hpos, -⟩ := legalWidth_iff.mp hlegal
  have hlen := byteEncode_length d.val s.p[ra]
  have hinside : (s.x[rd]).toNat + 32 * d.val ≤ bmemSize := hfit (s.x[rd], 32 * d.val) (by simp [inputOperands, outputOperands])
  refine ⟨_, exec_of_operands_right hlegal (lengthsMatch_of_nil rfl) hfit rfl, Memory.writeBytes_wf hwf _ _,
    fun t u ht hu => ?inside, fun a ha => Memory.read_writeBytes_outside _ _ (hlen ▸ ha)⟩
  case inside =>
    rw [State.store_bmem, Memory.read_writeBytes_inside hwf _ (hlen ▸ hinside) t (hlen ▸ ht), byteEncode_getElem,
      byteOfBits_bit (encodeBit_lt _ _) t hu, encodeBit, mod_two_pow_div_mod_two _ (Nat.mod_lt _ hpos)]

/-- Settles O50: the loaded bytes hold the fields, and a field of fewer than 12 bits is canonical. -/
theorem decodeLoadsThePackedFields : Obligations.DecodeLoadsThePackedFields := by
  intro s rd ra rb d hlegal hlen hfit
  refine ⟨_, exec_of_operands_right hlegal hlen hfit rfl, fun i hi => ?_⟩
  intro field
  have hfield : bitField (s.load s.x[ra] (32 * d.val)) (i * d.val) d.val = field := by
    rw [bitField_eq_sum]
    refine congrArg List.sum (List.map_congr_left fun j hj => ?_)
    have hj := List.mem_range.mp hj
    rw [State.load, bitOf_readBytes _ (Nat.div_lt_of_lt_mul (by nlinarith))]
  have hlane : ((byteDecode d.val (s.load s.x[ra] (32 * d.val)))[i]).val = field % 3329 := by
    rw [← RingElt.lane_eq_getElem _ hi, lane_byteDecode _ _ hi, hfield]
  exact ⟨hlane, fun hd => hlane.trans (Nat.mod_eq_of_lt (hfield ▸ bitField_lt_q hd _ _))⟩

/-! ## K-PKE and ML-KEM -/

/-- Settles O53: lengths and addresses are the only checks of the three commands. -/
theorem kpkeCommandsComplete : Obligations.KpkeCommandsComplete := by
  intro s ps input done
  refine ⟨fun hlen hfit => ?_, fun hlen hfit => ?_, fun hlen hfit => ?_⟩ <;> rw [exec_of_operands_right rfl hlen hfit rfl]
  · exact congrArg Host.Outcome.next (s.completeIfDefined_map _ _)
  · exact congrArg Host.Outcome.next (s.completeIfDefined_map _ _)
  · rfl

/-- `MLKEM_KEYGEN` after its checks, both requests answered (`45_mlkem.md` R233). -/
theorem keygenAfterChecks_of_ok_ok {s : State} {d z : Vector Byte 32} {rest : List RngAnswer}
    (h : s.rngAnswers = .ok d :: .ok z :: rest) : keygenAfterChecks s =
      s.completeIfDefined ((kpkeKeyGen (paramRow s.pset) d.toList).map fun keys =>
        (({ s with rngAnswers := rest, rngDraws := s.rngDraws + 2 } : State).store s.x[1] keys.1).store s.x[2]
          (dkOf keys.2 keys.1 z.toList)) := by
  rw [keygenAfterChecks, State.rngRequest_of_cons h]
  rfl

/-- Settles O56: the address checks are the only checks, and both requests are answered. -/
theorem mlkemKeygenCompletes : Obligations.MlkemKeygenCompletes := by
  intro s d z rest hfit hans
  rw [exec_of_operands_right rfl (lengthsMatch_of_nil rfl) hfit rfl, commandEnd, keygenAfterChecks_of_ok_ok hans]
  exact congrArg Host.Outcome.next (s.completeIfDefined_map _ _)

/-- The two halves of a value of `G`. -/
theorem slice_hashG_lower (B : Bytes) : slice (Config.hashG B).toList 0 32 = (Config.hashG B).toList.take 32 := rfl

theorem slice_hashG_upper (B : Bytes) : slice (Config.hashG B).toList 32 64 = (Config.hashG B).toList.drop 32 :=
  slice_upper_half (by simp)

/-- `MLKEM_ENCAPS` after its checks, its request answered (`45_mlkem.md` R235). -/
theorem encapsAfterChecks_of_ok {s : State} {m : Vector Byte 32} {rest : List RngAnswer} (h : s.rngAnswers = .ok m :: rest) :
    encapsAfterChecks s = s.completeIfDefined
      ((mlkemEncapsValue (paramRow s.pset) (s.load s.x[4] (384 * (paramRow s.pset).k + 32)) m.toList).map fun kc =>
        (({ s with rngAnswers := rest, rngDraws := s.rngDraws + 1 } : State).store s.x[1] kc.1).store s.x[2] kc.2) := by
  rw [encapsAfterChecks, State.rngRequest_of_cons h, ← paramRow_ekBytes]
  rfl

/-- Settles O57: the modulus check passes with the others, and the request is answered. -/
theorem mlkemEncapsCompletes : Obligations.MlkemEncapsCompletes := by
  intro s m rest hlen hfit ps ek g hmod hans
  have hval : firstError (valueChecks .mlkemEncaps s) = none := firstError_cons_eq_none.mpr ⟨hmod, rfl⟩
  rw [exec_of_operands_right rfl hlen hfit hval, commandEnd, encapsAfterChecks_of_ok hans, mlkemEncapsValue,
    slice_hashG_upper, slice_hashG_lower, Option.map_map]
  exact congrArg Host.Outcome.next (s.completeIfDefined_map _ _)

/-- Settles O34: a failed request ends the computation after the checks at once. -/
theorem randomnessErrorsInRequestOrder : Obligations.RandomnessErrorsInRequestOrder := by
  refine fun s b rest => ⟨fun hfit hans => ?first, fun hfit hans => ?second, fun hlen hfit hmod hans => ?encaps⟩
  case first =>
    rw [exec_of_operands_right rfl (lengthsMatch_of_nil rfl) hfit rfl, commandEnd, keygenAfterChecks,
      State.rngRequest_of_cons hans]
    exact congrArg Host.Outcome.next (State.raiseError_randomness _ 0)
  case second =>
    rw [exec_of_operands_right rfl (lengthsMatch_of_nil rfl) hfit rfl, commandEnd, keygenAfterChecks,
      State.rngRequest_of_cons hans]
    exact congrArg Host.Outcome.next (State.raiseError_randomness _ 1)
  case encaps =>
    have hval : firstError (valueChecks .mlkemEncaps s) = none := by
      rw [State.params, paramRow_ekBytes] at hmod
      exact firstError_cons_eq_none.mpr ⟨hmod, rfl⟩
    rw [exec_of_operands_right rfl hlen hfit hval, commandEnd, encapsAfterChecks, State.rngRequest_of_cons hans]
    exact congrArg Host.Outcome.next (State.raiseError_randomness _ 0)

/-! ## Decapsulation (`45_mlkem.md` R239) -/

/-- The value of decapsulation with the parts of `dk` by their lengths, the selection written as a choice. -/
theorem mlkemDecapsValue_eq {ps : ParamRow} {dk c : Bytes} (hc : c.length = 32 * (ps.du * ps.k + ps.dv)) :
    mlkemDecapsValue ps dk c =
      let m' := kpkeDecrypt ps (dk.take (384 * ps.k)) c
      let g := (Config.hashG (m' ++ (dk.drop (768 * ps.k + 32)).take 32)).toList
      (kpkeEncrypt ps ((dk.drop (384 * ps.k)).take (384 * ps.k + 32)) m' (g.drop 32)).map fun c' =>
        if c' = c then g.take 32 else (Config.hashJ ((dk.drop (768 * ps.k + 64)).take 32 ++ c)).toList := by
  have hek : 768 * ps.k + 32 = 384 * ps.k + (384 * ps.k + 32) := by ring
  dsimp only [mlkemDecapsValue]
  rw [hek, slice_add, ← hek, slice_add dk (768 * ps.k + 32) 32, slice_add dk (768 * ps.k + 64) 32, slice_hashG_upper,
    slice_hashG_lower, slice_zero]
  refine Option.map_congr fun c' hc' => ?_
  exact (selectionByMask _ _ _ _ (hc.trans (kpkeEncrypt_length hc').symm) (by simp) (by simp)).1

/-- Settles O59: lengths and addresses are the only checks, and the selection is the choice between the two keys. -/
theorem mlkemDecapsCompletesByImplicitRejection : Obligations.MlkemDecapsCompletesByImplicitRejection := by
  intro s hlen hfit ps dk c ek h z m' g
  have hc : c.length = 32 * (ps.du * ps.k + ps.dv) := Memory.readBytes_length _ _ _
  rw [exec_of_operands_right rfl hlen hfit rfl, commandEnd]
  have hvalue := mlkemDecapsValue_eq (dk := dk) hc
  refine congrArg Host.Outcome.next ((s.completeIfDefined_map _ _).trans ?_)
  refine (congrArg (fun o => Option.elim o s _) hvalue).trans ?_
  rw [Option.elim_map]
  rfl

end Sys2Proof.Machine
end

section
/-! How a command can end and what each end leaves unchanged (`60_exceptions.md` R250 to R262), for every command. -/

namespace Sys2Proof.Machine

/-! ## The writes of a command -/

/-- `u` is `s` with some of the writes made that command `i` may make: to its destination, its output operands and the
random port. -/
structure Writes (i : Instr) (s u : State) : Prop where
  rest : u = { s with x := u.x, p := u.p, bmem := u.bmem, rngAnswers := u.rngAnswers, rngDraws := u.rngDraws }
  bmem_wf : s.bmem.wf = true → u.bmem.wf = true
  x_frame : i ≠ .zeroize → ∀ r : RegNum, scalarDest i ≠ some r → u.x[r] = s.x[r]
  p_frame : i ≠ .zeroize → ∀ r : RegNum, polyDest i ≠ some r → u.p[r] = s.p[r]
  bmem_frame : i ≠ .zeroize → ∀ a, (∀ o ∈ outputOperands i s, a < o.1.toNat ∨ o.1.toNat + o.2 ≤ a) →
    u.bmem.read a = s.bmem.read a
  bmem_same : i ≠ .zeroize → outputOperands i s = [] → u.bmem = s.bmem
  rng_same : drawsRandom i = false → u.rngAnswers = s.rngAnswers ∧ u.rngDraws = s.rngDraws

/-- The random port after some requests; nothing else of the state changes. -/
def State.withDraws (s : State) (ans : List RngAnswer) (n : Nat) : State := { s with rngAnswers := ans, rngDraws := n }

theorem State.rngRequest_withDraws (s : State) : ∃ ans n, s.rngRequest.2 = s.withDraws ans n :=
  ⟨_, _, s.rngRequest_state⟩

namespace Writes

variable {i : Instr} {s u : State}

theorem refl : Writes i s s :=
  ⟨rfl, id, fun _ _ _ => rfl, fun _ _ _ => rfl, fun _ _ _ => rfl, fun _ _ => rfl, fun _ => ⟨rfl, rfl⟩⟩

theorem draws (h : drawsRandom i = true) (ans : List RngAnswer) (n : Nat) : Writes i s (s.withDraws ans n) :=
  ⟨rfl, id, fun _ _ _ => rfl, fun _ _ _ => rfl, fun _ _ _ => rfl, fun _ _ => rfl, fun hno => by simp [h] at hno⟩

theorem zeroize : Writes .zeroize s s.zeroize :=
  ⟨rfl, fun _ => Memory.empty_wf, fun h => absurd rfl h, fun h => absurd rfl h, fun h => absurd rfl h,
    fun h => absurd rfl h, fun _ => ⟨rfl, rfl⟩⟩

theorem writeX {rd : RegNum} (h : scalarDest i = some rd) (v : Half) : Writes i s (s.writeX rd v) where
  __ := refl (i := i) (s := s)
  rest := rfl
  x_frame _ _ hr := s.writeX_readX_ne (fun heq => hr (h.trans (congrArg some heq))) v

theorem writeP {rd : RegNum} (h : polyDest i = some rd) (f : RingElt) : Writes i s (s.writeP rd f) where
  __ := refl (i := i) (s := s)
  rest := rfl
  p_frame _ _ hr := s.writeP_readP_ne (fun heq => hr (h.trans (congrArg some heq))) f

/-- A store of an output operand of its length. -/
theorem store (hu : Writes i s u) {a : Half} {v : Bytes} (h : (a, v.length) ∈ outputOperands i s) :
    Writes i s (u.store a v) where
  rest := congrArg (State.store · a v) hu.rest
  bmem_wf hwf := Memory.writeBytes_wf (hu.bmem_wf hwf) _ v
  x_frame := hu.x_frame
  p_frame := hu.p_frame
  bmem_frame hne b hb := (Memory.read_writeBytes_outside _ v (hb _ h)).trans (hu.bmem_frame hne b hb)
  bmem_same _ hnil := by rw [hnil] at h; cases h
  rng_same := hu.rng_same

end Writes

/-! ## The ends of a command -/

/-- `t` is an end of command `i` in state `s`: success, one error, a hang. -/
inductive CommandEnds (i : Instr) (s : State) : State → Prop where
  | success {u : State} (h : Writes i s u) : CommandEnds i s u.complete
  | error (e : CmdError) (ans : List RngAnswer) (n : Nat) (hcode : i.wf = true → e.code ∈ mayRaise i)
      (hrng : drawsRandom i = false → ans = s.rngAnswers ∧ n = s.rngDraws) : CommandEnds i s ((s.withDraws ans n).raiseError e)
  | hang (h : mayHang i = true) : CommandEnds i s s

/-- The end of a computation that may be undefined. -/
theorem CommandEnds.ofDefined {i : Instr} {s : State} {α : Type} {o : Option α} {f : α → State} (hang : mayHang i = true)
    (h : ∀ a, o = some a → Writes i s (f a)) : CommandEnds i s (s.completeIfDefined (o.map f)) := by
  cases o with
  | none => exact .hang hang
  | some a => exact .success (h a rfl)

theorem mlkemEncapsValue_lengths {ps : ParamRow} {ek m : Bytes} {kc : Bytes × Bytes}
    (h : mlkemEncapsValue ps ek m = some kc) : kc.1.length = 32 ∧ kc.2.length = 32 * (ps.du * ps.k + ps.dv) := by
  obtain ⟨c, hc, rfl⟩ := Option.map_eq_some_iff.mp h
  exact ⟨by simp [slice], kpkeEncrypt_length hc⟩

theorem mlkemDecapsValue_length {ps : ParamRow} {dk c K : Bytes} (h : mlkemDecapsValue ps dk c = some K) : K.length = 32 := by
  obtain ⟨c', -, rfl⟩ := Option.map_eq_some_iff.mp h
  simp [select, slice]

theorem keygenAfterChecks_ends (s : State) : CommandEnds .mlkemKeygen s (keygenAfterChecks s) := by
  obtain ⟨ans1, n1, h1⟩ := s.rngRequest_withDraws
  obtain ⟨ans2, n2, h2⟩ := s.rngRequest.2.rngRequest_withDraws
  unfold keygenAfterChecks
  generalize s.rngRequest = r1 at *
  obtain ⟨d | _, s1⟩ := r1
  · dsimp only at *
    generalize s1.rngRequest = r2 at *
    obtain ⟨z | _, s2⟩ := r2
    · subst h1 h2
      refine .ofDefined rfl fun keys hkeys => ?_
      obtain ⟨hek, -⟩ := kpkeKeyGen_lengths hkeys
      have hdk := dkOf_length hkeys (z := z.toList) (by simp)
      refine .store (.store (.draws rfl ans2 n2) ?_) ?_
      · rw [hek]; exact List.mem_cons_self
      · rw [hdk]; exact List.mem_cons_of_mem _ List.mem_cons_self
    · subst h1 h2
      exact .error _ ans2 n2 (fun _ => by decide) nofun
  · subst h1
    exact .error _ ans1 n1 (fun _ => by decide) nofun

theorem encapsAfterChecks_ends (s : State) : CommandEnds .mlkemEncaps s (encapsAfterChecks s) := by
  obtain ⟨ans, n, h⟩ := s.rngRequest_withDraws
  unfold encapsAfterChecks
  generalize s.rngRequest = r at *
  obtain ⟨m | _, s1⟩ := r <;> subst h
  · refine .ofDefined rfl fun kc hkc => ?_
    obtain ⟨hK, hc⟩ := mlkemEncapsValue_lengths hkc
    refine .store (.store (.draws rfl ans n) ?_) ?_
    · rw [hK]; exact List.mem_cons_self
    · rw [hc]; exact List.mem_cons_of_mem _ List.mem_cons_self
  · exact .error _ ans n (fun _ => by decide) nofun

/-- How a command ends whose checks have passed. -/
theorem commandEnd_ends (i : Instr) (s : State) : CommandEnds i s (commandEnd i s) := by
  cases i
  case nop => exact .success .refl
  case zeroize => exact .success .zeroize
  case li | montmul | modadd | modsub | modneg => exact .success (.writeX rfl _)
  case padd | psub | pneg | pmov | ntt | intt | basemul | cbd | prfcbd | compress | decompress | decode =>
    exact .success (.writeP rfl _)
  case samplentt => exact .ofDefined rfl fun f _ => .writeP rfl f
  case encode rd ra d =>
    exact .success (.store .refl (by rw [byteEncode_length]; exact List.mem_cons_self))
  case kpkeKeygen =>
    refine .ofDefined rfl fun keys hkeys => ?_
    obtain ⟨hek, hdk⟩ := kpkeKeyGen_lengths hkeys
    refine .store (.store .refl ?_) ?_
    · rw [hek]; exact List.mem_cons_self
    · rw [hdk]; exact List.mem_cons_of_mem _ List.mem_cons_self
  case kpkeEnc =>
    exact .ofDefined rfl fun c hc => .store .refl (by rw [kpkeEncrypt_length hc]; exact List.mem_cons_self)
  case kpkeDec => exact .success (.store .refl (by rw [kpkeDecrypt_length]; exact List.mem_cons_self))
  case mlkemKeygen => exact keygenAfterChecks_ends s
  case mlkemEncaps => exact encapsAfterChecks_ends s
  case mlkemDecaps =>
    exact .ofDefined rfl fun K hK => .store .refl (by rw [mlkemDecapsValue_length hK]; exact List.mem_cons_self)

/-! ## The errors of a row (`60_exceptions.md` R255) -/

theorem code_of_lengthCheck {idx : BitVec 4} {v : Half} {n : Nat} {e : CmdError} (h : lengthCheck idx v n = some e) :
    e.code = 2 := by
  obtain ⟨-, ⟨⟩⟩ := Option.ite_none_left_eq_some.mp h
  rfl

theorem code_of_addressCheck {idx : BitVec 4} {a : Half} {n : Nat} {e : CmdError} (h : addressCheck idx a n = some e) :
    e.code = 4 := by
  obtain ⟨-, ⟨⟩⟩ := Option.ite_none_left_eq_some.mp h
  rfl

theorem code_of_rangeCheck {idx : BitVec 4} {v : Half} {e : CmdError} (h : rangeCheck idx v = some e) : e.code = 5 := by
  obtain ⟨-, ⟨⟩⟩ := Option.ite_none_left_eq_some.mp h
  rfl

theorem code_of_modulusCheck {enabled : Bool} {k : Nat} {ek : Bytes} {e : CmdError} (h : modulusCheck enabled k ek = some e) :
    e.code = 2 := by
  obtain ⟨-, h⟩ := Option.ite_none_right_eq_some.mp h
  obtain ⟨n, -, rfl⟩ := Option.map_eq_some_iff.mp h
  rfl

/-- A command that compares a length register has `FORMAT_ERROR` in its row. -/
theorem two_mem_mayRaise {i : Instr} {s : State} (h : lengthOperands i s ≠ []) : 2 ∈ mayRaise i := by
  cases i
  case decode | kpkeKeygen | kpkeEnc | kpkeDec | mlkemEncaps | mlkemDecaps => simp [mayRaise]
  all_goals exact absurd rfl h

/-- A command with a memory operand has `ADDRESS_ERROR` in its row. -/
theorem four_mem_mayRaise {i : Instr} {s : State} (h : inputOperands i s ++ outputOperands i s ≠ []) : 4 ∈ mayRaise i := by
  cases i
  case samplentt | cbd | prfcbd | encode | decode | kpkeKeygen | kpkeEnc | kpkeDec | mlkemKeygen | mlkemEncaps | mlkemDecaps =>
    simp [mayRaise]
  all_goals exact absurd rfl h

theorem code_mem_mayRaise_of_valueChecks {i : Instr} {s : State} {e : CmdError} (h : some e ∈ valueChecks i s) :
    e.code ∈ mayRaise i := by
  cases i
  case montmul | modadd | modsub =>
    rcases List.mem_pair.mp h with h | h <;> exact List.mem_singleton.mpr (code_of_rangeCheck h.symm)
  case modneg => exact List.mem_singleton.mpr (code_of_rangeCheck (List.mem_singleton.mp h).symm)
  case mlkemEncaps => exact code_of_modulusCheck (List.mem_singleton.mp h).symm ▸ List.mem_cons_self
  all_goals cases h

/-- A well-formed command's checks raise only errors of its row. -/
theorem code_mem_mayRaise {i : Instr} {s : State} {e : CmdError} (hwf : i.wf = true) (h : some e ∈ commandChecks i s) :
    e.code ∈ mayRaise i := by
  rcases List.mem_cons.mp h with hfield | h
  · rw [hwf] at hfield; cases hfield
  rcases List.mem_append.mp h with hlen | h
  · obtain ⟨n, hn, he⟩ := List.mem_mapIdx.mp hlen
    exact code_of_lengthCheck he ▸ two_mem_mayRaise (List.ne_nil_of_length_pos (Nat.zero_lt_of_lt hn))
  rcases List.mem_append.mp h with haddr | hval
  · obtain ⟨n, hn, he⟩ := List.mem_mapIdx.mp haddr
    exact code_of_addressCheck he ▸ four_mem_mayRaise (List.ne_nil_of_length_pos (Nat.zero_lt_of_lt hn))
  · exact code_mem_mayRaise_of_valueChecks hval

/-- Every command has an end. -/
theorem exec_ends (i : Instr) (s : State) : ∃ t, exec i s = .next t ∧ CommandEnds i s t := by
  rw [exec_eq_checked]
  rcases s.checked_cases (commandChecks i s) (commandEnd i s) with ⟨e, he, h⟩ | ⟨-, h⟩
  · exact ⟨_, h, .error e s.rngAnswers s.rngDraws (fun hwf => code_mem_mayRaise hwf (mem_of_firstError he))
      fun _ => ⟨rfl, rfl⟩⟩
  · exact ⟨_, h, commandEnd_ends i s⟩

/-- What a command answers is an end of it. -/
theorem commandEnds_of_exec {i : Instr} {s t : State} (h : exec i s = .next t) : CommandEnds i s t := by
  obtain ⟨t', h', hends⟩ := exec_ends i s
  obtain rfl : t = t' := Host.Outcome.next.inj (h.symm.trans h')
  exact hends

theorem Writes.sameControl {i : Instr} {s u : State} (h : Writes i s u) : State.sameControl s u.complete := by
  rw [h.rest]
  exact ⟨rfl, rfl, rfl, rfl, rfl, rfl, rfl⟩

/-- Settles O25, by the three ends of a command. -/
theorem commandEndsInOneOfThreeWays : Obligations.CommandEndsInOneOfThreeWays := by
  intro i s
  obtain ⟨t, hexec, hends⟩ := exec_ends i s
  refine ⟨t, hexec, ?_⟩
  cases hends with
  | success h =>
    refine ⟨h.sameControl, .inr (.inl ?_)⟩
    rw [h.rest]
    exact ⟨rfl, rfl, rfl, rfl, rfl, rfl⟩
  | error e ans n =>
    exact ⟨⟨rfl, rfl, rfl, rfl, rfl, rfl, rfl⟩, .inr (.inr ⟨⟨rfl, rfl, rfl⟩, rfl, rfl, rfl, e.code_ne_zero, rfl⟩)⟩
  | hang h => exact ⟨⟨rfl, rfl, rfl, rfl, rfl, rfl, rfl⟩, .inl ⟨rfl, h⟩⟩

/-- Settles O26: the errors of a command's checks and requests are those of its row. -/
theorem commandEndsOnlyAsItsRowSays : Obligations.CommandEndsOnlyAsItsRowSays := by
  intro i s t hwf hexec
  cases commandEnds_of_exec hexec with
  | success h =>
    refine .inl ?_
    rw [h.rest]
    exact ⟨rfl, rfl⟩
  | error e ans n hcode => exact .inr (.inl ⟨hcode hwf, rfl⟩)
  | hang h => exact .inr (.inr ⟨h, rfl⟩)

/-- Settles O27: a success makes the command's writes, an error and a hang make none. -/
theorem commandWritesOnlyItsDestination : Obligations.CommandWritesOnlyItsDestination := by
  intro i s t hne hexec
  cases commandEnds_of_exec hexec with
  | success h => exact ⟨h.x_frame hne, h.p_frame hne, h.bmem_frame hne, h.bmem_same hne, h.rng_same⟩
  | error e ans n _ hrng => exact ⟨fun _ _ => rfl, fun _ _ => rfl, fun _ _ => rfl, fun _ => rfl, hrng⟩
  | hang h => exact ⟨fun _ _ => rfl, fun _ _ => rfl, fun _ _ => rfl, fun _ => rfl, fun _ => ⟨rfl, rfl⟩⟩

end Sys2Proof.Machine
end

section
/-! Commands run in two states: what a command does not read it does not depend on (`00_scope.md` R7, `10_state.md` R31,
`20_memory.md` R68, `45_mlkem.md` R237). -/

namespace Sys2Proof.Machine

/-! ## Fields no command reads -/

/-- `s` with other values of `BUSERR`, the bus's answer, and `PSET`. -/
def State.withUnread (s : State) (busErr : Bool) (busReply : Option BusReply) (ps : ParamSet) : State :=
  { s with busErr := busErr, busReply := busReply, pset := ps }

section Unread

variable (s : State) (busErr : Bool) (busReply : Option BusReply)

theorem State.completeIfDefined_withUnread {α : Type} (ps : ParamSet) (o : Option α) {f g : α → State} (h : ∀ a, g a = (f a).withUnread busErr busReply ps) :
    (s.withUnread busErr busReply ps).completeIfDefined (o.map g) =
      (s.completeIfDefined (o.map f)).withUnread busErr busReply ps := by
  cases o with
  | none => rfl
  | some a => exact congrArg State.complete (h a)

theorem State.rngRequest_withUnread (ps : ParamSet) :
    (s.withUnread busErr busReply ps).rngRequest =
      (s.rngRequest.1, s.rngRequest.2.withUnread busErr busReply ps) := by
  obtain ⟨x, p, bmem, ieDone, ieErr, busy, done, _, err, cmdreg, _, ecmd, einfo, cmdcnt, sch, _, ans, n⟩ := s
  cases ans <;> rfl

theorem keygenAfterChecks_withUnread :
    keygenAfterChecks (s.withUnread busErr busReply s.pset) =
      (keygenAfterChecks s).withUnread busErr busReply s.pset := by
  unfold keygenAfterChecks
  rw [State.rngRequest_withUnread]
  generalize s.rngRequest = r1
  obtain ⟨d | _, s1⟩ := r1
  · dsimp only
    rw [State.rngRequest_withUnread]
    generalize s1.rngRequest = r2
    obtain ⟨z | _, s2⟩ := r2
    · exact s.completeIfDefined_withUnread busErr busReply s.pset _ fun _ => rfl
    · rfl
  · rfl

theorem encapsAfterChecks_withUnread :
    encapsAfterChecks (s.withUnread busErr busReply s.pset) =
      (encapsAfterChecks s).withUnread busErr busReply s.pset := by
  unfold encapsAfterChecks
  rw [State.rngRequest_withUnread]
  generalize s.rngRequest = r
  obtain ⟨m | _, s1⟩ := r
  · exact s.completeIfDefined_withUnread busErr busReply s.pset _ fun _ => rfl
  · rfl

variable {i : Instr} {s} {ps : ParamSet} (h : isMacro i = false ∨ ps = s.pset)
include h

theorem commandChecks_withUnread : commandChecks i (s.withUnread busErr busReply ps) = commandChecks i s := by
  cases i
  case kpkeKeygen | kpkeEnc | kpkeDec | mlkemKeygen | mlkemEncaps | mlkemDecaps =>
    obtain rfl := h.resolve_left (by decide)
    rfl
  all_goals rfl

theorem commandEnd_withUnread : commandEnd i (s.withUnread busErr busReply ps) =
    (commandEnd i s).withUnread busErr busReply ps := by
  cases i
  case samplentt => exact s.completeIfDefined_withUnread busErr busReply ps _ fun _ => rfl
  case kpkeKeygen | kpkeEnc | mlkemDecaps =>
    obtain rfl := h.resolve_left (by decide)
    exact s.completeIfDefined_withUnread busErr busReply s.pset _ fun _ => rfl
  case kpkeDec =>
    obtain rfl := h.resolve_left (by decide)
    rfl
  case mlkemKeygen =>
    obtain rfl := h.resolve_left (by decide)
    exact keygenAfterChecks_withUnread s busErr busReply
  case mlkemEncaps =>
    obtain rfl := h.resolve_left (by decide)
    exact encapsAfterChecks_withUnread s busErr busReply
  all_goals rfl

/-- A command neither reads `BUSERR` and the bus's answer nor, unless it is one of the six K-PKE and ML-KEM commands, `PSET`. -/
theorem exec_withUnread {t : State} (hexec : exec i s = .next t) :
    exec i (s.withUnread busErr busReply ps) = .next (t.withUnread busErr busReply ps) := by
  rw [exec_eq_checked, State.checked] at *
  rw [commandChecks_withUnread busErr busReply h, commandEnd_withUnread busErr busReply h]
  obtain rfl := Host.Outcome.next.inj hexec
  cases firstError (commandChecks i s) <;> rfl

end Unread

/-- Settles O29: `PSET` is a field no primitive command reads, and the frame of every end leaves it. -/
theorem primitiveCommandsIgnorePset : Obligations.PrimitiveCommandsIgnorePset := by
  intro i s t ps hexec
  obtain ⟨t', hexec', ⟨-, -, hbus, -, hpset, -, hreply⟩, -⟩ := commandEndsInOneOfThreeWays i s
  obtain rfl : t = t' := Host.Outcome.next.inj (hexec.symm.trans hexec')
  refine ⟨hpset, fun hprim => ?_⟩
  have hend := exec_withUnread s.busErr s.busReply (ps := ps) (.inl hprim) hexec
  have hfields : t.withUnread s.busErr s.busReply ps = { t with pset := ps } := by rw [← hbus, ← hreply]; rfl
  exact hend.trans (congrArg _ hfields)

/-- The engine's turn on a pending command does not depend on `BUSERR` and the bus's answer. -/
theorem engineTurn_withUnread {s t : State} (hb : s.busy = true) (busErr : Bool) (busReply : Option BusReply)
    (h : engineTurn s = .next t) : engineTurn (s.withUnread busErr busReply s.pset) =
      .next { t with busErr := busErr, busReply := busReply } := by
  have hb' : (s.withUnread busErr busReply s.pset).busy = true := hb
  cases hf : s.fetch with
  | error e =>
    rw [engineTurn_of_error hb hf] at h
    obtain rfl := Host.Outcome.next.inj h
    rw [engineTurn_of_error (e := e) hb' hf]
    rfl
  | ok i =>
    rw [engineTurn_of_ok hb hf] at h
    have hpset := (primitiveCommandsIgnorePset i s t s.pset h).1
    rw [engineTurn_of_ok (i := i) hb' hf, exec_withUnread busErr busReply (.inr rfl) h, State.withUnread, ← hpset]

/-- Settles O24: while a command is pending a host access changes `BUSERR` and the bus's answer at most. -/
theorem pendingCommandIsUndisturbed : Obligations.PendingCommandIsUndisturbed := by
  intro s u t turn hb hturn hu ht
  have hsame : u = s.withUnread u.busErr u.busReply s.pset := by
    rcases hturn with ⟨a, rfl⟩ | ⟨a, w, rfl⟩ <;> obtain rfl := Host.Outcome.next.inj hu
    · rcases s.hostRead_cases a with h | ⟨r, -, -, h⟩ <;> rw [h] <;> rfl
    · rw [State.hostWrite_of_busy hb]; rfl
  rw [hsame]
  exact engineTurn_withUnread hb u.busErr u.busReply ht

/-! ## Decapsulation in two memories (`45_mlkem.md` R237) -/

/-- Settles O60: the checks do not look at memory, and an end of the command that is no hang writes nothing but memory. -/
theorem decapsStatusTellsNothing : Obligations.DecapsStatusTellsNothing := by
  intro s t t' m _ ht ht'
  have hchecks : commandChecks .mlkemDecaps { s with bmem := m } = commandChecks .mlkemDecaps s := rfl
  rw [exec_eq_checked, State.checked] at ht ht'
  rw [hchecks] at ht'
  obtain rfl := Host.Outcome.next.inj ht
  obtain rfl := Host.Outcome.next.inj ht'
  cases firstError (commandChecks .mlkemDecaps s) with
  | some e => exact .inl rfl
  | none =>
    dsimp only [commandEnd]
    rcases State.completeIfDefined_map_cases s _ _ with h | ⟨K, -, h⟩
    · exact .inr (.inl h)
    · rcases State.completeIfDefined_map_cases { s with bmem := m } _ _ with h' | ⟨K', -, h'⟩
      · exact .inr (.inr h')
      · rw [h, h']; exact .inl rfl

end Sys2Proof.Machine
end

section
/-! A command is a function of its explicit inputs (`00_scope.md` R7, `60_exceptions.md` R258): two blocks that agree on them
end alike. -/

namespace Sys2Proof.Machine

/-- The block `o` with the explicit inputs of `s`, memory apart. -/
def State.withInputsOf (o s : State) : State :=
  { o with x := s.x, p := s.p, pset := s.pset, cmdreg := s.cmdreg, rngAnswers := s.rngAnswers, rngDraws := s.rngDraws }

/-- What two ends of command `i`, begun in `s`, have in common. -/
structure EndsAlike (i : Instr) (s t t' : State) : Prop where
  x : t'.x = t.x
  p : t'.p = t.p
  busy : t'.busy = t.busy
  err : t'.err = t.err
  rng : t'.rngAnswers = t.rngAnswers
  record : t.err ≠ 0 → t'.ecmd = t.ecmd ∧ t'.einfo = t.einfo
  output : t.busy = false → t.err = 0 → ∀ o ∈ outputOperands i s, ∀ n < o.2,
    t'.bmem.read (o.1.toNat + n) = t.bmem.read (o.1.toNat + n)

/-- After the same store two memories agree on the bytes stored and wherever they agreed before. -/
theorem Memory.read_writeBytes_congr {m m' : Memory} (hm : m.wf = true) (hm' : m'.wf = true) {a b : Nat} {v : Bytes}
    (hfit : a + v.length ≤ bmemSize) (h : (a ≤ b ∧ b < a + v.length) ∨ m'.read b = m.read b) :
    (m'.writeBytes a v).read b = (m.writeBytes a v).read b := by
  by_cases hin : a ≤ b ∧ b < a + v.length
  · obtain ⟨n, rfl⟩ := Nat.exists_eq_add_of_le hin.1
    have hn : n < v.length := by omega
    rw [Memory.read_writeBytes_inside hm v hfit n hn, Memory.read_writeBytes_inside hm' v hfit n hn]
  · rw [Memory.read_writeBytes_outside m v (by omega), Memory.read_writeBytes_outside m' v (by omega)]
    exact h.resolve_left hin

/-! ## Ends alike -/

namespace EndsAlike

variable {i : Instr} {s o : State} (u : State)

theorem error (e : CmdError) : EndsAlike i s (u.raiseError e) ((o.withInputsOf u).raiseError e) where
  x := rfl
  p := rfl
  busy := rfl
  err := rfl
  rng := rfl
  record _ := ⟨rfl, rfl⟩
  output _ h := absurd h e.code_ne_zero

section NoError

variable {u} (hu : u.err = 0) (ho : o.err = 0)
include hu ho

/-- A command without output operands that makes the same writes to the registers. -/
theorem registers (hout : outputOperands i s = []) (x : Vector Half 16) (p : Vector RingElt 16) (m m' : Memory) :
    EndsAlike i s ({ u with x := x, p := p, bmem := m } : State).complete
      ({ o.withInputsOf u with x := x, p := p, bmem := m' } : State).complete where
  x := rfl
  p := rfl
  busy := rfl
  err := ho.trans hu.symm
  rng := rfl
  record h := absurd hu h
  output _ _ := by simp [hout]

theorem hang (hb : u.busy = true) (hb' : o.busy = true) : EndsAlike i s u (o.withInputsOf u) where
  x := rfl
  p := rfl
  busy := hb'.trans hb.symm
  err := ho.trans hu.symm
  rng := rfl
  record h := absurd hu h
  output h := by rw [hb] at h; cases h

variable (hwf : u.bmem.wf = true) (hwf' : o.bmem.wf = true) {a b : Half} {v w : Bytes}
include hwf hwf'

/-- The same bytes stored in one output operand. -/
theorem store (hout : outputOperands i s = [(a, v.length)]) (hfit : a.toNat + v.length ≤ 8192) :
    EndsAlike i s (u.store a v).complete ((o.withInputsOf u).store a v).complete where
  x := rfl
  p := rfl
  busy := rfl
  err := ho.trans hu.symm
  rng := rfl
  record h := absurd hu h
  output _ _ := by
    rw [hout]
    intro op hop n hn
    obtain rfl := List.mem_singleton.mp hop
    exact Memory.read_writeBytes_congr hwf hwf' hfit (.inl ⟨Nat.le_add_right _ _, Nat.add_lt_add_left hn _⟩)

/-- The same bytes stored in two output operands, which may overlap. -/
theorem store_store (hout : outputOperands i s = [(a, v.length), (b, w.length)]) (hfit : a.toNat + v.length ≤ 8192)
    (hfit' : b.toNat + w.length ≤ 8192) :
    EndsAlike i s ((u.store a v).store b w).complete (((o.withInputsOf u).store a v).store b w).complete where
  x := rfl
  p := rfl
  busy := rfl
  err := ho.trans hu.symm
  rng := rfl
  record h := absurd hu h
  output _ _ := by
    rw [hout]
    intro op hop n hn
    refine Memory.read_writeBytes_congr (Memory.writeBytes_wf hwf _ v) (Memory.writeBytes_wf hwf' _ v) hfit' ?_
    rcases List.mem_pair.mp hop with rfl | rfl
    · exact .inr (Memory.read_writeBytes_congr hwf hwf' hfit (.inl ⟨Nat.le_add_right _ _, Nat.add_lt_add_left hn _⟩))
    · exact .inl ⟨Nat.le_add_right _ _, Nat.add_lt_add_left hn _⟩

/-- The same bytes stored in one output operand by a command that may hang. -/
theorem storeIfDefined (hb : u.busy = true) (hb' : o.busy = true) {r : Option Bytes} {len : Nat}
    (hr : ∀ v, r = some v → v.length = len) (hout : outputOperands i s = [(a, len)]) (hfit : a.toNat + len ≤ 8192) :
    EndsAlike i s (u.completeIfDefined (r.map (u.store a)))
      ((o.withInputsOf u).completeIfDefined (r.map ((o.withInputsOf u).store a))) := by
  cases r with
  | none => exact .hang hu ho hb hb'
  | some v =>
    obtain rfl := hr v rfl
    exact .store hu ho hwf hwf' hout hfit

end NoError

end EndsAlike

theorem State.rngRequest_withInputsOf (o s : State) :
    (o.withInputsOf s).rngRequest = (s.rngRequest.1, o.withInputsOf s.rngRequest.2) := by
  obtain ⟨x, p, bmem, ieDone, ieErr, busy, done, busErr, err, cmdreg, pset, ecmd, einfo, cmdcnt, sch, br, ans, n⟩ := s
  cases ans <;> rfl

@[simp] theorem State.withInputsOf_x (o s : State) : (o.withInputsOf s).x = s.x := rfl
@[simp] theorem State.withInputsOf_p (o s : State) : (o.withInputsOf s).p = s.p := rfl
@[simp] theorem State.withInputsOf_pset (o s : State) : (o.withInputsOf s).pset = s.pset := rfl
@[simp] theorem State.withInputsOf_load (o s : State) (a : Half) (n : Nat) : (o.withInputsOf s).load a n = o.load a n := rfl

/-! ## The ends of each command -/

/-- Two blocks of one kind: a command is pending in both, no error is outstanding, the memories are canonical. -/
structure PendingPair (s o : State) : Prop where
  wf : s.bmem.wf = true
  wf' : o.bmem.wf = true
  busy : s.busy = true
  busy' : o.busy = true
  err : s.err = 0
  err' : o.err = 0

section SameInputs

variable {s o : State} (hpair : PendingPair s o)
include hpair

theorem keygenAfterChecks_alike (hfit : OperandsFit .mlkemKeygen s) :
    EndsAlike .mlkemKeygen s (keygenAfterChecks s) (keygenAfterChecks (o.withInputsOf s)) := by
  obtain ⟨ans1, n1, h1⟩ := s.rngRequest_withDraws
  obtain ⟨ans2, n2, h2⟩ := s.rngRequest.2.rngRequest_withDraws
  unfold keygenAfterChecks
  rw [State.rngRequest_withInputsOf]
  generalize s.rngRequest = r1 at *
  obtain ⟨d | _, s1⟩ := r1
  · dsimp only at *
    rw [State.rngRequest_withInputsOf]
    generalize s1.rngRequest = r2 at *
    obtain ⟨z | _, s2⟩ := r2
    · subst h1 h2
      dsimp only [State.params, State.withInputsOf_pset]
      cases hkeys : kpkeKeyGen (paramRow s.pset) d.toList with
      | none => exact .hang hpair.err hpair.err' hpair.busy hpair.busy'
      | some keys =>
        obtain ⟨hek, -⟩ := kpkeKeyGen_lengths hkeys
        have hdk := dkOf_length hkeys (z := z.toList) (by simp)
        refine .store_store (u := s.withDraws ans2 n2) hpair.err hpair.err' hpair.wf hpair.wf' ?_ ?_ ?_
        · rw [hek, hdk]; rfl
        · rw [hek]; exact hfit _ List.mem_cons_self
        · rw [hdk]; exact hfit _ (List.mem_cons_of_mem _ List.mem_cons_self)
    · exact .error s2 _
  · exact .error s1 _

theorem encapsAfterChecks_alike (hfit : OperandsFit .mlkemEncaps s)
    (hload : ∀ a ∈ inputOperands .mlkemEncaps s, o.load a.1 a.2 = s.load a.1 a.2) :
    EndsAlike .mlkemEncaps s (encapsAfterChecks s) (encapsAfterChecks (o.withInputsOf s)) := by
  obtain ⟨ans, n, h⟩ := s.rngRequest_withDraws
  have hek : o.load s.x[4] (paramRow s.pset).ekBytes = s.load s.x[4] (paramRow s.pset).ekBytes := by
    rw [paramRow_ekBytes]; exact hload _ List.mem_cons_self
  unfold encapsAfterChecks
  rw [State.rngRequest_withInputsOf]
  generalize s.rngRequest = r at *
  obtain ⟨m | _, s1⟩ := r
  · subst h
    change EndsAlike _ s (s.completeIfDefined ((mlkemEncapsValue (paramRow s.pset)
      (s.load s.x[4] (paramRow s.pset).ekBytes) m.toList).map _)) ((o.withInputsOf s).completeIfDefined
        ((mlkemEncapsValue (paramRow s.pset) (o.load s.x[4] (paramRow s.pset).ekBytes) m.toList).map _))
    rw [hek]
    cases hkc : mlkemEncapsValue (paramRow s.pset) (s.load s.x[4] (paramRow s.pset).ekBytes) m.toList with
    | none => exact .hang hpair.err hpair.err' hpair.busy hpair.busy'
    | some kc =>
      obtain ⟨hK, hc⟩ := mlkemEncapsValue_lengths hkc
      refine .store_store (u := s.withDraws ans n) hpair.err hpair.err' hpair.wf hpair.wf' ?_ ?_ ?_
      · rw [hK, hc]; rfl
      · rw [hK]; exact hfit _ (List.mem_cons_of_mem _ List.mem_cons_self)
      · rw [hc]; exact hfit _ (List.mem_cons_of_mem _ (List.mem_cons_of_mem _ List.mem_cons_self))
  · exact .error s1 _

end SameInputs

section SameInputs

variable {i : Instr} {s o : State} (hload : ∀ a ∈ inputOperands i s, o.load a.1 a.2 = s.load a.1 a.2)
include hload

theorem commandChecks_withInputsOf : commandChecks i (o.withInputsOf s) = commandChecks i s := by
  cases i
  case mlkemEncaps =>
    have hek := hload _ List.mem_cons_self
    simp only [commandChecks, valueChecks, State.withInputsOf_x, State.withInputsOf_pset, State.withInputsOf_load, hek]
    rfl
  all_goals rfl

/-- Two ends after the checks: the same values are computed from the same bytes. -/
theorem commandEnd_alike (hpair : PendingPair s o) (hfit : OperandsFit i s) :
    EndsAlike i s (commandEnd i s) (commandEnd i (o.withInputsOf s)) := by
  have hout : ∀ op ∈ outputOperands i s, op.1.toNat + op.2 ≤ 8192 := fun op hop => hfit op (List.mem_append_right _ hop)
  have ⟨hwf, hwf', hb, hb', he, he'⟩ := hpair
  cases i
  case mlkemKeygen => exact keygenAfterChecks_alike hpair hfit
  case mlkemEncaps => exact encapsAfterChecks_alike hpair hfit hload
  all_goals
    simp only [inputOperands, List.forall_mem_cons] at hload
    simp only [commandEnd, State.withInputsOf_x, State.withInputsOf_p, State.withInputsOf_pset, State.withInputsOf_load, hload]
  case samplentt rd ra j i =>
    cases sampleNTT (matrixStream (s.load s.x[ra] 32) i.val j.val) with
    | none => exact .hang he he' hb hb'
    | some f => exact .registers he he' rfl _ _ _ _
  case encode rd ra d =>
    have hlen := byteEncode_length d.val s.p[ra]
    have hop : outputOperands (.encode rd ra d) s = [(s.x[rd], (byteEncode d.val s.p[ra]).length)] := by rw [hlen]; rfl
    exact .store he he' hwf hwf' hop (hout _ (hop ▸ List.mem_cons_self))
  case kpkeKeygen =>
    cases hkeys : kpkeKeyGen (paramRow s.pset) (s.load s.x[4] 32) with
    | none => exact .hang he he' hb hb'
    | some keys =>
      obtain ⟨hek, hdk⟩ := kpkeKeyGen_lengths hkeys
      refine .store_store he he' hwf hwf' ?_ ?_ ?_
      · rw [hek, hdk]; rfl
      · rw [hek]; exact hout _ List.mem_cons_self
      · rw [hdk]; exact hout _ (List.mem_cons_of_mem _ List.mem_cons_self)
  case kpkeEnc =>
    exact .storeIfDefined he he' hwf hwf' hb hb' (fun _ => kpkeEncrypt_length) rfl (hout _ List.mem_cons_self)
  case kpkeDec =>
    refine .store he he' hwf hwf' ?_ ?_ <;> rw [kpkeDecrypt_length]
    · rfl
    · exact hout _ List.mem_cons_self
  case mlkemDecaps =>
    exact .storeIfDefined he he' hwf hwf' hb hb' (fun _ => mlkemDecapsValue_length) rfl (hout _ List.mem_cons_self)
  all_goals exact .registers he he' rfl _ _ _ _

end SameInputs

/-- A command whose checks pass has its operands inside `BMEM`. -/
theorem operandsFit_of_checks {i : Instr} {s : State} (h : firstError (commandChecks i s) = none) : OperandsFit i s := by
  intro op hop
  obtain ⟨n, hn, rfl⟩ := List.getElem_of_mem hop
  have hmem : addressCheck (BitVec.ofNat 4 n) _ _ ∈ addressChecks (inputOperands i s ++ outputOperands i s) :=
    List.mem_mapIdx.mpr ⟨n, hn, rfl⟩
  have hcheck := firstError_eq_none_iff.mp h _
    (List.mem_cons_of_mem _ (List.mem_append_right _ (List.mem_append_left _ hmem)))
  exact addressCheck_eq_none.mp hcheck

/-- Settles O28: the second block is the first one's inputs in other surroundings, of which neither the checks nor the values
depend. -/
theorem commandIsAFunctionOfItsInputs : Obligations.CommandIsAFunctionOfItsInputs := by
  intro i s s' t t' hwf hwf' hcmdreg hx hp hpset hans hdraws hb hb' he he' hbytes ht ht'
  have hload : ∀ a ∈ inputOperands i s, s'.load a.1 a.2 = s.load a.1 a.2 := fun a ha =>
    List.map_congr_left fun n hn => hbytes a ha n (List.mem_range.mp hn)
  have hs' : s' = s'.withInputsOf s := by
    rw [State.withInputsOf, ← hcmdreg, ← hx, ← hp, ← hpset, ← hans, ← hdraws]
  have halike : EndsAlike i s t t' := by
    rw [hs'] at ht'
    rw [exec_eq_checked, State.checked] at ht ht'
    rw [commandChecks_withInputsOf hload] at ht'
    obtain rfl := Host.Outcome.next.inj ht
    obtain rfl := Host.Outcome.next.inj ht'
    cases hfirst : firstError (commandChecks i s) with
    | some e => exact .error s e
    | none => exact commandEnd_alike hload ⟨hwf, hwf', hb, hb', he, he'⟩ (operandsFit_of_checks hfirst)
  exact ⟨halike.x, halike.p, halike.busy, halike.err, halike.rng, halike.record, halike.output⟩

end Sys2Proof.Machine
end

section
/-! The block as a whole: one step is one turn, every turn answers a next state and keeps the invariant (`10_state.md` R29 to
R33, `20_memory.md` R74, `60_exceptions.md` R250 to R266). -/

namespace Sys2Proof.Machine

/-! ## Steps -/

theorem step_of_nil {s : State} (h : s.schedule = []) : step s = engineTurn s := by
  simp [step, nextTurn_of_nil h, takeTurn]

/-- The engine's turn, first in the schedule, runs the pending command. -/
theorem step_of_engine {s : State} {i : Instr} {rest : List Turn} (hb : s.busy = true) (hd : decode s.cmdreg = .ok i)
    (hsch : s.schedule = .engine :: rest) : step s = exec i { s with schedule := rest } :=
  (step_of_cons hsch).trans (engineTurn_of_ok (s := { s with schedule := rest }) hb hd)

/-- Settles O6: an empty schedule and one with the engine first both give the engine the turn. -/
theorem stepRunsTheDecodedCommand : Obligations.StepRunsTheDecodedCommand := fun _ _ hb hd =>
  ⟨fun hsch => (step_of_nil hsch).trans (engineTurn_of_ok hb hd), fun _ => step_of_engine hb hd⟩

/-- An idle block without error accepts a word written to `CMD` (`10_state.md` R30). -/
theorem hostWrite_cmd {s : State} (w : Word) (hb : s.busy = false) (he : s.err = 0) :
    s.hostWrite 0x000C w = { s.acceptCommand w with busReply := some (.write true) } :=
  (cmdRegister s w).1 hb he

/-- Settles O7: the write is accepted, and the engine's turn finds the word in `CMDREG`. -/
theorem wordWrittenToCmdIsRun : Obligations.WordWrittenToCmdIsRun := by
  intro s w i rest hb he hd hsch
  have hstep := step_of_cons hsch
  rw [takeTurn, hostWrite_cmd w (by exact hb) (by exact he)] at hstep
  exact ⟨_, hstep, step_of_engine rfl hd rfl⟩

/-- Settles O8: the first turn of the schedule is taken, and an idle engine's turn changes nothing. -/
theorem stepTakesTheScheduledTurn : Obligations.StepTakesTheScheduledTurn := by
  refine fun s rest => ⟨fun a hsch => step_of_cons hsch, fun a w hsch => step_of_cons hsch, fun hsch => step_of_cons hsch,
    fun hb hsch => ?_, fun hb hsch => ?_⟩
  · exact (step_of_cons hsch).trans (engineTurn_of_idle (s := { s with schedule := rest }) hb)
  · exact (step_of_nil hsch).trans (engineTurn_of_idle hb)

/-! ## The engine's turn -/

/-- The states the engine's turn can lead to: the state itself (nothing pending, or a hang), a success, an error. -/
inductive EngineEnds (s : State) : State → Prop where
  | stays : EngineEnds s s
  | success {i : Instr} {u : State} (hb : s.busy = true) (h : Writes i s u) : EngineEnds s u.complete
  | error (hb : s.busy = true) (e : CmdError) (ans : List RngAnswer) (n : Nat) : EngineEnds s ((s.withDraws ans n).raiseError e)

theorem engineTurn_ends (s : State) : ∃ t, engineTurn s = .next t ∧ EngineEnds s t := by
  cases hb : s.busy with
  | false => exact ⟨s, engineTurn_of_idle hb, .stays⟩
  | true =>
    cases hf : s.fetch with
    | error e => exact ⟨_, engineTurn_of_error hb hf, .error hb .illegalCmd s.rngAnswers s.rngDraws⟩
    | ok i =>
      obtain ⟨t, hexec, hends⟩ := exec_ends i s
      refine ⟨t, (engineTurn_of_ok hb hf).trans hexec, ?_⟩
      cases hends with
      | success h => exact .success hb h
      | error e ans n => exact .error hb e ans n
      | hang => exact .stays

theorem engineEnds_of_engineTurn {s t : State} (h : engineTurn s = .next t) : EngineEnds s t := by
  obtain ⟨t', h', hends⟩ := engineTurn_ends s
  obtain rfl := Host.Outcome.next.inj (h.symm.trans h')
  exact hends

/-- Settles O9: host accesses and reset are functions to the next state, and the engine's turn has an end. -/
theorem stepAlwaysAnswersANextState : Obligations.StepAlwaysAnswersANextState := by
  intro s
  rw [step]
  cases (nextTurn s).1 with
  | hostRead a => exact ⟨_, rfl⟩
  | hostWrite a w => exact ⟨_, rfl⟩
  | reset => exact ⟨_, rfl⟩
  | engine => exact (engineTurn_ends _).imp fun _ h => h.1

/-! ## The invariant -/

namespace State.Inv

variable {s t : State}

/-- The invariant reads six fields. -/
theorem of_same (h : State.Inv s) (hbmem : t.bmem = s.bmem) (hbusy : t.busy = s.busy) (hdone : t.done = s.done)
    (herr : t.err = s.err) (hecmd : t.ecmd = s.ecmd) (heinfo : t.einfo = s.einfo) : State.Inv t := by
  obtain ⟨h1, h2, h3, h4, h5, h6, h7, h8⟩ := h
  exact ⟨by rwa [hbmem], by rwa [hbusy, herr], by rwa [hbusy, hdone], by rwa [herr], by rwa [herr, hecmd],
    by rwa [herr, heinfo], by rwa [heinfo], by rwa [heinfo, herr]⟩

end State.Inv

/-- Settles O11. -/
theorem resetStateMeetsTheInvariant : Obligations.ResetStateMeetsTheInvariant := by
  constructor <;> decide

/-- The fields of `EINFO` that are 0 for every error, and the one error that sets `CONTENT` (`60_exceptions.md` R254). -/
theorem einfoWord_reserved (content : Bool) (idx : BitVec 4) (val : Half) : (einfoWord content idx val).extractLsb' 20 11 = 0 := by
  apply BitVec.eq_of_toNat_eq
  have hcontent := content.toNat_le
  rw [BitVec.extractLsb'_toNat, Nat.shiftRight_eq_div_pow]
  simp only [einfoWord, toNat_append_eq_add, BitVec.toNat_ofBool, BitVec.ofNat_eq_ofNat, BitVec.toNat_ofNat]
  omega

theorem getLsbD_einfoWord (content : Bool) (idx : BitVec 4) (val : Half) : (einfoWord content idx val).getLsbD 31 = content := by
  simp only [einfoWord, BitVec.getLsbD_append]
  simp

theorem CmdError.info_reserved (e : CmdError) : e.info.extractLsb' 20 11 = 0 := by
  cases e <;> exact einfoWord_reserved _ _ _

theorem CmdError.code_of_content {e : CmdError} (h : e.info.getLsbD 31 = true) : e.code = 2 := by
  cases e
  case formatLength | formatContent => rfl
  all_goals exact absurd ((getLsbD_einfoWord _ _ _).symm.trans h) Bool.false_ne_true

namespace State.Inv

variable {s : State} (h : State.Inv s)
include h

theorem raiseError (e : CmdError) (ans : List RngAnswer) (n : Nat) : State.Inv ((s.withDraws ans n).raiseError e) where
  bmem_wf := h.bmem_wf
  busy_no_error := nofun
  busy_not_done := nofun
  err_code := e.code_le_five
  ecmd_zero he := absurd he e.code_ne_zero
  einfo_zero he := absurd he e.code_ne_zero
  einfo_reserved := e.info_reserved
  einfo_content := CmdError.code_of_content

theorem complete {i : Instr} {u : State} (hu : Writes i s u) : State.Inv u.complete := by
  have hwf := hu.bmem_wf h.bmem_wf
  rw [hu.rest]
  exact ⟨hwf, nofun, nofun, h.err_code, h.ecmd_zero, h.einfo_zero, h.einfo_reserved, h.einfo_content⟩

theorem engine {t : State} (ht : EngineEnds s t) : State.Inv t := by
  cases ht with
  | stays => exact h
  | success _ hu => exact h.complete hu
  | error _ e ans n => exact h.raiseError e ans n

theorem hostRead (a : BitVec 14) : State.Inv (s.hostRead a) := by
  rcases s.hostRead_cases a with hr | ⟨r, -, -, hr⟩ <;> rw [hr] <;> exact h.of_same rfl rfl rfl rfl rfl rfl

theorem clearError : State.Inv s.clearError where
  bmem_wf := h.bmem_wf
  busy_no_error _ := rfl
  busy_not_done := h.busy_not_done
  err_code := show (0 : BitVec 8) ≤ 5 by decide
  ecmd_zero _ := rfl
  einfo_zero _ := rfl
  einfo_reserved := show (0 : Word).extractLsb' 20 11 = 0 by decide
  einfo_content hc := absurd hc (show ¬ (0 : Word).getLsbD 31 = true by decide)

theorem writeCtrl (w : Word) : State.Inv (s.writeCtrl w) := by
  unfold State.writeCtrl
  dsimp only
  split
  · exact h.clearError.of_same rfl rfl rfl rfl rfl rfl
  · exact h.of_same rfl rfl rfl rfl rfl rfl

theorem hostWrite (a : BitVec 14) (w : Word) : State.Inv (s.hostWrite a w) := by
  rcases s.hostWrite_cases a w with hrej | ⟨r, t, hb, -, hw, hserved⟩
  · rw [hrej]; exact h.of_same rfl rfl rfl rfl rfl rfl
  rw [hserved]
  refine State.Inv.of_same (s := t) ?_ rfl rfl rfl rfl rfl rfl
  rcases State.writeReg_some hw with ⟨-, rfl⟩ | ⟨-, rfl⟩ | ⟨-, he, rfl⟩ | ⟨-, rfl⟩ | ⟨i, -, rfl⟩ | ⟨o, -, rfl⟩
  · exact h.writeCtrl w
  · exact ⟨h.bmem_wf, h.busy_no_error, fun hbusy => by simp [h.busy_not_done hbusy], h.err_code, h.ecmd_zero, h.einfo_zero,
      h.einfo_reserved, h.einfo_content⟩
  · exact ⟨h.bmem_wf, fun _ => he, fun _ => rfl, h.err_code, h.ecmd_zero, h.einfo_zero, h.einfo_reserved, h.einfo_content⟩
  · exact h.of_same rfl rfl rfl rfl rfl rfl
  · exact h.of_same rfl rfl rfl rfl rfl rfl
  · exact ⟨Memory.writeBytes_wf h.bmem_wf _ _, h.busy_no_error, h.busy_not_done, h.err_code, h.ecmd_zero, h.einfo_zero,
      h.einfo_reserved, h.einfo_content⟩

end State.Inv

/-- Settles O12: each agent's turn keeps the invariant, and taking a turn off the schedule touches none of its fields. -/
theorem everyStepKeepsTheInvariant : Obligations.EveryStepKeepsTheInvariant := by
  intro s t hs hstep
  have hturn : State.Inv (nextTurn s).2 := by
    rw [nextTurn_state]; exact hs.of_same rfl rfl rfl rfl rfl rfl
  rw [step] at hstep
  cases hnext : (nextTurn s).1 <;> rw [hnext] at hstep
  case hostRead a => exact Host.Outcome.next.inj hstep ▸ hturn.hostRead a
  case hostWrite a w => exact Host.Outcome.next.inj hstep ▸ hturn.hostWrite a w
  case engine => exact hturn.engine (engineEnds_of_engineTurn hstep)
  case reset =>
    exact Host.Outcome.next.inj hstep ▸ resetStateMeetsTheInvariant.of_same rfl rfl rfl rfl rfl rfl

/-! ## Canonical memories -/

theorem lookupCell_cons_self (k : Nat) (c : Byte) (l : List Host.Cell) : lookupCell ((k, c) :: l) k = c := if_pos rfl

theorem lookupCell_cons_ne {k a : Nat} (h : a ≠ k) (c : Byte) (l : List Host.Cell) :
    lookupCell ((k, c) :: l) a = lookupCell l a := if_neg h

theorem lookupCell_of_lt {a : Nat} {l : List Host.Cell} (h : ∀ c ∈ l, a < c.1) : lookupCell l a = Memory.unlisted :=
  lookupCell_eq_unlisted fun c hc => (h c hc).ne'

/-- The first address of a rising list of bytes that are not 0 is the first at which it reads anything. -/
theorem first_address_le {k k' : Nat} {v v' : Byte} {l l' : List Host.Cell} (hrise : ∀ c ∈ l, k < c.1)
    (hne' : v' ≠ Memory.unlisted) (h : ∀ a, lookupCell ((k, v) :: l) a = lookupCell ((k', v') :: l') a) : k ≤ k' := by
  by_contra hlt
  have hread := h k'
  rw [lookupCell_cons_self, lookupCell_cons_ne (by omega), lookupCell_of_lt fun c hc => by have := hrise c hc; omega] at hread
  exact hne' hread.symm

/-- Rising lists of bytes that are not 0 are determined by what they read as. -/
theorem cells_eq_of_lookupCell_eq {l l' : List Host.Cell} (hl : risingCells l = true) (hl' : risingCells l' = true)
    (hne : ∀ c ∈ l, c.2 ≠ Memory.unlisted) (hne' : ∀ c ∈ l', c.2 ≠ Memory.unlisted)
    (h : ∀ a, lookupCell l a = lookupCell l' a) : l = l' := by
  induction l generalizing l' with
  | nil =>
    cases l' with
    | nil => rfl
    | cons c' r' => exact absurd ((h c'.1).trans (lookupCell_cons_self _ _ r')).symm (hne' c' List.mem_cons_self)
  | cons c r ih =>
    obtain ⟨k, v⟩ := c
    obtain ⟨hk, hr⟩ := risingCells_cons.mp hl
    cases l' with
    | nil => exact absurd ((lookupCell_cons_self k v r).symm.trans (h k)) (hne (k, v) List.mem_cons_self)
    | cons c' r' =>
      obtain ⟨k', v'⟩ := c'
      obtain ⟨hk', hr'⟩ := risingCells_cons.mp hl'
      obtain rfl : k = k' := Nat.le_antisymm (first_address_le hk (hne' (k', v') List.mem_cons_self) h)
        (first_address_le hk' (hne (k, v) List.mem_cons_self) fun a => (h a).symm)
      obtain rfl : v = v' := by simpa only [lookupCell_cons_self] using h k
      have hrest : r = r' := ih hr hr' (fun c hc => hne c (List.mem_cons_of_mem _ hc))
        (fun c hc => hne' c (List.mem_cons_of_mem _ hc)) fun a => by
          by_cases ha : a = k
          · rw [ha, lookupCell_of_lt hk, lookupCell_of_lt hk']
          · simpa only [lookupCell_cons_ne ha] using h a
      rw [hrest]

/-- A canonical memory reads 0 outside `BMEM`. -/
theorem Memory.read_of_ge {m : Memory} (h : m.wf = true) {a : Nat} (ha : 8192 ≤ a) : m.read a = Memory.unlisted :=
  lookupCell_eq_unlisted fun c hc => (Nat.lt_of_lt_of_le ((Memory.wf_iff.mp h).2 c hc).1 ha).ne

/-- Settles O13: outside `BMEM` both read 0, so the two lists read the same everywhere. -/
theorem canonicalMemoriesWithEqualBytesAreEqual : Obligations.CanonicalMemoriesWithEqualBytesAreEqual := by
  intro m m' hm hm' h
  obtain ⟨hrise, hcells⟩ := Memory.wf_iff.mp hm
  obtain ⟨hrise', hcells'⟩ := Memory.wf_iff.mp hm'
  refine congrArg Memory.mk (cells_eq_of_lookupCell_eq hrise hrise' (fun c hc => (hcells c hc).2) (fun c hc => (hcells' c hc).2)
    fun a => ?_)
  rcases Nat.lt_or_ge a 8192 with ha | ha
  · exact h a ha
  · exact (Memory.read_of_ge hm ha).trans (Memory.read_of_ge hm' ha).symm

end Sys2Proof.Machine
end

section
/-! The host's accesses address by address (`20_memory.md` R60 to R69, `10_state.md` R21 to R33), and what each agent's turn
does to `STATUS`, `CMDCNT` and the interrupt line. -/

namespace Sys2Proof.Machine

/-! ## Addresses of registers -/

theorem regAddr_pset : regAddr 0x0010 = some .pset := rfl

theorem regAddr_xreg : ∀ i : RegNum, regAddr (BitVec.ofNat 14 (0x0040 + 4 * i.val)) = some (.xreg i) := by decide

/-- A word of the window is found at its offset. -/
theorem regAddr_window {o : Nat} (haligned : o % 4 = 0) (ho : o < 8192) :
    regAddr (BitVec.ofNat 14 (0x2000 + o)) = some (.window o) := by
  have hval : (BitVec.ofNat 14 (0x2000 + o)).toNat = 0x2000 + o := by
    rw [BitVec.toNat_ofNat]; omega
  have hmapped : regAddr (BitVec.ofNat 14 (0x2000 + o)) ≠ none := by
    rw [Ne, regAddr_eq_none_iff]; omega
  obtain ⟨r, hr⟩ := Option.ne_none_iff_exists'.mp hmapped
  obtain ⟨-, haddr⟩ := regAddr_some hr
  rw [hval] at haddr
  cases r <;> simp only [RegAddr.address] at haddr
  case window o' => rw [hr, show o = o' by omega]
  all_goals omega

/-! ## The words the host reads -/

/-- `STATUS` as a sum of its fields (`10_state.md` R29). -/
theorem State.statusWord_eq (s : State) : s.statusWord = BitVec.ofNat 32
    (s.busy.toNat + 2 * s.done.toNat + 4 * s.busErr.toNat + 256 * s.err.toNat) := by
  apply BitVec.eq_of_toNat_eq
  have hbusy := s.busy.toNat_le
  have hdone := s.done.toNat_le
  have hbusErr := s.busErr.toNat_le
  simp only [State.statusWord, toNat_append_eq_add, BitVec.toNat_ofBool, BitVec.toNat_ofNat]
  omega

/-- `CTRL` as a sum of its fields (`10_state.md` R28). -/
theorem State.ctrlWord_eq (s : State) : s.ctrlWord = BitVec.ofNat 32 (s.ieDone.toNat + 2 * s.ieErr.toNat) := by
  apply BitVec.eq_of_toNat_eq
  have hdone := s.ieDone.toNat_le
  have herr := s.ieErr.toNat_le
  simp only [State.ctrlWord, toNat_append_eq_add, BitVec.toNat_ofBool, BitVec.toNat_ofNat]
  omega

/-- A window word is its four bytes, little-endian (`20_memory.md` R63). -/
theorem State.windowWord_eq (s : State) (o : Nat) : s.windowWord o = BitVec.ofNat 32 ((s.bmem.read o).toNat +
    2 ^ 8 * (s.bmem.read (o + 1)).toNat + 2 ^ 16 * (s.bmem.read (o + 2)).toNat + 2 ^ 24 * (s.bmem.read (o + 3)).toNat) := by
  apply BitVec.eq_of_toNat_eq
  simp only [State.windowWord, toNat_append_eq_add, BitVec.toNat_ofNat]
  omega

theorem State.psetWord_eq (s : State) : s.psetWord = BitVec.ofNat 32 (psetCode s.pset).toNat := by
  apply BitVec.eq_of_toNat_eq
  simp only [State.psetWord, toNat_append_eq_add, BitVec.toNat_ofNat]
  omega

/-- A word is read back from its number. -/
theorem word_eq_ofNat_toNat (w : Word) : w = BitVec.ofNat 32 w.toNat := by
  rw [BitVec.ofNat_toNat, BitVec.setWidth_eq]

/-- Settles O14: every address is that of its register, an idle block serves it, and its word is the sum of its fields. -/
theorem hostReadReturnsTheRegister : Obligations.HostReadReturnsTheRegister := by
  intro s hb served b
  have serve {addr d : Nat} {r : RegAddr} (hr : regAddr (BitVec.ofNat 14 addr) = some r)
      (hd : s.readData r = BitVec.ofNat 32 d) : served addr d :=
    (State.hostRead_of_readable hr (.inl hb)).trans (by rw [hd])
  refine ⟨serve regAddr_id rfl, serve regAddr_ctrl s.ctrlWord_eq, serve regAddr_status ?status,
    serve regAddr_cmd (word_eq_ofNat_toNat _), fun h => serve regAddr_pset ?_, fun h => serve regAddr_pset ?_,
    fun h => serve regAddr_pset ?_, serve regAddr_ecmd (word_eq_ofNat_toNat _), serve regAddr_einfo (word_eq_ofNat_toNat _),
    serve regAddr_cmdcnt (word_eq_ofNat_toNat _), fun i => serve (regAddr_xreg i) (BitVec.ofNat_toNat 32 _).symm,
    fun o haligned ho => serve (regAddr_window haligned ho) (s.windowWord_eq o)⟩
  case status => rw [State.readData, s.statusWord_eq, hb, Bool.toNat_false, Nat.zero_add]
  all_goals rw [State.readData, s.psetWord_eq, h]; rfl

/-! ## The words the host writes -/

/-- A bit of a word as a digit of its number. -/
theorem getLsbD_eq_decide (w : Word) (n : Nat) : w.getLsbD n = decide (w.toNat / 2 ^ n % 2 = 1) := by
  rw [← BitVec.testBit_toNat, Nat.testBit_eq_decide_div_mod_eq]

/-- Only the low two bits of the word written to `PSET` count (`10_state.md` R31). -/
theorem psetAfterWrite_congr (old : ParamSet) {w v : Word} (h : w.toNat % 4 = v.toNat % 4) :
    psetAfterWrite old w = psetAfterWrite old v := by
  have hbits : w.extractLsb' 0 2 = v.extractLsb' 0 2 := by
    apply BitVec.eq_of_toNat_eq
    rwa [BitVec.extractLsb'_toNat, BitVec.extractLsb'_toNat]
  rw [psetAfterWrite, psetAfterWrite, hbits]

/-- A bit that is cleared where a condition holds. -/
theorem and_not_decide (b : Bool) (p : Prop) [Decidable p] : (b && !decide p) = if p then false else b := by
  by_cases hp : p <;> simp [hp]

/-- Byte `n` of the four a window write stores. -/
theorem bytesOfWord_getElem (w : Word) {n : Nat} (hn : n < 4) :
    ((bytesOfWord w)[n]'hn).toNat = w.toNat / 2 ^ (8 * n) % 256 := by
  interval_cases n <;>
    simp [bytesOfWord, BitVec.extractLsb'_toNat, Nat.shiftRight_eq_div_pow]

/-- Settles O15: an idle block makes the write of the register at the address. -/
theorem hostWriteStoresTheWord : Obligations.HostWriteStoresTheWord := by
  intro s w hb
  have pset {v : Word} (h : w.toNat % 4 = v.toNat % 4) :
      s.hostWrite 0x0010 w = { s with pset := psetAfterWrite s.pset v, busReply := some (.write true) } :=
    psetAfterWrite_congr s.pset h ▸ State.hostWrite_of_writeReg_some regAddr_pset hb rfl
  refine ⟨fun i => ?xreg, ?status, pset (v := 0), pset (v := 1), pset (v := 2), pset (v := 3), fun hwf o haligned ho => ?window⟩
  case xreg =>
    rw [State.hostWrite_of_writeReg_some (regAddr_xreg i) hb rfl, State.writeX, BitVec.ofNat_toNat]
    rfl
  case status =>
    rw [State.hostWrite_of_writeReg_some regAddr_status hb rfl, State.writeStatus, getLsbD_eq_decide, getLsbD_eq_decide,
      and_not_decide, and_not_decide]
    rfl
  case window =>
    have hfit : o + (bytesOfWord w).length ≤ bmemSize := by
      rw [show (bytesOfWord w).length = 4 from rfl, bmemSize]; omega
    refine ⟨s.bmem.writeBytes o (bytesOfWord w), State.hostWrite_of_writeReg_some (regAddr_window haligned ho) hb rfl, Memory.writeBytes_wf hwf _ _,
      fun n hn => ?_, fun a ha => Memory.read_writeBytes_outside _ _ ha⟩
    rw [Memory.read_writeBytes_inside hwf _ hfit n hn, bytesOfWord_getElem w hn]

/-! ## What a host write reaches -/

/-- Settles O20: a served write changes the fields of the register at its address, and a rejected one changes none. -/
theorem hostWriteReachesOnlyItsRegister : Obligations.HostWriteReachesOnlyItsRegister := by
  intro s a w
  rcases s.hostWrite_cases a w with h | ⟨r, t, -, hr, hw, h⟩ <;> rw [h]
  · simp
  obtain ⟨-, haddr⟩ := regAddr_some hr
  rcases State.writeReg_some hw with ⟨rfl, rfl⟩ | ⟨rfl, rfl⟩ | ⟨rfl, -, rfl⟩ | ⟨rfl, rfl⟩ | ⟨i, rfl, rfl⟩ | ⟨o, rfl, rfl⟩
  case inl =>
    have ha : a = 0x0004 := (regAddr_eq_some_iff regAddr_ctrl).mp hr
    rw [State.writeCtrl_eq]
    cases w.getLsbD 8 <;> simp [ha]
  case inr.inl => simp
  case inr.inr.inl => simp [(regAddr_eq_some_iff regAddr_cmd).mp hr]
  case inr.inr.inr.inl => simp [(regAddr_eq_some_iff regAddr_pset).mp hr]
  case inr.inr.inr.inr.inl =>
    dsimp only [RegAddr.address] at haddr
    simp
    omega
  case inr.inr.inr.inr.inr =>
    dsimp only [RegAddr.address] at haddr
    simp
    omega

/-! ## What each turn does to `STATUS` (`10_state.md` R29) -/

/-- The accesses that leave the status, the error record, the enables and `CMDCNT`; `BUSERR` may rise. -/
structure SameStatus (s t : State) : Prop where
  busy : t.busy = s.busy
  done : t.done = s.done
  err : t.err = s.err
  ecmd : t.ecmd = s.ecmd
  einfo : t.einfo = s.einfo
  ieDone : t.ieDone = s.ieDone
  ieErr : t.ieErr = s.ieErr
  cmdcnt : t.cmdcnt = s.cmdcnt
  busErr : s.busErr = true → t.busErr = true

theorem State.hostRead_sameStatus (s : State) (a : BitVec 14) : SameStatus s (s.hostRead a) := by
  rcases s.hostRead_cases a with h | ⟨r, -, -, h⟩ <;> rw [h]
  · exact ⟨rfl, rfl, rfl, rfl, rfl, rfl, rfl, rfl, fun _ => rfl⟩
  · exact ⟨rfl, rfl, rfl, rfl, rfl, rfl, rfl, rfl, id⟩

/-- A host write leaves the status unless it is a served write to `CTRL`, `STATUS` or `CMD`. -/
theorem State.hostWrite_status_cases (s : State) (a : BitVec 14) (w : Word) : SameStatus s (s.hostWrite a w) ∨
    (a = 0x0004 ∧ s.hostWrite a w = { s.writeCtrl w with busReply := some (.write true) }) ∨
    (a = 0x0008 ∧ s.hostWrite a w = { s.writeStatus w with busReply := some (.write true) }) ∨
    (a = 0x000C ∧ s.busy = false ∧ s.err = 0 ∧ s.hostWrite a w = { s.acceptCommand w with busReply := some (.write true) }) := by
  rcases s.hostWrite_cases a w with h | ⟨r, t, hb, hr, hw, h⟩ <;> rw [h]
  · exact .inl ⟨rfl, rfl, rfl, rfl, rfl, rfl, rfl, rfl, fun _ => rfl⟩
  rcases State.writeReg_some hw with ⟨rfl, rfl⟩ | ⟨rfl, rfl⟩ | ⟨rfl, he, rfl⟩ | ⟨-, rfl⟩ | ⟨i, -, rfl⟩ | ⟨o, -, rfl⟩
  · exact .inr (.inl ⟨(regAddr_eq_some_iff regAddr_ctrl).mp hr, rfl⟩)
  · exact .inr (.inr (.inl ⟨(regAddr_eq_some_iff regAddr_status).mp hr, rfl⟩))
  · exact .inr (.inr (.inr ⟨(regAddr_eq_some_iff regAddr_cmd).mp hr, hb, he, rfl⟩))
  all_goals exact .inl ⟨rfl, rfl, rfl, rfl, rfl, rfl, rfl, rfl, id⟩

/-- Settles O21: each turn's effect on the four fields, by the register a host write reaches and the end of the engine's turn. -/
theorem statusChangesOnlyAsStated : Obligations.StatusChangesOnlyAsStated := by
  intro s t turn hturn
  cases turn with
  | hostRead a =>
    obtain rfl := Host.Outcome.next.inj hturn
    have h := s.hostRead_sameStatus a
    simp +contextual [h.busy, h.done, h.err, h.busErr]
  | hostWrite a w =>
    obtain rfl := Host.Outcome.next.inj hturn
    rcases s.hostWrite_status_cases a w with h | ⟨rfl, h⟩ | ⟨rfl, h⟩ | ⟨rfl, hb, he, h⟩
    · simp +contextual [h.busy, h.done, h.err, h.busErr]
    · rw [h, State.writeCtrl_eq]
      cases hbit : w.getLsbD 8
      · simp +contextual
      · simp +contextual [← hbit]
    · rw [h]; simp +contextual
    · rw [h]; simp +contextual [hb, he]
  | engine =>
    cases engineEnds_of_engineTurn hturn with
    | stays => simp +contextual
    | success hb hu => rw [hu.rest]; simp +contextual [hb]
    | error hb e =>
      have hcode : ¬ e.code = 0#8 := e.code_ne_zero
      simp +contextual [hb, State.withDraws, hcode]
  | reset =>
    obtain rfl := Host.Outcome.next.inj hturn
    simp +contextual [State.resetBlock, State.reset]

/-- Settles O22: with an error outstanding a write to `CMD` is rejected, and no other access touches the record. -/
theorem outstandingErrorStaysUntilCleared : Obligations.OutstandingErrorStaysUntilCleared := by
  intro s t turn hb he hturn
  cases turn with
  | hostRead a =>
    obtain rfl := Host.Outcome.next.inj hturn
    have h := s.hostRead_sameStatus a
    exact .inr (.inr ⟨h.busy.trans hb, h.err, h.ecmd, h.einfo⟩)
  | hostWrite a w =>
    obtain rfl := Host.Outcome.next.inj hturn
    rcases s.hostWrite_status_cases a w with h | ⟨rfl, h⟩ | ⟨-, h⟩ | ⟨-, -, hzero, -⟩
    · exact .inr (.inr ⟨h.busy.trans hb, h.err, h.ecmd, h.einfo⟩)
    · cases hbit : w.getLsbD 8
      · refine .inr (.inr ?_)
        rw [h, State.writeCtrl_eq, hbit]
        exact ⟨hb, rfl, rfl, rfl⟩
      · exact .inr (.inl ⟨w, rfl, hbit⟩)
    · rw [h]; exact .inr (.inr ⟨hb, rfl, rfl, rfl⟩)
    · exact absurd hzero he
  | engine =>
    rw [takeTurn, engineTurn_of_idle hb] at hturn
    obtain rfl := Host.Outcome.next.inj hturn
    exact .inr (.inr ⟨hb, rfl, rfl, rfl⟩)
  | reset => exact .inl rfl

/-- No host write changes `CMDCNT`. -/
theorem State.hostWrite_cmdcnt (s : State) (a : BitVec 14) (w : Word) : (s.hostWrite a w).cmdcnt = s.cmdcnt :=
  (hostWriteReachesOnlyItsRegister s a w).2.1

/-- Settles O23: a success adds one to `CMDCNT`, an error and a hang leave it, and the host cannot write it. -/
theorem cmdcntCountsSuccessfulCommands : Obligations.CmdcntCountsSuccessfulCommands := by
  intro s t turn hturn
  cases turn with
  | hostRead a =>
    obtain rfl := Host.Outcome.next.inj hturn
    exact .inr (.inr ⟨(s.hostRead_sameStatus a).cmdcnt, nofun⟩)
  | hostWrite a w =>
    obtain rfl := Host.Outcome.next.inj hturn
    exact .inr (.inr ⟨s.hostWrite_cmdcnt a w, nofun⟩)
  | engine =>
    cases engineEnds_of_engineTurn hturn with
    | stays => exact .inr (.inr ⟨rfl, fun _ => .inl rfl⟩)
    | success hb hu =>
      refine .inr (.inl ⟨rfl, hb, ?_⟩)
      rw [hu.rest]
      exact ⟨rfl, rfl, rfl, rfl⟩
    | error _ e => exact .inr (.inr ⟨rfl, fun _ => .inr e.code_ne_zero⟩)
  | reset =>
    obtain rfl := Host.Outcome.next.inj hturn
    exact .inl ⟨rfl, rfl⟩

/-! ## The interrupt line (`60_exceptions.md` R266) -/

theorem State.getLsbD_statusWord_one (s : State) : s.statusWord.getLsbD 1 = s.done := by
  simp only [State.statusWord, BitVec.getLsbD_append]
  simp

theorem State.extractLsb'_statusWord_err (s : State) : s.statusWord.extractLsb' 8 8 = s.err := by
  apply BitVec.eq_of_toNat_eq
  have hbusy := s.busy.toNat_le
  have hdone := s.done.toNat_le
  have hbusErr := s.busErr.toNat_le
  rw [BitVec.extractLsb'_toNat, Nat.shiftRight_eq_div_pow, s.statusWord_eq, BitVec.toNat_ofNat]
  omega

/-- The line stays down where the status and the enables stay. -/
theorem SameStatus.irq {s t : State} (h : SameStatus s t) : t.irq = s.irq := by
  rw [State.irq, State.irq, h.ieDone, h.done, h.ieErr, h.err]

/-- A write to `STATUS` only clears fields, so it raises no line. -/
theorem State.irq_of_writeStatus {s : State} {w : Word} (h : (s.writeStatus w).irq = true) : s.irq = true := by
  rw [State.irq, Bool.or_eq_true, Bool.and_eq_true] at *
  refine h.imp_left fun ⟨henable, hdone⟩ => ⟨henable, ?_⟩
  exact ((Bool.and_eq_true _ _).mp hdone).1

/-- Settles O30: the line is made of four fields, and only the engine and a write to `CTRL` can raise one of them. -/
theorem interruptLineFollowsStatus : Obligations.InterruptLineFollowsStatus := by
  refine ⟨fun s => ?_, fun s t turn hturn hlow hhigh => ?_⟩
  · rw [State.getLsbD_ctrlWord, State.getLsbD_ctrlWord, s.getLsbD_statusWord_one, s.extractLsb'_statusWord_err, State.irq, bne,
      decide_not, ← beq_eq_decide]
    rfl
  cases turn with
  | hostRead a =>
    obtain rfl := Host.Outcome.next.inj hturn
    rw [(s.hostRead_sameStatus a).irq, hlow] at hhigh
    cases hhigh
  | hostWrite a w =>
    obtain rfl := Host.Outcome.next.inj hturn
    rcases s.hostWrite_status_cases a w with h | ⟨rfl, -⟩ | ⟨-, h⟩ | ⟨-, -, he, h⟩
    · rw [h.irq, hlow] at hhigh; cases hhigh
    · exact .inr ⟨w, rfl⟩
    · rw [h] at hhigh
      exact absurd (State.irq_of_writeStatus hhigh) (Bool.eq_false_iff.mp hlow)
    · rw [h] at hhigh
      simp [State.irq, State.acceptCommand, he] at hhigh
  | engine =>
    cases engineEnds_of_engineTurn hturn with
    | stays => rw [hlow] at hhigh; cases hhigh
    | success hb => exact .inl ⟨rfl, hb⟩
    | error hb => exact .inl ⟨rfl, hb⟩
  | reset =>
    obtain rfl := Host.Outcome.next.inj hturn
    cases hhigh

end Sys2Proof.Machine
end

section
/-! `SampleNTT` takes the first 256 accepted candidates of its stream (`42_sampling.md` R170, R172). -/

namespace Sys2Proof.Machine

/-- Candidate `c` of a stream: two 12-bit numbers in each block of three bytes. -/
def sampleCandidate (S : Nat → Byte) (c : Nat) : Nat :=
  if c % 2 = 0 then (S (3 * (c / 2))).toNat + 256 * ((S (3 * (c / 2) + 1)).toNat % 16)
  else (S (3 * (c / 2) + 1)).toNat / 16 + 16 * (S (3 * (c / 2) + 2)).toNat

/-- The candidates below q among those of the first `n` blocks. -/
def acceptedCandidates (S : Nat → Byte) (n : Nat) : List Nat :=
  ((List.range (2 * n)).map (sampleCandidate S)).filter fun v => decide (v < 3329)

/-- A candidate joins the first 256 accepted ones if it is below q and there is room. -/
theorem map_val_acceptCandidate {a : List Coeff} {l : List Nat} (h : a.map Fin.val = l.take 256) (d : Nat) :
    (acceptCandidate a d).map Fin.val = (l ++ [d].filter fun v => decide (v < 3329)).take 256 := by
  have hlen : a.length = min 256 l.length := by rw [← List.length_map, h, List.length_take]
  rw [acceptCandidate]
  split
  · next hd =>
    rw [List.filter_singleton, decide_eq_true hd]
    split
    · next hroom =>
      have hl : l.length < 256 := by omega
      rw [List.map_append, h, List.take_of_length_le hl.le, List.take_of_length_le (by simpa using hl)]
      rfl
    · next hfull => rw [h, List.take_append_of_le_length (by omega)]
  · next hd => simp [h, hd]

theorem sampleCandidate_even (S : Nat → Byte) (m : Nat) :
    sampleCandidate S (2 * m) = (S (3 * m)).toNat + 256 * ((S (3 * m + 1)).toNat % 16) := by
  simp [sampleCandidate]

theorem sampleCandidate_odd (S : Nat → Byte) (m : Nat) :
    sampleCandidate S (2 * m + 1) = (S (3 * m + 1)).toNat / 16 + 16 * (S (3 * m + 2)).toNat := by
  have hdiv : (2 * m + 1) / 2 = m := by omega
  simp [sampleCandidate, hdiv]

/-- One more block adds its two candidates. -/
theorem acceptedCandidates_succ (S : Nat → Byte) (m : Nat) : acceptedCandidates S (m + 1) =
    (acceptedCandidates S m ++ [sampleCandidate S (2 * m)].filter fun v => decide (v < 3329)) ++
      [sampleCandidate S (2 * m + 1)].filter fun v => decide (v < 3329) := by
  simp only [acceptedCandidates, Nat.mul_succ, List.range_succ, List.map_append, List.filter_append, List.map_cons, List.map_nil]

/-- The blocks from block `m` on carry the first 256 accepted candidates along. -/
theorem map_val_sampleBlocks (S : Nat → Byte) (n m : Nat) {a : List Coeff}
    (h : a.map Fin.val = (acceptedCandidates S m).take 256) :
    (sampleBlocks S n (3 * m) a).map Fin.val = (acceptedCandidates S (m + n)).take 256 := by
  induction n generalizing m a with
  | zero => exact h
  | succ n ih =>
    have hblock : (sampleBlock S (3 * m) a).map Fin.val = (acceptedCandidates S (m + 1)).take 256 := by
      rw [acceptedCandidates_succ, sampleCandidate_even, sampleCandidate_odd]
      exact map_val_acceptCandidate (map_val_acceptCandidate h _) _
    rw [sampleBlocks, ← Nat.mul_succ, ih (m + 1) hblock, Nat.add_right_comm, Nat.add_assoc]

/-- What `n` blocks make of the empty list. -/
theorem map_val_sampleBlocks_nil (S : Nat → Byte) (n : Nat) :
    (sampleBlocks S n 0 []).map Fin.val = (acceptedCandidates S n).take 256 := by
  have h := map_val_sampleBlocks S n 0 (a := []) rfl
  rwa [Nat.mul_zero, Nat.zero_add] at h

theorem length_sampleBlocks_nil (S : Nat → Byte) (n : Nat) :
    (sampleBlocks S n 0 []).length = min 256 (acceptedCandidates S n).length := by
  rw [← List.length_map (f := Fin.val), map_val_sampleBlocks_nil, List.length_take]

/-- Where 256 candidates are accepted the sampler is defined, and its lanes are the first 256 of them. -/
theorem sampleNTT_of_accepted {S : Nat → Byte} {n : Nat} (h : 256 ≤ (acceptedCandidates S n).length) :
    ∃ f : RingElt, sampleNTT S = some f ∧ ∀ (j : Nat) (_ : j < 256), (acceptedCandidates S n)[j]? = some f[j].val := by
  have hlen := length_sampleBlocks_nil S n
  have hloop := sampleLoop_of_blocks (S := S) n 0 [] (by omega)
  refine ⟨_, by rw [sampleNTT, hloop]; rfl, fun j hj => ?_⟩
  have hj' : j < (sampleBlocks S n 0 []).length := by omega
  rw [← List.getElem?_take_of_lt hj, ← map_val_sampleBlocks_nil, RingElt.getElem_ofLanes, List.getElem?_map,
    List.getElem?_eq_getElem hj', List.getD_eq_getElem _ _ hj']
  rfl

/-- Where the sampler is defined some number of blocks holds 256 accepted candidates. -/
theorem accepted_of_sampleNTT {S : Nat → Byte} {f : RingElt} (h : sampleNTT S = some f) :
    ∃ n, 256 ≤ (acceptedCandidates S n).length := by
  obtain ⟨r, hr, -⟩ := Option.map_eq_some_iff.mp h
  obtain ⟨n, rfl, hfull⟩ := sampleLoop_some hr
  rw [length_sampleBlocks_nil] at hfull
  exact ⟨n, by omega⟩

/-- No candidate of the stream of 0xFF bytes is below q. -/
theorem acceptedCandidates_of_ones {S : Nat → Byte} (h : ∀ n, S n = 0xFF) (n : Nat) : acceptedCandidates S n = [] := by
  have hcandidate (c : Nat) : sampleCandidate S c = 4095 := by
    rw [sampleCandidate, h, h, h]
    split <;> rfl
  simp [acceptedCandidates, hcandidate]

/-- Settles O45: the blocks of the loop collect the first 256 accepted candidates, and the loop ends once they have them. -/
theorem sampleNttTakesTheFirstAcceptedCandidates : Obligations.SampleNttTakesTheFirstAcceptedCandidates := by
  refine fun S => ⟨⟨fun ⟨_, hf⟩ => accepted_of_sampleNTT hf, fun ⟨n, hn⟩ => ?_⟩, fun n hn => sampleNTT_of_accepted hn,
    fun hones => Option.eq_none_iff_forall_ne_some.mpr fun f hf => ?_⟩
  · exact (sampleNTT_of_accepted hn).imp fun _ h => h.1
  · obtain ⟨n, hn⟩ := accepted_of_sampleNTT hf
    rw [acceptedCandidates_of_ones hones, List.length_nil] at hn
    omega

end Sys2Proof.Machine
end

section
/-!
The transforms (`41_ring_arithmetic.md`): a lane is read as an element of the field of 3329 elements. There a layer of
`NTT` splits each residue modulo `X^(2·len) - r^2` into those modulo `X^len - r` and `X^len + r` (R145), a layer of
`INTT` undoes it up to the factor 2, and a product of residues is the residue of the product (R153).
-/
namespace Sys2Proof.Machine

/-! ## Lanes as field elements -/

/-- A coefficient as an element of the field of 3329 elements. -/
def zq (c : Coeff) : ZMod 3329 := (c.val : ZMod 3329)

/-- Lane `j` as an element of the field of 3329 elements. -/
def zlane (f : RingElt) (j : Nat) : ZMod 3329 := zq (RingElt.lane f j)

@[simp] theorem zq_reduce (n : Nat) : zq (Coeff.reduce n) = n := ZMod.natCast_mod n 3329

@[simp] theorem zq_mul (a b : Coeff) : zq (Coeff.mul a b) = zq a * zq b := by
  rw [Coeff.mul, zq_reduce, Nat.cast_mul]; rfl

@[simp] theorem zq_add (a b : Coeff) : zq (Coeff.add a b) = zq a + zq b := by
  rw [zq, Coeff.add_val, ZMod.natCast_mod, Nat.cast_add]; rfl

@[simp] theorem zq_sub (a b : Coeff) : zq (Coeff.sub a b) = zq a - zq b := by
  rw [zq, Coeff.sub_val, ZMod.natCast_mod, Nat.cast_add, Nat.cast_sub b.isLt.le, ZMod.natCast_self, zero_sub,
    ← sub_eq_add_neg]; rfl

theorem zq_injective : Function.Injective zq := by
  intro a b h
  have hmod := (ZMod.natCast_eq_natCast_iff' _ _ _).mp h
  exact Fin.ext (by rwa [Nat.mod_eq_of_lt a.isLt, Nat.mod_eq_of_lt b.isLt] at hmod)

theorem RingElt.ext_zlane {f g : RingElt} (h : ∀ j < 256, zlane f j = zlane g j) : f = g :=
  RingElt.ext_lane fun j hj => zq_injective (h j hj)

/-- A lane is the residue of any natural number it stands for. -/
theorem lane_val_eq_mod {f : RingElt} {j n : Nat} (h : zlane f j = n) : (RingElt.lane f j).val = n % 3329 := by
  have hmod := (ZMod.natCast_eq_natCast_iff' _ _ _).mp h
  rwa [Nat.mod_eq_of_lt (RingElt.lane f j).isLt] at hmod

/-! ## The constants -/

/-- The constant of a butterfly: `ZETA[k]` as an element of the field. -/
def zroot (k : Nat) : ZMod 3329 := 17 ^ bitRev7 k

@[simp] theorem zq_zeta (k : Nat) : zq (zeta k) = zroot k := by simp [zeta, zroot]

/-- 17 is a primitive 256th root of unity. -/
theorem seventeen_pow_128 : (17 : ZMod 3329) ^ 128 = -1 := by
  have hzero : ((17 ^ 128 + 1 : Nat) : ZMod 3329) = 0 := (ZMod.natCast_eq_zero_iff _ _).mpr (by norm_num)
  rw [Nat.cast_add, Nat.cast_pow, Nat.cast_one] at hzero
  exact eq_neg_of_add_eq_zero_left hzero

/-- The root of node `k` of the tree of moduli: node 1 is `X^256 + 1`, and nodes `2k` and `2k + 1` are the factors of
node `k`; the leaves 128 to 255 are the moduli `X^2 - GAMMA[k - 128]`. -/
def nodeRoot (k : Nat) : ZMod 3329 := 17 ^ (bitRev7 (k / 2) + 128 * (k % 2))

@[simp] theorem nodeRoot_even (k : Nat) : nodeRoot (2 * k) = zroot k := by simp [nodeRoot, zroot]

@[simp] theorem nodeRoot_odd (k : Nat) : nodeRoot (2 * k + 1) = - zroot k := by
  have hdiv : (2 * k + 1) / 2 = k := by omega
  have hmod : (2 * k + 1) % 2 = 1 := by omega
  rw [nodeRoot, hdiv, hmod, pow_add, mul_one, seventeen_pow_128, mul_neg_one, zroot]

/-- The constant of the butterflies that split node `k` is a square root of the node's own. -/
theorem zroot_sq {k : Nat} (hk : k < 128) : zroot k ^ 2 = nodeRoot k := by
  have hexp : ∀ k < 128, bitRev7 k * 2 = bitRev7 (k / 2) + 128 * (k % 2) := by decide
  rw [zroot, ← pow_mul, hexp k hk, nodeRoot]

theorem nodeRoot_leaf {i : Nat} (hi : i < 128) : nodeRoot (128 + i) = 17 ^ (2 * bitRev7 i + 1) := by
  have hexp : ∀ i < 128, bitRev7 ((128 + i) / 2) + 128 * ((128 + i) % 2) = 2 * bitRev7 i + 1 := by decide
  rw [nodeRoot, hexp i hi]

/-! ## One layer -/

/-- Lanes `2·len·b + o` and `2·len·b + len + o`, `o < len`, are the lanes of a butterfly of block `b`. -/
theorem butterfly_low_index {len b o : Nat} (ho : o < len) :
    (2 * len * b + o) % (2 * len) < len ∧ (2 * len * b + o) / (2 * len) = b := by
  have hlt : o < 2 * len := by omega
  rw [Nat.mul_add_mod, Nat.mod_eq_of_lt hlt, Nat.mul_add_div (by omega), Nat.div_eq_of_lt hlt]
  exact ⟨ho, rfl⟩

theorem butterfly_high_index {len b o : Nat} (ho : o < len) :
    ¬ (2 * len * b + len + o) % (2 * len) < len ∧ (2 * len * b + len + o) / (2 * len) = b := by
  have hlt : len + o < 2 * len := by omega
  rw [Nat.add_assoc, Nat.mul_add_mod, Nat.mod_eq_of_lt hlt, Nat.mul_add_div (by omega), Nat.div_eq_of_lt hlt]
  exact ⟨by omega, rfl⟩

section Layer
variable {K len : Nat} (hK : K * len = 128)
include hK

theorem butterfly_lt {b o : Nat} (hb : b < K) (ho : o < len) : 2 * len * b + len + o < 256 := by
  have hle : len * (b + 1) ≤ len * K := Nat.mul_le_mul_left len hb
  have hcomm : len * K = 128 := by rw [Nat.mul_comm, hK]
  rw [Nat.mul_assoc]
  rw [Nat.mul_add, mul_one] at hle
  omega

/-- What holds of the two lanes of every butterfly holds of every lane. -/
theorem forall_lane_of_butterflies {P : Nat → Prop}
    (h : ∀ b < K, ∀ o < len, P (2 * len * b + o) ∧ P (2 * len * b + len + o)) {j : Nat} (hj : j < 256) : P j := by
  have hlen : 0 < 2 * len := by
    rcases Nat.eq_zero_or_pos len with rfl | hpos <;> omega
  have hb : j / (2 * len) < K := by
    rw [Nat.div_lt_iff_lt_mul hlen, Nat.mul_left_comm, hK]; exact hj
  have hsplit := Nat.div_add_mod j (2 * len)
  have hrem := Nat.mod_lt j hlen
  by_cases hlow : j % (2 * len) < len
  · rw [← hsplit]; exact (h _ hb _ hlow).1
  · have hhigh := (h _ hb (j % (2 * len) - len) (by omega)).2
    rwa [Nat.add_assoc, Nat.add_sub_cancel' (by omega), hsplit] at hhigh

theorem div_len : 128 / len = K :=
  Nat.div_eq_of_eq_mul_left (Nat.pos_of_ne_zero (by rintro rfl; omega)) hK.symm

theorem zlane_nttLayer (g : RingElt) {b o : Nat} (hb : b < K) (ho : o < len) :
    zlane (nttLayer len g) (2 * len * b + o) =
      zlane g (2 * len * b + o) + zroot (K + b) * zlane g (2 * len * b + len + o) ∧
    zlane (nttLayer len g) (2 * len * b + len + o) =
      zlane g (2 * len * b + o) - zroot (K + b) * zlane g (2 * len * b + len + o) := by
  have hlt := butterfly_lt hK hb ho
  obtain ⟨hlow, hlowBlock⟩ := butterfly_low_index (b := b) ho
  obtain ⟨hhigh, hhighBlock⟩ := butterfly_high_index (b := b) ho
  have hup : 2 * len * b + o + len = 2 * len * b + len + o := by omega
  have hdown : 2 * len * b + len + o - len = 2 * len * b + o := by omega
  constructor
  · rw [zlane, nttLayer, lane_butterflyLayer_low _ _ _ _ (by omega) hlow, hlowBlock, hup, div_len hK]
    simp [butterflyCT, zlane]
  · rw [zlane, nttLayer, lane_butterflyLayer_high _ _ _ _ hlt hhigh, hhighBlock, hdown, div_len hK]
    simp [butterflyCT, zlane]

theorem zlane_inttLayer (g : RingElt) {b o : Nat} (hb : b < K) (ho : o < len) :
    zlane (inttLayer len g) (2 * len * b + o) = zlane g (2 * len * b + o) + zlane g (2 * len * b + len + o) ∧
    zlane (inttLayer len g) (2 * len * b + len + o) =
      zroot (2 * K - 1 - b) * (zlane g (2 * len * b + len + o) - zlane g (2 * len * b + o)) := by
  have hlt := butterfly_lt hK hb ho
  obtain ⟨hlow, hlowBlock⟩ := butterfly_low_index (b := b) ho
  obtain ⟨hhigh, hhighBlock⟩ := butterfly_high_index (b := b) ho
  have hup : 2 * len * b + o + len = 2 * len * b + len + o := by omega
  have hdown : 2 * len * b + len + o - len = 2 * len * b + o := by omega
  have hdiv : 256 / len = 2 * K :=
    Nat.div_eq_of_eq_mul_left (Nat.pos_of_ne_zero (by rintro rfl; omega)) (by rw [Nat.mul_assoc, hK])
  constructor
  · rw [zlane, inttLayer, lane_butterflyLayer_low _ _ _ _ (by omega) hlow, hlowBlock, hup]
    simp [butterflyGS, zlane]
  · rw [zlane, inttLayer, lane_butterflyLayer_high _ _ _ _ hlt hhigh, hhighBlock, hdown, hdiv]
    simp [butterflyGS, zlane]

end Layer

/-! ## The residues -/

theorem sum_range_two_mul {M : Type} [AddCommMonoid M] (F : Nat → M) (n : Nat) :
    ∑ j ∈ Finset.range (2 * n), F j = ∑ m ∈ Finset.range n, (F (2 * m) + F (2 * m + 1)) := by
  induction n with
  | zero => rfl
  | succ n ih => rw [Nat.mul_succ, Finset.sum_range_succ, Finset.sum_range_succ, ih, Finset.sum_range_succ, add_assoc]

/-- `g` holds in its `K` blocks of `len` lanes the residues of `f` modulo `X^len - nodeRoot (K + b)`. -/
def HoldsResidues (K len : Nat) (f g : RingElt) : Prop :=
  ∀ b < K, ∀ o < len, zlane g (len * b + o) = ∑ m ∈ Finset.range K, zlane f (len * m + o) * nodeRoot (K + b) ^ m

theorem holdsResidues_self (f : RingElt) : HoldsResidues 1 256 f f := by
  intro b hb o _
  obtain rfl : b = 0 := by omega
  simp

/-- A layer splits each residue in two: the substitution `X^len = ±r` for the two roots `±r` of the node. -/
theorem HoldsResidues.nttLayer {K len : Nat} {f g : RingElt} (h : HoldsResidues K (2 * len) f g) (hK : K * len = 128)
    (hK64 : K ≤ 64) : HoldsResidues (2 * K) len f (nttLayer len g) := by
  have hsplit (r : ZMod 3329) (o : Nat) : ∑ m ∈ Finset.range (2 * K), zlane f (len * m + o) * r ^ m =
      ∑ m ∈ Finset.range K, zlane f (2 * len * m + o) * (r ^ 2) ^ m +
        r * ∑ m ∈ Finset.range K, zlane f (2 * len * m + (len + o)) * (r ^ 2) ^ m := by
    rw [sum_range_two_mul, Finset.mul_sum, ← Finset.sum_add_distrib]
    refine Finset.sum_congr rfl fun m _ => ?_
    rw [show len * (2 * m) + o = 2 * len * m + o by ring, show len * (2 * m + 1) + o = 2 * len * m + (len + o) by ring]
    ring
  intro c hc o ho
  obtain ⟨b, rfl | rfl⟩ : ∃ b, c = 2 * b ∨ c = 2 * b + 1 := ⟨c / 2, by omega⟩
  all_goals
    have hb : b < K := by omega
    obtain ⟨hlow, hhigh⟩ := zlane_nttLayer hK g hb ho
    have hsq := zroot_sq (k := K + b) (by omega)
    have hsrcLow := h b hb o (by omega)
    have hsrcHigh := h b hb (len + o) (by omega)
    rw [← Nat.add_assoc] at hsrcHigh
  · rw [← Nat.mul_add, nodeRoot_even, hsplit, hsq, ← hsrcLow, ← hsrcHigh, ← hlow]
    congr 1; ring
  · rw [← Nat.add_assoc, ← Nat.mul_add, nodeRoot_odd, hsplit, neg_sq, hsq, ← hsrcLow, ← hsrcHigh, neg_mul, ← sub_eq_add_neg,
      ← hhigh]
    congr 1; ring

theorem holdsResidues_nttValue (f : RingElt) : HoldsResidues 128 2 f (nttValue f) := by
  have h64 := (holdsResidues_self f).nttLayer (len := 128) rfl (by decide)
  have h32 := h64.nttLayer (len := 64) rfl (by decide)
  have h16 := h32.nttLayer (len := 32) rfl (by decide)
  have h8 := h16.nttLayer (len := 16) rfl (by decide)
  have h4 := h8.nttLayer (len := 8) rfl (by decide)
  have h2 := h4.nttLayer (len := 4) rfl (by decide)
  exact h2.nttLayer (len := 2) rfl (by decide)

/-- The two coefficients of residue `i`. -/
theorem zlane_nttValue (f : RingElt) {i o : Nat} (hi : i < 128) (ho : o < 2) : zlane (nttValue f) (2 * i + o) =
    ∑ m ∈ Finset.range 128, zlane f (2 * m + o) * (17 ^ (2 * bitRev7 i + 1)) ^ m := by
  rw [holdsResidues_nttValue f i hi o ho, nodeRoot_leaf hi]

/-- The same sum, of natural numbers. -/
theorem zlane_nttValue_eq_natCast (f : RingElt) {i o : Nat} (hi : i < 128) (ho : o < 2) : zlane (nttValue f) (2 * i + o) =
    ((∑ m ∈ Finset.range 128, (RingElt.lane f (2 * m + o)).val * (17 ^ (2 * bitRev7 i + 1)) ^ m : Nat) : ZMod 3329) := by
  rw [zlane_nttValue f hi ho]
  simp only [Nat.cast_sum, Nat.cast_mul, Nat.cast_pow, Nat.cast_ofNat, zlane, zq]

/-- Settles O42: the residues of the last layer, read as natural numbers. -/
theorem nttGivesTheResidues : Obligations.NttGivesTheResidues := fun f _ hi =>
  ⟨lane_val_eq_mod (zlane_nttValue_eq_natCast f hi (o := 0) (by decide)),
    lane_val_eq_mod (zlane_nttValue_eq_natCast f hi (o := 1) (by decide))⟩

/-! ## The transforms undo each other -/

/-- Every lane of `h` is `c` times that of `g`. -/
def IsScaled (c : ZMod 3329) (g h : RingElt) : Prop := ∀ j < 256, zlane h j = c * zlane g j

theorem IsScaled.trans {c d : ZMod 3329} {f g h : RingElt} (hfg : IsScaled c f g) (hgh : IsScaled d g h) :
    IsScaled (d * c) f h := fun j hj => by rw [hgh j hj, hfg j hj, mul_assoc]

theorem IsScaled.eq {c : ZMod 3329} {f g : RingElt} (h : IsScaled c f g) (hc : c = 1) : g = f :=
  RingElt.ext_zlane fun j hj => by rw [h j hj, hc, one_mul]

theorem isScaled_of_butterflies {K len : Nat} (hK : K * len = 128) {c : ZMod 3329} {g h : RingElt}
    (hlanes : ∀ b < K, ∀ o < len, zlane h (2 * len * b + o) = c * zlane g (2 * len * b + o) ∧
      zlane h (2 * len * b + len + o) = c * zlane g (2 * len * b + len + o)) : IsScaled c g h :=
  fun _ hj => forall_lane_of_butterflies (P := fun j => zlane h j = c * zlane g j) hK hlanes hj

theorem isScaled_scaleInv128 (f : RingElt) : IsScaled 3303 f (scaleInv128 f) := by
  intro j hj
  rw [zlane, scaleInv128, RingElt.lane_ofLanes _ hj, zq_mul, mul_comm]
  rfl

/-- The distances of the layers of `NTT`, in its order. -/
def layerLengths : List Nat := [128, 64, 32, 16, 8, 4, 2]

theorem nttValue_eq_foldl (f : RingElt) : nttValue f = layerLengths.foldl (fun g len => nttLayer len g) f := rfl

theorem inttValue_eq_foldl (f : RingElt) :
    inttValue f = scaleInv128 (layerLengths.reverse.foldl (fun g len => inttLayer len g) f) := rfl

/-- The blocks of a layer: their number, and that the constants `NTT` and `INTT` use in a block multiply to -1. -/
theorem exists_blocks {len : Nat} (h : len ∈ layerLengths) :
    ∃ K, K * len = 128 ∧ ∀ b < K, zroot (K + b) * zroot (2 * K - 1 - b) = -1 := by
  have hcomplement : ∀ len ∈ layerLengths, 128 / len * len = 128 ∧
      ∀ b < 128 / len, bitRev7 (128 / len + b) + bitRev7 (2 * (128 / len) - 1 - b) = 128 := by decide
  obtain ⟨hblocks, hexp⟩ := hcomplement len h
  refine ⟨128 / len, hblocks, fun b hb => ?_⟩
  rw [zroot, zroot, ← pow_add, hexp b hb, seventeen_pow_128]

theorem isScaled_inttLayer_nttLayer {len : Nat} (hlen : len ∈ layerLengths) (g : RingElt) :
    IsScaled 2 g (inttLayer len (nttLayer len g)) := by
  obtain ⟨K, hK, hroots⟩ := exists_blocks hlen
  refine isScaled_of_butterflies hK fun b hb o ho => ?_
  obtain ⟨hnttLow, hnttHigh⟩ := zlane_nttLayer hK g hb ho
  obtain ⟨hinttLow, hinttHigh⟩ := zlane_inttLayer hK (nttLayer len g) hb ho
  rw [hinttLow, hinttHigh, hnttLow, hnttHigh]
  constructor
  · ring
  · linear_combination (-2 * zlane g (2 * len * b + len + o)) * hroots b hb

theorem isScaled_nttLayer_inttLayer {len : Nat} (hlen : len ∈ layerLengths) (g : RingElt) :
    IsScaled 2 g (nttLayer len (inttLayer len g)) := by
  obtain ⟨K, hK, hroots⟩ := exists_blocks hlen
  refine isScaled_of_butterflies hK fun b hb o ho => ?_
  obtain ⟨hinttLow, hinttHigh⟩ := zlane_inttLayer hK g hb ho
  obtain ⟨hnttLow, hnttHigh⟩ := zlane_nttLayer hK (inttLayer len g) hb ho
  rw [hnttLow, hnttHigh, hinttLow, hinttHigh]
  constructor
  · linear_combination (zlane g (2 * len * b + len + o) - zlane g (2 * len * b + o)) * hroots b hb
  · linear_combination (zlane g (2 * len * b + o) - zlane g (2 * len * b + len + o)) * hroots b hb

theorem IsScaled.nttLayer {len : Nat} (hlen : len ∈ layerLengths) {c : ZMod 3329} {g h : RingElt} (hgh : IsScaled c g h) :
    IsScaled c (nttLayer len g) (nttLayer len h) := by
  obtain ⟨K, hK, -⟩ := exists_blocks hlen
  refine isScaled_of_butterflies hK fun b hb o ho => ?_
  have hlt := butterfly_lt hK hb ho
  obtain ⟨hgLow, hgHigh⟩ := zlane_nttLayer hK g hb ho
  obtain ⟨hhLow, hhHigh⟩ := zlane_nttLayer hK h hb ho
  rw [hgLow, hgHigh, hhLow, hhHigh, hgh _ hlt, hgh (2 * len * b + o) (by omega)]
  constructor <;> ring

theorem IsScaled.inttLayer {len : Nat} (hlen : len ∈ layerLengths) {c : ZMod 3329} {g h : RingElt} (hgh : IsScaled c g h) :
    IsScaled c (inttLayer len g) (inttLayer len h) := by
  obtain ⟨K, hK, -⟩ := exists_blocks hlen
  refine isScaled_of_butterflies hK fun b hb o ho => ?_
  have hlt := butterfly_lt hK hb ho
  obtain ⟨hgLow, hgHigh⟩ := zlane_inttLayer hK g hb ho
  obtain ⟨hhLow, hhHigh⟩ := zlane_inttLayer hK h hb ho
  rw [hgLow, hgHigh, hhLow, hhHigh, hgh _ hlt, hgh (2 * len * b + o) (by omega)]
  constructor <;> ring

section Fold
variable {F G : Nat → RingElt → RingElt} {lens : List Nat}

/-- Layers that respect scaling do so one after the other. -/
theorem IsScaled.foldl (hF : ∀ len ∈ lens, ∀ {c g h}, IsScaled c g h → IsScaled c (F len g) (F len h))
    {c : ZMod 3329} {g h : RingElt} (hgh : IsScaled c g h) :
    IsScaled c (lens.foldl (fun g len => F len g) g) (lens.foldl (fun g len => F len g) h) := by
  induction lens generalizing g h with
  | nil => exact hgh
  | cons len lens ih =>
    exact ih (fun l hl => hF l (List.mem_cons_of_mem _ hl)) (hF len List.mem_cons_self hgh)

/-- Layers each undone up to the factor 2 are undone together, in the opposite order. -/
theorem isScaled_foldl_reverse (hFG : ∀ len ∈ lens, ∀ g, IsScaled 2 g (G len (F len g)))
    (hG : ∀ len ∈ lens, ∀ {c g h}, IsScaled c g h → IsScaled c (G len g) (G len h)) (f : RingElt) :
    IsScaled (2 ^ lens.length) f (lens.reverse.foldl (fun g len => G len g) (lens.foldl (fun g len => F len g) f)) := by
  induction lens generalizing f with
  | nil => intro j _; simp
  | cons len lens ih =>
    have hinner := ih (fun l hl => hFG l (List.mem_cons_of_mem _ hl)) (fun l hl => hG l (List.mem_cons_of_mem _ hl)) (F len f)
    rw [List.reverse_cons, List.foldl_append, List.length_cons, pow_succ]
    exact (hFG len List.mem_cons_self f).trans (hG len List.mem_cons_self hinner)

end Fold

theorem inttValue_nttValue (f : RingElt) : inttValue (nttValue f) = f := by
  have hlayers := isScaled_foldl_reverse (F := nttLayer) (G := inttLayer) (lens := layerLengths)
    (fun _ hl => isScaled_inttLayer_nttLayer hl) (fun _ hl => IsScaled.inttLayer hl) f
  rw [inttValue_eq_foldl, nttValue_eq_foldl]
  exact (hlayers.trans (isScaled_scaleInv128 _)).eq (by decide)

theorem nttValue_inttValue (f : RingElt) : nttValue (inttValue f) = f := by
  have hlayers := isScaled_foldl_reverse (F := inttLayer) (G := nttLayer) (lens := layerLengths.reverse)
    (fun _ hl => isScaled_nttLayer_inttLayer (List.mem_reverse.mp hl)) (fun _ hl => IsScaled.nttLayer (List.mem_reverse.mp hl)) f
  rw [List.reverse_reverse] at hlayers
  have hscale := (isScaled_scaleInv128 (layerLengths.reverse.foldl (fun g len => inttLayer len g) f)).foldl
    (F := nttLayer) (lens := layerLengths) (fun _ hl => IsScaled.nttLayer hl)
  rw [inttValue_eq_foldl, nttValue_eq_foldl]
  exact (hlayers.trans hscale).eq (by decide)

/-- Settles O43: each layer undoes its counterpart up to the factor 2, and 128·3303 is 1 modulo 3329. -/
theorem transformsAreInverse : Obligations.TransformsAreInverse :=
  fun f => ⟨inttValue_nttValue f, nttValue_inttValue f⟩

end Sys2Proof.Machine
end

section
/-!
The product of two ring elements (`41_ring_arithmetic.md` R153 (b)): the residues of the product modulo
`X^256 + 1` are the products of the residues modulo each `X^2 - GAMMA[i]`, because `X^256 = -1` there.
-/
namespace Sys2Proof.Machine

/-! ## The negacyclic product -/

/-- Summand `i` of coefficient `n` of the product modulo `X^N + 1` of two coefficient sequences. -/
def negacyclicTerm {R : Type} [Ring R] (N : Nat) (a b : Nat → R) (n i : Nat) : R :=
  if i ≤ n then a i * b (n - i) else - (a i * b (n + N - i))

/-- Multiplying by `y^i` where `y^N = -1` moves the coefficients up by `i`, and back from the top with a sign. -/
theorem sum_negacyclicTerm_mul_pow {S : Type} [CommRing S] {y : S} {N : Nat} (hy : y ^ N = -1) (a b : Nat → S) {i : Nat}
    (hi : i < N) : ∑ n ∈ Finset.range N, negacyclicTerm N a b n i * y ^ n =
      a i * y ^ i * ∑ k ∈ Finset.range N, b k * y ^ k := by
  obtain ⟨d, rfl⟩ := Nat.exists_eq_add_of_le hi.le
  have hback : ∑ n ∈ Finset.range i, negacyclicTerm (i + d) a b n i * y ^ n =
      a i * y ^ i * ∑ k ∈ Finset.range i, b (d + k) * y ^ (d + k) := by
    rw [Finset.mul_sum]
    refine Finset.sum_congr rfl fun n hn => ?_
    have hlt := Finset.mem_range.mp hn
    rw [negacyclicTerm, if_neg (by omega), show n + (i + d) - i = d + n by omega]
    linear_combination (-(a i * b (d + n) * y ^ n)) * hy
  have hup : ∑ n ∈ Finset.range d, negacyclicTerm (i + d) a b (i + n) i * y ^ (i + n) =
      a i * y ^ i * ∑ k ∈ Finset.range d, b k * y ^ k := by
    rw [Finset.mul_sum]
    refine Finset.sum_congr rfl fun n _ => ?_
    rw [negacyclicTerm, if_pos (by omega), Nat.add_sub_cancel_left, pow_add]
    ring
  rw [Finset.sum_range_add, hback, hup, Nat.add_comm i d, Finset.sum_range_add, mul_add, add_comm]

/-- The negacyclic product is the product of the values at any `y` with `y^N = -1`. -/
theorem sum_negacyclic_eq_mul {S : Type} [CommRing S] {y : S} {N : Nat} (hy : y ^ N = -1) (a b : Nat → S) :
    ∑ n ∈ Finset.range N, (∑ i ∈ Finset.range N, negacyclicTerm N a b n i) * y ^ n =
      (∑ i ∈ Finset.range N, a i * y ^ i) * ∑ k ∈ Finset.range N, b k * y ^ k := by
  calc ∑ n ∈ Finset.range N, (∑ i ∈ Finset.range N, negacyclicTerm N a b n i) * y ^ n
      = ∑ n ∈ Finset.range N, ∑ i ∈ Finset.range N, negacyclicTerm N a b n i * y ^ n := by simp only [Finset.sum_mul]
    _ = ∑ i ∈ Finset.range N, ∑ n ∈ Finset.range N, negacyclicTerm N a b n i * y ^ n := Finset.sum_comm
    _ = ∑ i ∈ Finset.range N, a i * y ^ i * ∑ k ∈ Finset.range N, b k * y ^ k :=
        Finset.sum_congr rfl fun _ hi => sum_negacyclicTerm_mul_pow hy a b (Finset.mem_range.mp hi)
    _ = _ := (Finset.sum_mul _ _ _).symm

/-- A ring homomorphism carries the coefficients of the product. -/
theorem map_negacyclicTerm {R S : Type} [Ring R] [Ring S] (φ : R →+* S) (N : Nat) (a b : Nat → R) (n i : Nat) :
    φ (negacyclicTerm N a b n i) = negacyclicTerm N (fun j => φ (a j)) (fun j => φ (b j)) n i := by
  simp only [negacyclicTerm, apply_ite φ, map_mul, map_neg]

/-! ## The product modulo `X^256 + 1` -/

/-- Coefficient `n` of the product modulo `X^256 + 1` of two ring elements, over the integers. -/
def negacyclicCoeff (a b : RingElt) (n : Nat) : Int :=
  ∑ i ∈ Finset.range 256, negacyclicTerm 256 (fun j => ((RingElt.lane a j).val : Int)) (fun j => (RingElt.lane b j).val) n i

/-- The product modulo `X^256 + 1` and q of two ring elements. -/
def negacyclicMul (a b : RingElt) : RingElt :=
  RingElt.ofLanes fun n => Coeff.reduce (negacyclicCoeff a b n % 3329).toNat

theorem lane_negacyclicMul (a b : RingElt) {n : Nat} (hn : n < 256) :
    ((RingElt.lane (negacyclicMul a b) n).val : Int) = negacyclicCoeff a b n % 3329 := by
  rw [negacyclicMul, RingElt.lane_ofLanes _ hn, Coeff.reduce_val]
  omega

theorem zlane_negacyclicMul (a b : RingElt) {n : Nat} (hn : n < 256) :
    zlane (negacyclicMul a b) n = ∑ i ∈ Finset.range 256, negacyclicTerm 256 (zlane a) (zlane b) n i := by
  have hcast : zlane (negacyclicMul a b) n = ((negacyclicCoeff a b n : Int) : ZMod 3329) := by
    rw [zlane, zq, ← Int.cast_natCast, lane_negacyclicMul a b hn]
    exact ZMod.intCast_mod _ 3329
  rw [hcast, ← eq_intCast (Int.castRingHom (ZMod 3329)), negacyclicCoeff, map_sum]
  refine Finset.sum_congr rfl fun i _ => ?_
  rw [map_negacyclicTerm]
  simp only [eq_intCast, Int.cast_natCast]
  rfl

/-! ## A residue as a value -/

/-- The field with a square root `ω` of `c` adjoined: the residues modulo `X^2 - c`. -/
abbrev ZqSqrt (c : ZMod 3329) : Type := QuadraticAlgebra (ZMod 3329) c 0

/-- The value of a ring element at `ω`. -/
def evalAtSqrt (c : ZMod 3329) (f : RingElt) : ZqSqrt c :=
  ∑ j ∈ Finset.range 256, algebraMap (ZMod 3329) (ZqSqrt c) (zlane f j) * QuadraticAlgebra.omega ^ j

theorem omega_sq (c : ZMod 3329) : (QuadraticAlgebra.omega : ZqSqrt c) ^ 2 = algebraMap (ZMod 3329) (ZqSqrt c) c := by
  rw [sq]; ext <;> simp

theorem evalAtSqrt_negacyclicMul {c : ZMod 3329} (hc : c ^ 128 = -1) (a b : RingElt) :
    evalAtSqrt c (negacyclicMul a b) = evalAtSqrt c a * evalAtSqrt c b := by
  have hpow : (QuadraticAlgebra.omega : ZqSqrt c) ^ 256 = -1 := by
    rw [show 256 = 2 * 128 from rfl, pow_mul, omega_sq, ← map_pow, hc, map_neg, map_one]
  rw [evalAtSqrt, evalAtSqrt, evalAtSqrt, ← sum_negacyclic_eq_mul hpow]
  refine Finset.sum_congr rfl fun n hn => ?_
  rw [zlane_negacyclicMul a b (Finset.mem_range.mp hn), map_sum]
  simp only [map_negacyclicTerm]

/-- The two parts of the value at `ω` are the two coefficients of the residue modulo `X^2 - c`. -/
theorem evalAtSqrt_eq (c : ZMod 3329) (f : RingElt) : evalAtSqrt c f =
    ⟨∑ m ∈ Finset.range 128, zlane f (2 * m + 0) * c ^ m, ∑ m ∈ Finset.range 128, zlane f (2 * m + 1) * c ^ m⟩ := by
  have hterm (m : Nat) : algebraMap (ZMod 3329) (ZqSqrt c) (zlane f (2 * m)) * QuadraticAlgebra.omega ^ (2 * m) +
      algebraMap (ZMod 3329) (ZqSqrt c) (zlane f (2 * m + 1)) * QuadraticAlgebra.omega ^ (2 * m + 1) =
      ⟨zlane f (2 * m + 0) * c ^ m, zlane f (2 * m + 1) * c ^ m⟩ := by
    rw [pow_succ, pow_mul, omega_sq, ← map_pow]
    ext <;> simp [-map_pow]
  have hparts (n : Nat) : (∑ m ∈ Finset.range n, ⟨zlane f (2 * m + 0) * c ^ m, zlane f (2 * m + 1) * c ^ m⟩ : ZqSqrt c) =
      ⟨∑ m ∈ Finset.range n, zlane f (2 * m + 0) * c ^ m, ∑ m ∈ Finset.range n, zlane f (2 * m + 1) * c ^ m⟩ := by
    induction n with
    | zero => rfl
    | succ n ih => rw [Finset.sum_range_succ, Finset.sum_range_succ, Finset.sum_range_succ, ih]; rfl
  rw [evalAtSqrt, show 256 = 2 * 128 from rfl, sum_range_two_mul]
  simp only [hterm, hparts]

/-- The value at a square root of `GAMMA[i]`, from the lanes of the transform. -/
theorem evalAtSqrt_gamma (f : RingElt) {i : Nat} (hi : i < 128) : evalAtSqrt (17 ^ (2 * bitRev7 i + 1)) f =
    ⟨zlane (nttValue f) (2 * i), zlane (nttValue f) (2 * i + 1)⟩ := by
  rw [evalAtSqrt_eq, ← zlane_nttValue f hi (by decide), ← zlane_nttValue f hi (by decide)]
  rfl

theorem gamma_pow_128 (i : Nat) : ((17 : ZMod 3329) ^ (2 * bitRev7 i + 1)) ^ 128 = -1 := by
  rw [← pow_mul, Nat.mul_comm, pow_mul, seventeen_pow_128]
  exact Odd.neg_one_pow ⟨bitRev7 i, rfl⟩

theorem zlane_baseMul (f g : RingElt) {i : Nat} (hi : i < 128) :
    zlane (baseMul f g) (2 * i) = zlane f (2 * i) * zlane g (2 * i) +
      17 ^ (2 * bitRev7 i + 1) * zlane f (2 * i + 1) * zlane g (2 * i + 1) ∧
    zlane (baseMul f g) (2 * i + 1) = zlane f (2 * i) * zlane g (2 * i + 1) + zlane f (2 * i + 1) * zlane g (2 * i) := by
  obtain ⟨heven, hodd⟩ := lane_baseMul f g hi
  have hgamma : zq (gamma i) = 17 ^ (2 * bitRev7 i + 1) := by rw [gamma, zq_reduce, Nat.cast_pow]; rfl
  rw [← hgamma]
  simp only [zlane, heven, hodd, zq_reduce, Nat.cast_add, Nat.cast_mul]
  simp only [zq]
  exact ⟨by ring, trivial⟩

/-- The transform of the product is the product of the transforms, residue by residue. -/
theorem nttValue_negacyclicMul (a b : RingElt) :
    nttValue (negacyclicMul a b) = baseMul (nttValue a) (nttValue b) := by
  refine RingElt.ext_zlane fun j hj => ?_
  have hi : j / 2 < 128 := by omega
  have hvalue := evalAtSqrt_negacyclicMul (gamma_pow_128 (j / 2)) a b
  rw [evalAtSqrt_gamma _ hi, evalAtSqrt_gamma _ hi, evalAtSqrt_gamma _ hi] at hvalue
  obtain ⟨hevenProduct, hoddProduct⟩ := zlane_baseMul (nttValue a) (nttValue b) hi
  rcases Nat.even_or_odd' j with ⟨i, rfl | rfl⟩
  · rw [show 2 * i / 2 = i by omega] at hvalue hevenProduct
    rw [hevenProduct]
    simpa using congrArg QuadraticAlgebra.re hvalue
  · rw [show (2 * i + 1) / 2 = i by omega] at hvalue hoddProduct
    rw [hoddProduct]
    simpa using congrArg QuadraticAlgebra.im hvalue

/-- Settles O44: `INTT` of the product of the transforms is the product modulo `X^256 + 1`, lane by lane. -/
theorem nttProductIsTheRingProduct : Obligations.NttProductIsTheRingProduct := by
  intro a b n hn
  rw [← nttValue_negacyclicMul, inttValue_nttValue]
  exact lane_negacyclicMul a b hn

end Sys2Proof.Machine
end
